-- ==== Sys2Proof/Word.lean ====
section
/-! DEFINITION. The word and byte types of the core (spec 00_scope.md R9, R10). -/

namespace Sys2Proof

/-- A 16-bit word: a register, an address, an instruction word (R9). -/
abbrev Word := BitVec 16

/-- An 8-bit byte: the unit the address space is counted in (20_memory.md R50). -/
abbrev Byte := BitVec 8

end Sys2Proof
end

