-- ==== Sys2Proof/Syntax.lean ====
section
/-! DEFINITION. The instructions of the core as syntax: what one opcode word says, after decode
(spec 30_encoding.md R81–R93; one constructor of `Instr` per row of opcode_table.json). Extension
words are not part of an instruction here: the opcode word alone selects the instruction and its length
(R109), and the extension words are read by its operand routines (40_pipeline.md R125). -/

namespace Sys2Proof

/-- The operation width that the byte/word flag `bw` selects (R9, R111): `bw = 1` is byte. -/
inductive Width
  | byte
  | word
deriving DecidableEq, Repr

/-- The sixteen registers by role (10_state.md R21): R0 is the program counter, R1 the stack pointer, R2 the
status register, R3 the constant generator; `gp n` is R(n+4). -/
inductive Reg
  | pc
  | sp
  | sr
  | cg
  | gp (n : Fin 12)
deriving DecidableEq, Repr

/-- The thirteen source modes (30_encoding.md R88), with the register field of the generic ones. -/
inductive Src
  | reg (r : Reg)   -- Rn
  | idx (r : Reg)   -- X(Rn)
  | sym             -- ADDR, PC-relative
  | abs             -- &ADDR
  | ind (r : Reg)   -- @Rn
  | inc (r : Reg)   -- @Rn+
  | imm             -- #N
  | cg0             -- constant 0 (R3, as = 00)
  | cg1             -- constant 1 (R3, as = 01)
  | cg2             -- constant 2 (R3, as = 10)
  | cgm1            -- constant −1 (R3, as = 11)
  | cg4             -- constant 4 (R2, as = 10)
  | cg8             -- constant 8 (R2, as = 11)
deriving DecidableEq, Repr

/-- The four destination modes of fmt1 (30_encoding.md R89). `idx cg`, that is `X(R3)`, decodes and faults
when it is executed. -/
inductive Dst
  | reg (r : Reg)
  | idx (r : Reg)
  | sym
  | abs
deriving DecidableEq, Repr

/-- The instructions, one constructor per row of the opcode table. -/
inductive Instr
  -- fmt1 (R82, R85)
  | mov (w : Width) (src : Src) (dst : Dst)
  | add (w : Width) (src : Src) (dst : Dst)
  | addc (w : Width) (src : Src) (dst : Dst)
  | subc (w : Width) (src : Src) (dst : Dst)
  | sub (w : Width) (src : Src) (dst : Dst)
  | cmp (w : Width) (src : Src) (dst : Dst)
  | dadd (w : Width) (src : Src) (dst : Dst)
  | bit (w : Width) (src : Src) (dst : Dst)
  | bic (w : Width) (src : Src) (dst : Dst)
  | bis (w : Width) (src : Src) (dst : Dst)
  | xor (w : Width) (src : Src) (dst : Dst)
  | and (w : Width) (src : Src) (dst : Dst)
  -- fmt2 (R83, R86): SWPB, SXT and CALL have no byte form
  | rrc (w : Width) (src : Src)
  | swpb (src : Src)
  | rra (w : Width) (src : Src)
  | sxt (src : Src)
  | push (w : Width) (src : Src)
  | call (src : Src)
  | reti
  -- jump (R84, R87): a signed 10-bit word offset
  | jne (offset : BitVec 10)
  | jeq (offset : BitVec 10)
  | jnc (offset : BitVec 10)
  | jc (offset : BitVec 10)
  | jn (offset : BitVec 10)
  | jge (offset : BitVec 10)
  | jl (offset : BitVec 10)
  | jmp (offset : BitVec 10)
  -- unsupported stubs (44_unsupported.md R231–R234): their operand bits are kept but not interpreted
  | ext (x : BitVec 11)
  | pushmA (x : BitVec 8)
  | pushmW (x : BitVec 8)
  | popmA (x : BitVec 8)
  | popmW (x : BitVec 8)
  | rrcm (n : BitVec 2) (aw : BitVec 1) (r : BitVec 4)
  | rram (n : BitVec 2) (aw : BitVec 1) (r : BitVec 4)
  | rlam (n : BitVec 2) (aw : BitVec 1) (r : BitVec 4)
  | rrum (n : BitVec 2) (aw : BitVec 1) (r : BitVec 4)
deriving DecidableEq, Repr

/-- The mnemonics of the opcode table, one per row: what a descriptor (30_encoding.md R95) and the
parameter `SR_SAFE` (00_scope.md R8) name. -/
inductive Mnemonic
  | mov | add | addc | subc | sub | cmp | dadd | bit | bic | bis | xor | and
  | rrc | swpb | rra | sxt | push | call | reti
  | jne | jeq | jnc | jc | jn | jge | jl | jmp
  | ext | pushmA | pushmW | popmA | popmW | rrcm | rram | rlam | rrum
deriving DecidableEq, Repr

end Sys2Proof
end

