-- ==== Sys2Proof/Config.lean ====
section
/-! DEFINITION. What an implementation fixes (the parameters of spec 00_scope.md R8, as plain data) and the
free values, which nothing fixes. The default values of the parameters are in Machine/Params.lean. -/

namespace Sys2Proof

/-- What an access outside both regions with no handler does (`MMIO_POLICY`, R8; 20_memory.md R53). -/
inductive MmioPolicy
  | fail
  | default
deriving DecidableEq, Repr

/-- Which `@Rn+` increments PUSH and CALL suppress (`PUSHCALL_INC_SUPPRESS`, R8; 40_pipeline.md R136). -/
inductive IncSuppress
  | allRegs
  | spOnly
deriving DecidableEq, Repr

/-- One entry of `MMIO_HANDLERS` (20_memory.md R54): the byte address, the read function of the stored byte, the write
function of the incoming byte, each as the table of its 256 values, and the initial stored byte.
DESIGN CHOICE (log entry 7), safe: a function from byte to byte is held as its table, so that State is plain data. -/
structure MmioHandler where
  addr  : Word
  read  : Vector Byte 256
  write : Vector Byte 256
  init  : Byte
deriving DecidableEq, Repr

/-- The parameters of 00_scope.md R8 (10_state.md R35: configuration state, fixed for a session). `WATCH_RANGES`, which the host
sets between steps, is a field of State; `RAM_INIT` is `unwrittenByte` in Machine/Ops.lean; `DADD_DRAW` is
`Config.freeWord` and `Config.freeBit` below. -/
structure Params where
  ramBase     : Nat
  ramSize     : Nat
  nvmBase     : Nat
  nvmSize     : Nat
  handlers    : List MmioHandler
  policy      : MmioPolicy
  mmioDefault : Byte
  resetVector : Word
  resetSp     : Word
  resetGp     : Vector Word 12
  nvmFill     : List Byte
  haltWord    : Word
  srSafe      : List Mnemonic
  srMask      : Word
  incSuppress : IncSuppress
deriving DecidableEq, Repr

/-- A free word for each draw: nothing constrains it. It is the result of DADD on a digit above 9 (40_pipeline.md R148)
and the PC after a reset whose vector is unmapped (70_reset_and_hazards.md R270). Log entry 6. -/
opaque Config.freeWord : Nat → Word

/-- A free bit for each draw: nothing constrains it. It is DADD's V, and its N, Z and C on a digit above 9
(40_pipeline.md R148). Log entry 6. -/
opaque Config.freeBit : Nat → Bool

end Sys2Proof
end

