-- ==== Sys2Proof/Machine/Params.lean ====
section
/-! DEFINITION. The default values of the parameters (spec 00_scope.md R8) and the well-formedness of a configuration
(20_memory.md R52). -/

namespace Sys2Proof.Machine

/-- The defaults of 00_scope.md R8. DESIGN CHOICE (log entries 3 and 8), unsafe: `RESET_REGS`, `MMIO_DEFAULT_BYTE` and
`NVM_FILL`, which the spec leaves OPEN, are 0 here. -/
def defaultParams : Params where
  ramBase     := 0x1C00
  ramSize     := 0x0800
  nvmBase     := 0x4400
  nvmSize     := 0xBC00
  handlers    := []
  policy      := .fail
  mmioDefault := 0x00#8
  resetVector := 0xFFFE#16
  resetSp     := 0x0000#16
  resetGp     := Vector.replicate 12 0x0000#16
  nvmFill     := [0x00#8]
  haltWord    := 0x3FFF#16
  srSafe      := [.mov, .bic, .bis]
  srMask      := 0x010F#16
  incSuppress := .allRegs

/-- Address `a` lies in the volatile region (20_memory.md R51). -/
def inRam (p : Params) (a : Nat) : Bool := p.ramBase ≤ a && a < p.ramBase + p.ramSize

/-- Address `a` lies in the persistent region (20_memory.md R51). -/
def inNvm (p : Params) (a : Nat) : Bool := p.nvmBase ≤ a && a < p.nvmBase + p.nvmSize

/-- No two handlers claim one address: `MMIO_HANDLERS` is a map (R8). -/
def distinctHandlers : List MmioHandler → Bool
  | [] => true
  | h :: t => t.all (fun k => k.addr != h.addr) && distinctHandlers t

/-- Configuration well-formedness (20_memory.md R52): both regions end by 0x10000, they share no address, and every
handler lies outside both. -/
def wellFormedParams (p : Params) : Bool :=
  p.ramBase + p.ramSize ≤ 0x10000 && p.nvmBase + p.nvmSize ≤ 0x10000
    && min (p.ramBase + p.ramSize) (p.nvmBase + p.nvmSize) ≤ max p.ramBase p.nvmBase
    && p.handlers.all (fun h => !inRam p h.addr.toNat && !inNvm p h.addr.toNat)
    && distinctHandlers p.handlers

end Sys2Proof.Machine
end

