-- ==== Sys2Proof/Machine/State.lean ====
section
/-! DEFINITION. The state of the machine as plain data: everything the spec gives it (spec 10_state.md R20–R41), what a step can
end in (60_exceptions.md R240–R247), and the state right after reset (R40). -/

namespace Sys2Proof.Machine

/-- The reasons of `UnknownBehavior` (60_exceptions.md R243); no other exists. -/
inductive Reason
  | misalignedWord        -- 20_memory.md R58
  | unsupported           -- 44_unsupported.md R230
  | indirectPC            -- 40_pipeline.md R134
  | indexedR3Dest         -- 40_pipeline.md R139
  | constantOperand       -- 42_fmt2.md R198
  | bytePCWrite           -- 40_pipeline.md R153
  | oddPC                 -- 40_pipeline.md R153
  | oddSP                 -- 40_pipeline.md R154
  | byteSRWrite           -- 40_pipeline.md R155
  | srUnsafeOpcode        -- 40_pipeline.md R155
  | srUnimplementedBits   -- 40_pipeline.md R156; 70_reset_and_hazards.md R278 (log entry 21)
deriving DecidableEq, Repr

/-- The fault record handed to the host (60_exceptions.md R241, R242, R244): the opcode word when it was fetched, and the
address of the instruction. -/
inductive FaultReport
  | decodeFailure (word pcStart : Word)
  | unknownBehavior (reason : Reason) (word : Option Word) (pcStart : Word)
  | memFail (addr : Word) (word : Option Word) (pcStart : Word)
  | resetMemFail (addr : Word)   -- a reset whose vector is unmapped (70_reset_and_hazards.md R270)
deriving DecidableEq, Repr

/-- The outcome of a step (00_scope.md R13), with the flag `cg_shortcut` beside each that is no fault (60_exceptions.md R245; log
entry 10). -/
inductive StepOutcome
  | retired (cgShortcut : Bool)
  | halted (cgShortcut : Bool)
  | breakpoint (cgShortcut : Bool)
  | fault (report : FaultReport)
deriving DecidableEq, Repr

/-- One entry of the I/O trace (20_memory.md R71); a width stands for the number of bytes, 1 or 2. -/
inductive TraceEntry
  | fetch (addr word : Word)
  | memRead (addr : Word) (w : Width) (value : Word)
  | memWrite (addr : Word) (w : Width) (value : Word)
  | regRead (r : Reg) (value : Word)
  | regWrite (r : Reg) (value : Word)
deriving DecidableEq, Repr

/-- The stored bytes, by address, in the canonical form of `Memory.wf` (Machine/Ops.lean). -/
abbrev Memory := List Host.Cell

/-- The state of the machine. -/
structure State where
  /-- R0, the program counter (R23). -/
  pc      : Word
  /-- R1, the stack pointer (R24). -/
  sp      : Word
  /-- R2, the status register (R25). -/
  sr      : Word
  /-- R4 to R15 (R30); R3 has no storage (R29). -/
  gp      : Vector Word 12
  /-- The stored bytes of RAM, NVM and MMIO cells (R33, R34). -/
  mem     : Memory
  /-- Configuration state (R35): the parameters of 00_scope.md R8. -/
  params  : Params
  /-- The watched byte ranges `[lo, hi)` (60_exceptions.md R247). -/
  watch   : List (Nat × Nat)
  /-- Run state: the outcome of the last step (R37). -/
  outcome : Option StepOutcome
  /-- Run state: the sticky mark (R37), with the record a refused step reports again. -/
  faulted : Option FaultReport
  /-- The I/O trace of the current step (R38). -/
  trace   : List TraceEntry
  /-- The model's own: how many free values have been drawn (log entry 6). -/
  draws   : Nat
deriving DecidableEq, Repr

/-- The faults. Each carries the state the step leaves behind (60_exceptions.md R249), marked faulted: safe, the machine stops
where the spec says it stops (log entry 2). -/
inductive Fault
  /-- Raised by `step` for a word no descriptor matches (60_exceptions.md R241). Safe: the spec's own outcome. -/
  | decodeFailure (word pcStart : Word) (after : State)
  /-- Raised by `step` and `exec` where a rule raises `UnknownBehavior` (60_exceptions.md R242, R243). Safe: the spec's own outcome. -/
  | unknownBehavior (reason : Reason) (word : Option Word) (pcStart : Word) (after : State)
  /-- Raised by `step` and `exec` on an access to an unmapped byte (60_exceptions.md R244). Safe: the spec's own outcome. -/
  | memFail (addr : Word) (word : Option Word) (pcStart : Word) (after : State)
  /-- Raised by `step` on a core whose reset failed, which reports that failure again (70_reset_and_hazards.md R270, R275). Safe. -/
  | resetMemFail (addr : Word) (after : State)
deriving DecidableEq, Repr

/-- The refusals. -/
inductive Refusal
  /-- An arm of `exec` whose instruction has no meaning yet. Safe: nothing is claimed of it. -/
  | notModelled (mnemonic : String)
  /-- Raised by `step` on a configuration that 20_memory.md R52 refuses. Safe: the spec gives it no meaning. -/
  | badConfiguration
deriving DecidableEq, Repr

/-- The machine right after reset (10_state.md R40): SR is 0, PC is the word at `RESET_VECTOR`, which is 0x0000 as no byte of memory is
written; SP and R4–R15 are `RESET_REGS`. DESIGN CHOICE (log entries 3, 4, 5), unsafe: `RESET_REGS` and unwritten memory are 0. -/
def State.reset : State where
  pc      := 0x0000#16
  sp      := defaultParams.resetSp
  sr      := 0x0000#16
  gp      := defaultParams.resetGp
  mem     := []
  params  := defaultParams
  watch   := []
  outcome := none
  faulted := none
  trace   := []
  draws   := 0

end Sys2Proof.Machine
end

