-- ==== Sys2Proof/Machine/Flags.lean ====
section
/-! DEFINITION. Width arithmetic, the ALU and the flag engine (spec 00_scope.md R11; 40_pipeline.md R144–R149; the operations of
41_fmt1.md and 42_fmt2.md). Values of either width are held in a word; a value of width 8 has bits 15:8 zero. -/

namespace Sys2Proof.Machine

/-! ### Widths (00_scope.md R11) -/

/-- The number of bits of a width. -/
def widthBits : Width → Nat
  | .byte => 8
  | .word => 16

/-- `mask(w) = 2^w − 1`. -/
def widthMask : Width → Word
  | .byte => 0x00FF#16
  | .word => 0xFFFF#16

/-- `msb(w) = 2^(w−1)`. -/
def widthMsb : Width → Word
  | .byte => 0x0080#16
  | .word => 0x8000#16

/-- `trunc_w(v)`. -/
def trunc (w : Width) (v : Word) : Word := v &&& widthMask w

/-- `neg_w(v)`: the sign at width w. -/
def isNeg (w : Width) (v : Word) : Bool := trunc w v &&& widthMsb w != 0#16

/-! ### Status bits (10_state.md R25) -/

/-- The four flags. -/
structure Flags where
  c : Bool
  z : Bool
  n : Bool
  v : Bool
deriving DecidableEq, Repr

def carryBit (sr : Word) : Bool := sr.getLsbD 0
def zeroBit (sr : Word) : Bool := sr.getLsbD 1
def negBit (sr : Word) : Bool := sr.getLsbD 2
def overflowBit (sr : Word) : Bool := sr.getLsbD 8

/-- The flags at their places in SR: C bit 0, Z bit 1, N bit 2, V bit 8 (40_pipeline.md R149). -/
def flagBits (f : Flags) : Word :=
  (if f.c then 0x0001#16 else 0#16) ||| (if f.z then 0x0002#16 else 0#16)
    ||| (if f.n then 0x0004#16 else 0#16) ||| (if f.v then 0x0100#16 else 0#16)

/-- The flag merge `(sr & ~0x0107) | flag bits` (40_pipeline.md R149). -/
def mergeFlags (sr : Word) (f : Flags) : Word := (sr &&& ~~~0x0107#16) ||| flagBits f

/-- An SR value holds a bit that an instruction may not set (40_pipeline.md R156). -/
def hasUnimplementedBits (p : Params) (v : Word) : Bool := v &&& ~~~p.srMask != 0#16

/-- An SR value holds a bit that no instruction leaves there, so that the host stored it: one outside `SR_WRITABLE_MASK` (R156) that is not a flag
(R149). -/
def hasHostBits (p : Params) (v : Word) : Bool := v &&& ~~~(p.srMask ||| 0x0107#16) != 0#16

/-! ### The ALU -/

/-- What Execute gives: the result at the operation width, the flags where the instruction defines them, and how many free values it drew. -/
structure AluOut where
  res   : Word
  flags : Option Flags := none
  draws : Nat := 0
deriving DecidableEq, Repr

/-- An operation of Execute: width, source, destination, C at the start of the step, and the number of free values drawn so far. -/
abbrev Alu := Width → Word → Word → Bool → Nat → AluOut

/-- `add_w(a, b, cin)` with its N and Z (40_pipeline.md R144, R145). -/
def addWithCarry (w : Width) (a b : Word) (cin : Bool) : AluOut :=
  let t := (trunc w a).toNat + (trunc w b).toNat + cin.toNat
  let res := trunc w (BitVec.ofNat 16 t)
  { res
    flags := some
      { c := decide ((widthMask w).toNat < t)
        z := res == 0#16
        n := isNeg w res
        v := isNeg w a == isNeg w b && isNeg w res != isNeg w a } }

/-- `~s & mask(w)` (40_pipeline.md R144). -/
def complement (w : Width) (v : Word) : Word := trunc w (~~~v)

/-- A result with N and Z of it, the alt carry `C <- not Z`, and a given V (40_pipeline.md R145, R146, R147). -/
def withAltCarry (w : Width) (res : Word) (v : Bool) : AluOut :=
  { res, flags := some { c := res != 0#16, z := res == 0#16, n := isNeg w res, v } }

/-- A shift's result with N and Z of it, the bit shifted out as C, and V 0 (40_pipeline.md R145, R146, R147). -/
def withShiftCarry (w : Width) (operand res : Word) : AluOut :=
  { res, flags := some { c := operand.getLsbD 0, z := res == 0#16, n := isNeg w res, v := false } }

/-- MOV (41_fmt1.md R171). -/
def aluMov : Alu := fun _ src _ _ _ => { res := src }

/-- ADD (41_fmt1.md R172). -/
def aluAdd : Alu := fun w src dst _ _ => addWithCarry w dst src false

/-- ADDC (41_fmt1.md R173). -/
def aluAddc : Alu := fun w src dst c _ => addWithCarry w dst src c

/-- SUBC (41_fmt1.md R174). -/
def aluSubc : Alu := fun w src dst c _ => addWithCarry w dst (complement w src) c

/-- SUB and CMP (41_fmt1.md R175, R176). -/
def aluSub : Alu := fun w src dst _ _ => addWithCarry w dst (complement w src) true

/-- BIT and AND (41_fmt1.md R178, R182). -/
def aluAnd : Alu := fun w src dst _ _ => withAltCarry w (trunc w (src &&& dst)) false

/-- BIC (41_fmt1.md R179). -/
def aluBic : Alu := fun w src dst _ _ => { res := trunc w (~~~src &&& dst) }

/-- BIS (41_fmt1.md R180). -/
def aluBis : Alu := fun w src dst _ _ => { res := trunc w (src ||| dst) }

/-- XOR (41_fmt1.md R181): V is both operands negative (40_pipeline.md R147). -/
def aluXor : Alu := fun w src dst _ _ => withAltCarry w (trunc w (src ^^^ dst)) (isNeg w src && isNeg w dst)

/-! ### Decimal addition (40_pipeline.md R148) -/

/-- The number of 4-bit digits of a width. -/
def digitCount : Width → Nat
  | .byte => 2
  | .word => 4

/-- Every one of the low `k` digits is 0 to 9. -/
def digitsValid : Nat → Nat → Bool
  | 0, _ => true
  | k + 1, v => v % 16 ≤ 9 && digitsValid k (v / 16)

/-- Digit-wise addition of the low `k` digits, low digit first: the sum's digits and the decimal carry. -/
def addDigits : Nat → Nat → Nat → Nat → Nat × Nat
  | 0, _, _, c => (0, c)
  | k + 1, a, b, c =>
    let t := a % 16 + b % 16 + c
    let rest := addDigits k (a / 16) (b / 16) (if 10 ≤ t then 1 else 0)
    ((if 10 ≤ t then t - 10 else t) % 16 + 16 * rest.1, rest.2)

/-- DADD (41_fmt1.md R177, 40_pipeline.md R148). V is a free value; with a digit above 9 the result, N, Z and C are free values too. Log
entry 6: the n-th draw of a run is `Config.freeWord n` or `Config.freeBit n`. -/
def aluDadd : Alu := fun w src dst c n =>
  if digitsValid (digitCount w) src.toNat && digitsValid (digitCount w) dst.toNat then
    let sum := addDigits (digitCount w) src.toNat dst.toNat c.toNat
    let res := BitVec.ofNat 16 sum.1
    { res
      flags := some { c := sum.2 != 0, z := res == 0#16, n := isNeg w res, v := Config.freeBit n }
      draws := 1 }
  else
    { res := trunc w (Config.freeWord n)
      flags := some
        { c := Config.freeBit (n + 1), z := Config.freeBit (n + 2), n := Config.freeBit (n + 3), v := Config.freeBit (n + 4) }
      draws := 5 }

/-! ### One-operand operations: the operand is the source -/

/-- RRC (42_fmt2.md R191). -/
def aluRrc : Alu := fun w op _ c _ =>
  withShiftCarry w op ((if c then widthMsb w else 0#16) ||| (op >>> 1))

/-- RRA (42_fmt2.md R193): the sign bit is kept. -/
def aluRra : Alu := fun w op _ _ _ => withShiftCarry w op ((op &&& widthMsb w) ||| (op >>> 1))

/-- SWPB (42_fmt2.md R192). -/
def aluSwpb : Alu := fun _ op _ _ _ => { res := lowByteWord op <<< 8 ||| op >>> 8 }
where
  /-- `op[7:0]` as a word. -/
  lowByteWord (op : Word) : Word := op &&& 0x00FF#16

/-- SXT (42_fmt2.md R194): sign extension of bits 7:0 to a word. -/
def aluSxt : Alu := fun w op _ _ _ => withAltCarry w ((op.extractLsb' 0 8).signExtend 16) false

/-! ### Jump conditions (43_jump.md R211–R218) -/

def condNe (sr : Word) : Bool := !zeroBit sr
def condEq (sr : Word) : Bool := zeroBit sr
def condNc (sr : Word) : Bool := !carryBit sr
def condC (sr : Word) : Bool := carryBit sr
def condN (sr : Word) : Bool := negBit sr
def condGe (sr : Word) : Bool := negBit sr == overflowBit sr
def condL (sr : Word) : Bool := negBit sr != overflowBit sr
def condAlways (_ : Word) : Bool := true

/-- `pc_start + 2 + 2 × sext_10(offset)` modulo 2^16 (43_jump.md R210). -/
def jumpTarget (pcStart : Word) (offset : BitVec 10) : Word := pcStart + 2#16 + 2#16 * offset.signExtend 16

end Sys2Proof.Machine
end

