-- ==== Sys2Proof/WellFormed.lean ====
section
/-! DEFINITION. Which instructions are well formed: the field assignments that a descriptor accepts
(spec 30_encoding.md R104), that is, those no more specific descriptor claims. -/

namespace Sys2Proof

/-- A source operand whose register field its mode accepts (R104): REG excludes R3, IDX and INC exclude R0, R2
and R3, IND excludes R2 and R3; the specialised modes have no register field. -/
def Src.wellFormed : Src → Bool
  | .reg r => r != .cg
  | .idx r => r != .pc && r != .sr && r != .cg
  | .ind r => r != .sr && r != .cg
  | .inc r => r != .pc && r != .sr && r != .cg
  | .sym | .abs | .imm | .cg0 | .cg1 | .cg2 | .cgm1 | .cg4 | .cg8 => true

/-- A destination operand whose register field its mode accepts (R104): REG accepts every register, IDX
excludes R0 (SYM) and R2 (ABS) and accepts R3, which faults when executed (R89). -/
def Dst.wellFormed : Dst → Bool
  | .idx r => r != .pc && r != .sr
  | .reg _ | .sym | .abs => true

/-- A well-formed instruction: its operands are accepted (R104). Offsets and stub bits take every value. -/
def Instr.wellFormed : Instr → Bool
  | .mov _ src dst | .add _ src dst | .addc _ src dst | .subc _ src dst | .sub _ src dst | .cmp _ src dst
  | .dadd _ src dst | .bit _ src dst | .bic _ src dst | .bis _ src dst | .xor _ src dst | .and _ src dst =>
    src.wellFormed && dst.wellFormed
  | .rrc _ src | .rra _ src | .push _ src => src.wellFormed
  | .swpb src | .sxt src | .call src => src.wellFormed
  | .reti => true
  | .jne _ | .jeq _ | .jnc _ | .jc _ | .jn _ | .jge _ | .jl _ | .jmp _ => true
  | .ext _ | .pushmA _ | .pushmW _ | .popmA _ | .popmW _ => true
  | .rrcm _ _ _ | .rram _ _ _ | .rlam _ _ _ | .rrum _ _ _ => true

end Sys2Proof
end

