-- ==== Sys2Proof/Decode.lean ====
section
/-! DEFINITION. From an opcode word to an instruction, total and rejecting by name, and back (spec 30_encoding.md
R80–R94, R101–R109). The decoder reads the fields directly; Machine/Catalog.lean holds the catalog and the trie that the
spec decodes with. Log entry 14. -/

namespace Sys2Proof

/-- `w[hi:lo]`, the unsigned value of bits `hi` down to `lo` (00_scope.md R10). -/
def bits (w : Word) (hi lo : Nat) : Nat := w.toNat / 2 ^ lo % 2 ^ (hi + 1 - lo)

/-- The register a 4-bit register field names (R94, 10_state.md R21). -/
def Reg.ofNum : Nat → Reg
  | 0 => .pc
  | 1 => .sp
  | 2 => .sr
  | 3 => .cg
  | n + 4 => .gp (Fin.ofNat 12 n)

/-- The number of a register. -/
def Reg.num : Reg → Nat
  | .pc => 0
  | .sp => 1
  | .sr => 2
  | .cg => 3
  | .gp n => n.val + 4

/-- The source mode that (`as`, register) selects (R88). -/
def Src.ofFields : Nat → Nat → Src
  | 0, 3 => .cg0
  | 0, r => .reg (Reg.ofNum r)
  | 1, 0 => .sym
  | 1, 2 => .abs
  | 1, 3 => .cg1
  | 1, r => .idx (Reg.ofNum r)
  | 2, 2 => .cg4
  | 2, 3 => .cg2
  | 2, r => .ind (Reg.ofNum r)
  | _, 0 => .imm
  | _, 2 => .cg8
  | _, 3 => .cgm1
  | _, r => .inc (Reg.ofNum r)

/-- The destination mode that (`ad`, `rd`) selects (R89). -/
def Dst.ofFields : Nat → Nat → Dst
  | 0, r => .reg (Reg.ofNum r)
  | _, 0 => .sym
  | _, 2 => .abs
  | _, r => .idx (Reg.ofNum r)

/-- The width that `bw` selects (R111: `bw = 1` is byte). -/
def Width.ofBw : Nat → Width
  | 0 => .word
  | _ => .byte

/-- Why a word matches no descriptor: the three classes of R105, and bytes that hold no whole word. -/
inductive NoMatch
  | lowSpace       -- R105 (a): 0x0000–0x0FFF outside the rotate-multiple pattern
  | byteForm       -- R105 (b): the byte forms of SWPB, SXT and CALL
  | retiSpace      -- R105 (c): 0x1301–0x13FF
  | truncated      -- fewer than two bytes were given
deriving DecidableEq, Repr

/-- What decoding a word gives (R101): an instruction, or "no match" with its class. -/
inductive Decoded
  | instr (i : Instr)
  | noMatch (why : NoMatch)
deriving DecidableEq, Repr

/-- fmt1 (R82, R85). -/
def decodeFmt1 (w : Word) : Instr :=
  let bw := Width.ofBw (bits w 6 6)
  let src := Src.ofFields (bits w 5 4) (bits w 11 8)
  let dst := Dst.ofFields (bits w 7 7) (bits w 3 0)
  match bits w 15 12 with
  | 4 => .mov bw src dst
  | 5 => .add bw src dst
  | 6 => .addc bw src dst
  | 7 => .subc bw src dst
  | 8 => .sub bw src dst
  | 9 => .cmp bw src dst
  | 10 => .dadd bw src dst
  | 11 => .bit bw src dst
  | 12 => .bic bw src dst
  | 13 => .bis bw src dst
  | 14 => .xor bw src dst
  | _ => .and bw src dst

/-- fmt2 (R83, R86): SWPB, SXT and CALL exist with `bw = 0` only, RETI is the one word 0x1300. -/
def decodeFmt2 (w : Word) : Decoded :=
  let bw := Width.ofBw (bits w 6 6)
  let src := Src.ofFields (bits w 5 4) (bits w 3 0)
  match bits w 9 7 with
  | 0 => .instr (.rrc bw src)
  | 1 => if bw = .byte then .noMatch .byteForm else .instr (.swpb src)
  | 2 => .instr (.rra bw src)
  | 3 => if bw = .byte then .noMatch .byteForm else .instr (.sxt src)
  | 4 => .instr (.push bw src)
  | 5 => if bw = .byte then .noMatch .byteForm else .instr (.call src)
  | 6 => if bits w 6 0 = 0 then .instr .reti else .noMatch .retiSpace
  | _ => .noMatch .retiSpace

/-- jump (R84, R87). -/
def decodeJump (w : Word) : Instr :=
  let off := BitVec.ofNat 10 (bits w 9 0)
  match bits w 12 10 with
  | 0 => .jne off
  | 1 => .jeq off
  | 2 => .jnc off
  | 3 => .jc off
  | 4 => .jn off
  | 5 => .jge off
  | 6 => .jl off
  | _ => .jmp off

/-- PUSHM and POPM (44_unsupported.md R232, R233). -/
def decodeMultiple (w : Word) : Instr :=
  let x := BitVec.ofNat 8 (bits w 7 0)
  match bits w 9 8 with
  | 0 => .pushmA x
  | 1 => .pushmW x
  | 2 => .popmA x
  | _ => .popmW x

/-- The rotate-multiple pattern `0000 nn kk 010 a rrrr` (44_unsupported.md R234); the rest of 0x0000–0x0FFF matches
nothing (R105). -/
def decodeRotate (w : Word) : Decoded :=
  let n := BitVec.ofNat 2 (bits w 11 10)
  let aw := BitVec.ofNat 1 (bits w 4 4)
  let r := BitVec.ofNat 4 (bits w 3 0)
  if bits w 7 5 = 2 then
    match bits w 9 8 with
    | 0 => .instr (.rrcm n aw r)
    | 1 => .instr (.rram n aw r)
    | 2 => .instr (.rlam n aw r)
    | _ => .instr (.rrum n aw r)
  else .noMatch .lowSpace

/-- Decode of a 16-bit word (R101): it reads nothing but the word. -/
def decodeWord (w : Word) : Decoded :=
  match bits w 15 12 with
  | 0 => decodeRotate w
  | 1 =>
    if bits w 11 11 = 1 then .instr (.ext (BitVec.ofNat 11 (bits w 10 0)))   -- EXT (44_unsupported.md R231)
    else if bits w 10 10 = 1 then .instr (decodeMultiple w)
    else decodeFmt2 w
  | 2 => .instr (decodeJump w)
  | 3 => .instr (decodeJump w)
  | _ => .instr (decodeFmt1 w)

/-- A word from its two bytes, low byte first (20_memory.md R57). -/
def wordOfBytes (lo hi : Byte) : Word := hi ++ lo

/-- Decode from bytes as memory holds them (R80): the opcode word's two bytes, low byte first, with the bytes after it given
back. -/
def decodeBytes : List Byte → Decoded × List Byte
  | lo :: hi :: rest => (decodeWord (wordOfBytes lo hi), rest)
  | rest => (.noMatch .truncated, rest)

/-! ### The encoder (R82–R92, R104) -/

/-- `bw` of a width. -/
def Width.bw : Width → Nat
  | .word => 0
  | .byte => 1

/-- The `as` bits of a source mode (R91). -/
def Src.asBits : Src → Nat
  | .reg _ | .cg0 => 0
  | .idx _ | .sym | .abs | .cg1 => 1
  | .ind _ | .cg4 | .cg2 => 2
  | .inc _ | .imm | .cg8 | .cgm1 => 3

/-- The register field of a source mode (R91). -/
def Src.regField : Src → Nat
  | .reg r | .idx r | .ind r | .inc r => r.num
  | .sym | .imm => 0
  | .abs | .cg4 | .cg8 => 2
  | .cg0 | .cg1 | .cg2 | .cgm1 => 3

/-- The `ad` bit of a destination mode (R92). -/
def Dst.adBit : Dst → Nat
  | .reg _ => 0
  | .idx _ | .sym | .abs => 1

/-- The `rd` field of a destination mode (R92). -/
def Dst.regField : Dst → Nat
  | .reg r | .idx r => r.num
  | .sym => 0
  | .abs => 2

/-- `oooo ssss a b AA dddd` (R82). -/
def fmt1Word (opcode : Nat) (w : Width) (src : Src) (dst : Dst) : Word :=
  BitVec.ofNat 16
    (opcode * 4096 + src.regField * 256 + dst.adBit * 128 + w.bw * 64 + src.asBits * 16 + dst.regField)

/-- `000100 ooo b AA rrrr` (R83). -/
def fmt2Word (op2 : Nat) (w : Width) (src : Src) : Word :=
  BitVec.ofNat 16 (0x1000 + op2 * 128 + w.bw * 64 + src.asBits * 16 + src.regField)

/-- `001 ccc ffffffffff` (R84). -/
def jumpWord (cond : Nat) (offset : BitVec 10) : Word :=
  BitVec.ofNat 16 (0x2000 + cond * 1024 + offset.toNat)

/-- `0000 nn kk 010 a rrrr` (44_unsupported.md R234). -/
def rotateWord (kk : Nat) (n : BitVec 2) (aw : BitVec 1) (r : BitVec 4) : Word :=
  BitVec.ofNat 16 (n.toNat * 1024 + kk * 256 + 0x40 + aw.toNat * 16 + r.toNat)

/-- The opcode word of an instruction (R104 `encode`). -/
def Instr.opcodeWord : Instr → Word
  | .mov w src dst => fmt1Word 0x4 w src dst
  | .add w src dst => fmt1Word 0x5 w src dst
  | .addc w src dst => fmt1Word 0x6 w src dst
  | .subc w src dst => fmt1Word 0x7 w src dst
  | .sub w src dst => fmt1Word 0x8 w src dst
  | .cmp w src dst => fmt1Word 0x9 w src dst
  | .dadd w src dst => fmt1Word 0xA w src dst
  | .bit w src dst => fmt1Word 0xB w src dst
  | .bic w src dst => fmt1Word 0xC w src dst
  | .bis w src dst => fmt1Word 0xD w src dst
  | .xor w src dst => fmt1Word 0xE w src dst
  | .and w src dst => fmt1Word 0xF w src dst
  | .rrc w src => fmt2Word 0 w src
  | .swpb src => fmt2Word 1 .word src
  | .rra w src => fmt2Word 2 w src
  | .sxt src => fmt2Word 3 .word src
  | .push w src => fmt2Word 4 w src
  | .call src => fmt2Word 5 .word src
  | .reti => 0x1300#16
  | .jne off => jumpWord 0 off
  | .jeq off => jumpWord 1 off
  | .jnc off => jumpWord 2 off
  | .jc off => jumpWord 3 off
  | .jn off => jumpWord 4 off
  | .jge off => jumpWord 5 off
  | .jl off => jumpWord 6 off
  | .jmp off => jumpWord 7 off
  | .ext x => BitVec.ofNat 16 (0x1800 + x.toNat)
  | .pushmA x => BitVec.ofNat 16 (0x1400 + x.toNat)
  | .pushmW x => BitVec.ofNat 16 (0x1500 + x.toNat)
  | .popmA x => BitVec.ofNat 16 (0x1600 + x.toNat)
  | .popmW x => BitVec.ofNat 16 (0x1700 + x.toNat)
  | .rrcm n aw r => rotateWord 0 n aw r
  | .rram n aw r => rotateWord 1 n aw r
  | .rlam n aw r => rotateWord 2 n aw r
  | .rrum n aw r => rotateWord 3 n aw r

/-- The low and the high byte of a word (20_memory.md R57). -/
def lowByte (w : Word) : Byte := w.extractLsb' 0 8
def highByte (w : Word) : Byte := w.extractLsb' 8 8

/-- The bytes of a word as memory holds it, low byte first (R80). -/
def bytesOfWord (w : Word) : List Byte := [lowByte w, highByte w]

/-- The encoding of an instruction: its opcode word, low byte first. -/
def encode (i : Instr) : List Byte := bytesOfWord i.opcodeWord

/-! ### Length (R93, R109) -/

/-- Extension words of a source mode (R91): one for IDX, SYM, ABS and IMM. -/
def Src.extWords : Src → Nat
  | .idx _ | .sym | .abs | .imm => 1
  | .reg _ | .ind _ | .inc _ | .cg0 | .cg1 | .cg2 | .cgm1 | .cg4 | .cg8 => 0

/-- Extension words of a destination mode (R92): one for IDX, SYM and ABS. -/
def Dst.extWords : Dst → Nat
  | .idx _ | .sym | .abs => 1
  | .reg _ => 0

/-- `length = 2 × (1 + ext(smode) + ext(dmode))` bytes (R93). -/
def fmt1Length (src : Src) (dst : Dst) : Nat := 2 * (1 + src.extWords + dst.extWords)

/-- The length of a one-operand instruction in bytes (R93). -/
def fmt2Length (src : Src) : Nat := 2 * (1 + src.extWords)

/-- The length of an instruction in bytes; stubs have none (R109). -/
def Instr.length : Instr → Option Nat
  | .mov _ src dst | .add _ src dst | .addc _ src dst | .subc _ src dst | .sub _ src dst | .cmp _ src dst
  | .dadd _ src dst | .bit _ src dst | .bic _ src dst | .bis _ src dst | .xor _ src dst | .and _ src dst =>
    some (fmt1Length src dst)
  | .rrc _ src | .rra _ src | .push _ src => some (fmt2Length src)
  | .swpb src | .sxt src | .call src => some (fmt2Length src)
  | .reti => some 2
  | .jne _ | .jeq _ | .jnc _ | .jc _ | .jn _ | .jge _ | .jl _ | .jmp _ => some 2
  | .ext _ | .pushmA _ | .pushmW _ | .popmA _ | .popmW _ => none
  | .rrcm _ _ _ | .rram _ _ _ | .rlam _ _ _ | .rrum _ _ _ => none

/-! ### The host's question about the opcode table -/

/-- The instruction this decoder reads from an instruction whose bits are `w`, of which the table gives `nbits` and every
further bit is 0: the first word, laid out low byte first. -/
def decodeTableWord (nbits w : Nat) : Option Instr :=
  match (decodeBytes (bytesOfWord (BitVec.ofNat 16 (w % 2 ^ nbits)))).1 with
  | .instr i => some i
  | .noMatch _ => none

end Sys2Proof
end

