-- ==== Sys2Proof/Machine/Ops.lean ====
section
/-! DEFINITION. The named operations over registers, memory and the trace, the raising of a fault, and the retirement of a step
(spec 10_state.md R22, R28, R29; 20_memory.md R53–R58, R71; 40_pipeline.md R153–R158; 60_exceptions.md R247–R249). -/

namespace Sys2Proof.Machine

/-! ### Results of a routine -/

/-- A condition that ends a step with a fault (00_scope.md R12 `raise`). -/
inductive Raise
  | unknown (reason : Reason)
  | memFail (addr : Word)
deriving DecidableEq, Repr

/-- What a routine gives: a value and the state after it, or a raise and the state it leaves (60_exceptions.md R249: writes already made
stay made). -/
inductive Res (α : Type) where
  | ok (a : α) (s : State)
  | raise (e : Raise) (s : State)

/-- Run a second routine after a first that did not raise. -/
def Res.andThen {α β : Type} (r : Res α) (f : α → State → Res β) : Res β :=
  match r with
  | .ok a s => f a s
  | .raise e s => .raise e s

/-! ### The trace -/

/-- Append an entry to the I/O trace, in the order performed (20_memory.md R71). -/
def State.note (s : State) (e : TraceEntry) : State := { s with trace := s.trace ++ [e] }

/-! ### Registers -/

/-- `x[r]` (10_state.md R22): R3 reads 0 (R29). -/
def State.readReg (s : State) : Reg → Word
  | .pc => s.pc
  | .sp => s.sp
  | .sr => s.sr
  | .cg => 0x0000#16
  | .gp n => s.gp[n.val]

/-- `x[r] <- v` (10_state.md R28): a write to R3 is discarded (R29). -/
def State.setReg (s : State) (r : Reg) (v : Word) : State :=
  match r with
  | .pc => { s with pc := v }
  | .sp => { s with sp := v }
  | .sr => { s with sr := v }
  | .cg => s
  | .gp n => { s with gp := s.gp.set n.val v }

/-- A register write by an instruction, traced unless discarded (40_pipeline.md R151, 20_memory.md R71). -/
def writeReg (r : Reg) (v : Word) (s : State) : State :=
  match r with
  | .cg => s
  | .pc | .sp | .sr | .gp _ => (s.setReg r v).note (.regWrite r v)

/-- A value is odd. -/
def isOdd (v : Word) : Bool := v.toNat % 2 == 1

/-- An SP write by an instruction (40_pipeline.md R154): an odd value raises `OddSP`. -/
def writeSp (v : Word) (s : State) : Res Unit :=
  if isOdd v then .raise (.unknown .oddSP) s else .ok () (writeReg .sp v s)

/-! ### Memory: classification -/

/-- What a byte address is (20_memory.md R53). -/
inductive CellKind
  | ram
  | nvm
  | registered (h : MmioHandler)
  | default
  | unmapped
deriving DecidableEq, Repr

/-- The handler registered at an address, if any. -/
def findHandler (p : Params) (a : Nat) : Option MmioHandler := p.handlers.find? (fun h => h.addr.toNat == a)

/-- Classification of a byte address, in the order of 20_memory.md R53. -/
def classify (p : Params) (a : Nat) : CellKind :=
  if inRam p a then .ram
  else if inNvm p a then .nvm
  else
    match findHandler p a with
    | some h => .registered h
    | none =>
      match p.policy with
      | .default => .default
      | .fail => .unmapped

/-- A byte address is served by something. -/
def isMapped (p : Params) (a : Word) : Bool := classify p a.toNat != .unmapped

/-- What a RAM or NVM byte that nothing has written holds. DESIGN CHOICE (log entry 4), unsafe: the spec leaves it a draw. -/
def unwrittenByte : Byte := 0x00#8

/-- What an unlisted address holds: `unwrittenByte` in RAM and NVM, a cell's initial byte in MMIO (20_memory.md R54). -/
def initialByte (p : Params) (a : Nat) : Byte :=
  match classify p a with
  | .ram | .nvm | .unmapped => unwrittenByte
  | .registered h => h.init
  | .default => p.mmioDefault

/-- The byte a cell returns for its stored byte (20_memory.md R54, R55). -/
def readThrough (p : Params) (a : Nat) (stored : Byte) : Byte :=
  match classify p a with
  | .registered h => h.read[stored.toNat]
  | .ram | .nvm | .default | .unmapped => stored

/-- The byte a cell stores for an incoming byte (20_memory.md R54, R56). -/
def writeThrough (p : Params) (a : Nat) (incoming : Byte) : Byte :=
  match classify p a with
  | .registered h => h.write[incoming.toNat]
  | .ram | .nvm | .default | .unmapped => incoming

/-! ### Memory: the list of cells -/

/-- The listed byte at an address. -/
def lookupCell (a : Nat) : Memory → Option Byte
  | [] => none
  | (k, v) :: t => if k = a then some v else lookupCell a t

/-- List a byte at `a`, in place of the one listed there, at its place in the order. -/
def insertCell (a : Nat) (b : Byte) : Memory → Memory
  | [] => [(a, b)]
  | (k, v) :: t =>
    if a < k then (a, b) :: (k, v) :: t
    else if a = k then (a, b) :: t
    else (k, v) :: insertCell a b t

/-- List no byte at `a`. -/
def removeCell (a : Nat) (m : Memory) : Memory := m.filter fun c => c.1 != a

/-- Set the byte at `a` to `b` and keep the canonical form: a byte equal to `init`, what an unlisted `a` holds, is not listed. -/
def setCell (init : Byte) (a : Nat) (b : Byte) (m : Memory) : Memory :=
  if b = init then removeCell a m else insertCell a b m

/-- Addresses strictly rise from above `lo`. -/
def Memory.rising : Option Nat → Memory → Bool
  | _, [] => true
  | lo, (k, _) :: t =>
    (match lo with
      | none => true
      | some l => l < k) && Memory.rising (some k) t

/-- The canonical form of memory: addresses strictly rise, each lies in the address space, and no entry equals what its address holds when
unlisted. -/
def Memory.wf (p : Params) (m : Memory) : Bool :=
  Memory.rising none m && m.all (fun c => c.1 < 0x10000 && c.2 != initialByte p c.1)

/-- The stored byte at an address. -/
def State.storedByte (s : State) (a : Word) : Byte :=
  (lookupCell a.toNat s.mem).getD (initialByte s.params a.toNat)

/-- `ByteRead(a)` (20_memory.md R55): none where `MemFail(a)` is raised. -/
def byteRead (s : State) (a : Word) : Option Byte :=
  if isMapped s.params a then some (readThrough s.params a.toNat (s.storedByte a)) else none

/-- Store an incoming byte at a mapped address (20_memory.md R54, R56). -/
def State.putByte (s : State) (a : Word) (b : Byte) : State :=
  { s with mem := setCell (initialByte s.params a.toNat) a.toNat (writeThrough s.params a.toNat b) s.mem }

/-- `ByteWrite(a, b)` (20_memory.md R56): none where `MemFail(a)` is raised. -/
def byteWrite (s : State) (a : Word) (b : Byte) : Option State :=
  if isMapped s.params a then some (s.putByte a b) else none

/-! ### Memory: accesses of either width -/

/-- `MemRead(a, n)` before it is traced (20_memory.md R57, R58): a word at an odd address raises `MisalignedWord` before any byte is
read; an unmapped byte raises `MemFail`, lower address first. -/
def loadValue (s : State) (w : Width) (a : Word) : Except Raise Word :=
  match w with
  | .byte =>
    match byteRead s a with
    | some b => .ok (b.setWidth 16)
    | none => .error (.memFail a)
  | .word =>
    if isOdd a then .error (.unknown .misalignedWord)
    else
      match byteRead s a with
      | none => .error (.memFail a)
      | some lo =>
        match byteRead s (a + 1#16) with
        | none => .error (.memFail (a + 1#16))
        | some hi => .ok (wordOfBytes lo hi)

/-- A data read, traced (20_memory.md R57, R71). -/
def memRead (w : Width) (a : Word) (s : State) : Res Word :=
  match loadValue s w a with
  | .ok v => .ok v (s.note (.memRead a w v))
  | .error e => .raise e s

/-- An instruction word fetched, traced (20_memory.md R59, R71). -/
def fetchWord (a : Word) (s : State) : Res Word :=
  match loadValue s .word a with
  | .ok v => .ok v (s.note (.fetch a v))
  | .error e => .raise e s

/-- `MemWrite(a, n, v)` before it is traced (20_memory.md R57, R58): every byte is classified before any is written, so a write that raises
writes nothing. -/
def storeValue (s : State) (w : Width) (a v : Word) : Except Raise State :=
  match w with
  | .byte => if isMapped s.params a then .ok (s.putByte a (lowByte v)) else .error (.memFail a)
  | .word =>
    if isOdd a then .error (.unknown .misalignedWord)
    else if !isMapped s.params a then .error (.memFail a)
    else if !isMapped s.params (a + 1#16) then .error (.memFail (a + 1#16))
    else .ok ((s.putByte a (lowByte v)).putByte (a + 1#16) (highByte v))

/-- A data write, traced (20_memory.md R57, R71). -/
def memWrite (w : Width) (a v : Word) (s : State) : Res Unit :=
  match storeValue s w a v with
  | .ok t => .ok () (t.note (.memWrite a w v))
  | .error e => .raise e s

/-! ### Faults (60_exceptions.md R241–R249) -/

/-- The record of a raise in the step of the instruction with this opcode word at this address (R242, R244). -/
def Raise.report (word : Option Word) (pcStart : Word) : Raise → FaultReport
  | .unknown reason => .unknownBehavior reason word pcStart
  | .memFail addr => .memFail addr word pcStart

/-- The fault that reports a record and leaves a state. -/
def FaultReport.toFault (after : State) : FaultReport → Fault
  | .decodeFailure word pcStart => .decodeFailure word pcStart after
  | .unknownBehavior reason word pcStart => .unknownBehavior reason word pcStart after
  | .memFail addr word pcStart => .memFail addr word pcStart after
  | .resetMemFail addr => .resetMemFail addr after

/-- The state a fault carries with it (R249). -/
def Fault.after : Fault → State
  | .decodeFailure _ _ s => s
  | .unknownBehavior _ _ _ s => s
  | .memFail _ _ _ s => s
  | .resetMemFail _ s => s

/-- The record a fault reports. -/
def Fault.report : Fault → FaultReport
  | .decodeFailure word pcStart _ => .decodeFailure word pcStart
  | .unknownBehavior reason word pcStart _ => .unknownBehavior reason word pcStart
  | .memFail addr word pcStart _ => .memFail addr word pcStart
  | .resetMemFail addr _ => .resetMemFail addr

/-- The state a fault leaves (R249): the step's earlier writes as made, the record as the step's outcome, the mark set. PC is still
`pc_start`, because the PC write comes after every check that can raise. -/
def State.markFaulted (s : State) (report : FaultReport) : State :=
  { s with outcome := some (.fault report), faulted := some report }

/-- Taking a fault, the one way every fault of a step is taken. There is no trap entry (R248): nothing is saved or pushed and control does
not move; the record goes to the host and the core is marked faulted. -/
def takeFault (report : FaultReport) (s : State) : Fault := report.toFault (s.markFaulted report)

/-- A step of a faulted core is refused: it reports the same fault again and changes nothing (70_reset_and_hazards.md R275). -/
def reportAgain (report : FaultReport) (s : State) : Fault := report.toFault s

/-! ### The start and the end of a step -/

/-- The start of an instruction's step: the trace is emptied and holds the opcode fetch (40_pipeline.md R121; log entry 13). -/
def startStep (i : Instr) (s : State) : State := { s with trace := [.fetch s.pc i.opcodeWord] }

/-- The address of a byte of an access is in a watched range. -/
def isWatched (ranges : List (Nat × Nat)) (a : Word) : Bool := ranges.any (fun r => r.1 ≤ a.toNat && a.toNat < r.2)

/-- A trace entry is a write of a watched byte (60_exceptions.md R247). -/
def hitsWatch (ranges : List (Nat × Nat)) : TraceEntry → Bool
  | .memWrite a .byte _ => isWatched ranges a
  | .memWrite a .word _ => isWatched ranges a || isWatched ranges (a + 1#16)
  | .fetch _ _ | .memRead _ _ _ | .regRead _ _ | .regWrite _ _ => false

/-- Retirement (40_pipeline.md R158): `Breakpoint` if this step wrote a watched byte, else `Retired`. -/
def retire (cgShortcut : Bool) (s : State) : State :=
  { s with outcome := some (if s.trace.any (hitsWatch s.watch) then .breakpoint cgShortcut else .retired cgShortcut) }

/-- The end of an instruction's step: retirement, or the fault its routine raised. The routine gives the flag `cg_shortcut`. -/
def finishStep (i : Instr) (pcStart : Word) (r : Res Bool) : Host.Outcome State Fault Refusal :=
  match r with
  | .ok cg s => .next (retire cg s)
  | .raise e s => .fault (takeFault (e.report (some i.opcodeWord) pcStart) s)

end Sys2Proof.Machine
end

