-- ==== Sys2Proof/Machine/Operands.lean ====
section
/-! DEFINITION. The addressing-mode resolver and Write-Back (spec 40_pipeline.md R125–R143, R150–R157): every source form, every
destination form, the write of a result to its location, and the final PC and flag merge. -/

namespace Sys2Proof.Machine

/-- The part of the operand field set (10_state.md R36) that the routines of one step share: the address after the whole instruction, the
operation width, and whether the opcode is PUSH or CALL, which have their own X(SP) and @Rn+ routines (R131, R136). -/
structure Ctx where
  pcNext : Word
  width  : Width
  stack  : Bool
deriving DecidableEq, Repr

/-- The shared fields of an fmt1 step (R124). -/
def fmt1Ctx (s : State) (w : Width) (src : Src) (dst : Dst) : Ctx :=
  { pcNext := s.pc + BitVec.ofNat 16 (fmt1Length src dst), width := w, stack := false }

/-- The shared fields of an fmt2 step with an operand (R124). -/
def fmt2Ctx (s : State) (w : Width) (src : Src) (stack : Bool) : Ctx :=
  { pcNext := s.pc + BitVec.ofNat 16 (fmt2Length src), width := w, stack }

/-- Where an operand lies: nowhere (a constant or an immediate), in a register, or in memory at an effective address (R143). -/
inductive Loc
  | none
  | reg (r : Reg)
  | mem (ea : Word)
deriving DecidableEq, Repr

/-- What a source routine gives: the value at the operation width, its location, and the cursor after its extension word. -/
structure SrcOut where
  value  : Word
  loc    : Loc
  cursor : Word
deriving DecidableEq, Repr

/-! ### Source routines (R128–R137) -/

/-- The constant of a constant-generator mode (30_encoding.md R90), before truncation. -/
def constantOf : Src → Option Word
  | .cg0 => some 0x0000#16
  | .cg1 => some 0x0001#16
  | .cg2 => some 0x0002#16
  | .cg4 => some 0x0004#16
  | .cg8 => some 0x0008#16
  | .cgm1 => some 0xFFFF#16
  | .reg _ | .idx _ | .sym | .abs | .ind _ | .inc _ | .imm => none

/-- The source is a constant-generator mode: the flag `cg_shortcut` (R129, R160). -/
def isConstant (src : Src) : Bool := (constantOf src).isSome

/-- The value of a register as a REG operand: R0 gives the address after the whole instruction (R128, R138). -/
def operandReg (ctx : Ctx) (s : State) (r : Reg) : Word := if r = .pc then ctx.pcNext else s.readReg r

/-- The read of a REG operand, as a source (R128) or as a destination (R138). An SR into which the host stored an unimplemented bit faults here, where an
instruction uses it (70_reset_and_hazards.md R278), so that no instruction reads a 1 in an unimplemented bit (10_state.md R25). DEDUCED (log entry 21): this
read is the use, and the reason is `SRUnimplementedBits`. DEDUCED (log entry 9): the trace holds the whole register in byte width too. -/
def readOperandReg (ctx : Ctx) (r : Reg) (s : State) : Res Word :=
  if r = .sr ∧ hasHostBits s.params s.sr then .raise (.unknown .srUnimplementedBits) s
  else .ok (trunc ctx.width (operandReg ctx s r)) (s.note (.regRead r (operandReg ctx s r)))

/-- The base of `X(Rn)`: under PUSH and CALL, SP counts as already decremented (R130, R131). -/
def indexBase (ctx : Ctx) (s : State) (r : Reg) : Word :=
  if ctx.stack && r = .sp then s.sp - 2#16 else s.readReg r

/-- The increment of `@Rn+` (R135): 2 for a word operation or for SP, else 1. -/
def incAmount (w : Width) (r : Reg) : Word := if w = .word ∨ r = .sp then 2#16 else 1#16

/-- PUSH and CALL leave out the increment (R136). -/
def incSuppressed (ctx : Ctx) (p : Params) (r : Reg) : Bool :=
  ctx.stack && (p.incSuppress == .allRegs || r = .sp)

/-- The auto-increment of `@Rn+` (R135, R136). -/
def autoIncrement (ctx : Ctx) (r : Reg) (s : State) : Res Unit :=
  if incSuppressed ctx s.params r then .ok () s
  else
    let v := s.readReg r + incAmount ctx.width r
    if r = .sp then writeSp v s else .ok () (writeReg r v s)

/-- A source operand in memory at `ea`. -/
def sourceAt (ctx : Ctx) (ea cursor : Word) (s : State) : Res SrcOut :=
  (memRead ctx.width ea s).andThen fun v s => .ok { value := v, loc := .mem ea, cursor } s

/-- The source routines, one per mode (R128–R137). -/
def readSource (ctx : Ctx) (src : Src) (cursor : Word) (s : State) : Res SrcOut :=
  match src with
  | .reg r => (readOperandReg ctx r s).andThen fun v s => .ok { value := v, loc := .reg r, cursor } s
  | .idx r =>
    (fetchWord cursor s).andThen fun x s =>
      sourceAt ctx (indexBase ctx s r + x) (cursor + 2#16) (s.note (.regRead r (s.readReg r)))
  | .sym => (fetchWord cursor s).andThen fun x s => sourceAt ctx (cursor + x) (cursor + 2#16) s
  | .abs => (fetchWord cursor s).andThen fun x s => sourceAt ctx x (cursor + 2#16) s
  | .ind r =>
    if r = .pc then .raise (.unknown .indirectPC) s
    else sourceAt ctx (s.readReg r) cursor (s.note (.regRead r (s.readReg r)))
  | .inc r =>
    (sourceAt ctx (s.readReg r) cursor (s.note (.regRead r (s.readReg r)))).andThen fun out s =>
      (autoIncrement ctx r s).andThen fun _ s => .ok out s
  | .imm =>
    (fetchWord cursor s).andThen fun x s =>
      .ok { value := trunc ctx.width x, loc := .none, cursor := cursor + 2#16 } s
  | .cg0 | .cg1 | .cg2 | .cgm1 | .cg4 | .cg8 =>
    .ok { value := trunc ctx.width ((constantOf src).getD 0#16), loc := .none, cursor } s

/-! ### Destination routines (R138–R142) -/

/-- How an fmt1 opcode uses its destination (R142): MOV writes without reading, CMP and BIT read without writing. -/
inductive DstUse
  | write
  | readWrite
  | read
deriving DecidableEq, Repr

/-- The location of the destination, with its extension-word fetch (R138–R141). The base register is as the source routine left it. -/
def destLoc (dst : Dst) (cursor : Word) (s : State) : Res Loc :=
  match dst with
  | .reg r => .ok (.reg r) s
  | .idx r =>
    if r = .cg then .raise (.unknown .indexedR3Dest) s
    else
      (fetchWord cursor s).andThen fun x s =>
        .ok (.mem (s.readReg r + x)) (s.note (.regRead r (s.readReg r)))
  | .sym => (fetchWord cursor s).andThen fun x s => .ok (.mem (cursor + x)) s
  | .abs => (fetchWord cursor s).andThen fun x s => .ok (.mem x) s

/-- The destination value, where the opcode reads it (R138, R142); 0 stands for a value not read. -/
def destRead (ctx : Ctx) (use : DstUse) (loc : Loc) (s : State) : Res Word :=
  match use with
  | .write => .ok 0#16 s
  | .readWrite | .read =>
    match loc with
    | .none => .ok 0#16 s
    | .reg r => readOperandReg ctx r s
    | .mem ea => memRead ctx.width ea s

/-! ### Write-Back (R150–R157) -/

/-- What the destination write means for the rest of Write-Back: the value that becomes the final PC (R153), or that SR itself was written, so
that no flag merge follows (R155). -/
inductive Written
  | plain
  | pc (v : Word)
  | sr
deriving DecidableEq, Repr

/-- A value accepted as the next PC (R153): byte width first, then an odd value. -/
def checkPc (w : Width) (v : Word) (s : State) : Res Written :=
  if w = .byte then .raise (.unknown .bytePCWrite) s
  else if isOdd v then .raise (.unknown .oddPC) s
  else .ok (.pc v) s

/-- SR as a destination (R155, R156): byte width, then the opcode, then the bits. -/
def writeSr (m : Mnemonic) (w : Width) (v : Word) (s : State) : Res Written :=
  if w = .byte then .raise (.unknown .byteSRWrite) s
  else if !s.params.srSafe.contains m then .raise (.unknown .srUnsafeOpcode) s
  else if hasUnimplementedBits s.params v then .raise (.unknown .srUnimplementedBits) s
  else .ok .sr (writeReg .sr v s)

/-- The write of a result to its location (R151, R152). -/
def writeLoc (m : Mnemonic) (w : Width) (loc : Loc) (res : Word) (s : State) : Res Written :=
  match loc with
  | .none => .ok .plain s
  | .reg .pc => checkPc w res s
  | .reg .sp => (writeSp res s).andThen fun _ s => .ok .plain s
  | .reg .sr => writeSr m w res s
  | .reg .cg => .ok .plain s
  | .reg (.gp n) => .ok .plain (writeReg (.gp n) res s)
  | .mem ea => (memWrite w ea res s).andThen fun _ s => .ok .plain s

/-- The destination write of an fmt1 opcode, which CMP and BIT leave out (R142). -/
def destWrite (m : Mnemonic) (w : Width) (use : DstUse) (loc : Loc) (res : Word) (s : State) : Res Written :=
  match use with
  | .read => .ok .plain s
  | .write | .readWrite => writeLoc m w loc res s

/-- The final PC (R157). -/
def finalPc (pcNext : Word) : Written → Word
  | .pc v => v
  | .plain | .sr => pcNext

/-- The flag merge (R149), which is left out when SR itself was the destination (R155). -/
def mergeIntoSr (flags : Option Flags) (wr : Written) (s : State) : State :=
  match flags, wr with
  | some f, .plain | some f, .pc _ => writeReg .sr (mergeFlags s.sr f) s
  | some _, .sr | none, _ => s

/-- The end of Write-Back: the PC write, then the flag merge (R150). -/
def writeBack (pcNext : Word) (flags : Option Flags) (wr : Written) (s : State) : State :=
  mergeIntoSr flags wr (writeReg .pc (finalPc pcNext wr) s)

/-- The free values that Execute drew are used up. -/
def State.useDraws (s : State) (n : Nat) : State := { s with draws := s.draws + n }

end Sys2Proof.Machine
end

