-- ==== Sys2Proof/Machine/Fmt1.lean ====
section
/-! DEFINITION. The twelve two-operand instructions (spec 41_fmt1.md R170–R183). -/

namespace Sys2Proof.Machine

/-- The common behaviour of fmt1 (R170, 40_pipeline.md R127, R150): source routine, destination routine, operation, destination write, PC
write, flag merge. DEDUCED (log entry 9): the implicit read of C from SR by ADDC, SUBC and DADD is not traced. -/
def runFmt1 (i : Instr) (m : Mnemonic) (use : DstUse) (alu : Alu) (w : Width) (src : Src) (dst : Dst) (s : State) :
    Host.Outcome State Fault Refusal :=
  let ctx := fmt1Ctx s w src dst
  finishStep i s.pc <|
    (readSource ctx src (s.pc + 2#16) (startStep i s)).andThen fun a s1 =>
    (destLoc dst a.cursor s1).andThen fun loc s2 =>
    (destRead ctx use loc s2).andThen fun d s3 =>
    let out := alu w a.value d (carryBit s.sr) s.draws
    (destWrite m w use loc out.res (s3.useDraws out.draws)).andThen fun wr s4 =>
    .ok (isConstant src) (writeBack ctx.pcNext out.flags wr s4)

/-- MOV (R171). -/
def execMov (w : Width) (src : Src) (dst : Dst) (s : State) : Host.Outcome State Fault Refusal :=
  runFmt1 (.mov w src dst) .mov .write aluMov w src dst s

/-- ADD (R172). -/
def execAdd (w : Width) (src : Src) (dst : Dst) (s : State) : Host.Outcome State Fault Refusal :=
  runFmt1 (.add w src dst) .add .readWrite aluAdd w src dst s

/-- ADDC (R173). -/
def execAddc (w : Width) (src : Src) (dst : Dst) (s : State) : Host.Outcome State Fault Refusal :=
  runFmt1 (.addc w src dst) .addc .readWrite aluAddc w src dst s

/-- SUBC (R174). -/
def execSubc (w : Width) (src : Src) (dst : Dst) (s : State) : Host.Outcome State Fault Refusal :=
  runFmt1 (.subc w src dst) .subc .readWrite aluSubc w src dst s

/-- SUB (R175). -/
def execSub (w : Width) (src : Src) (dst : Dst) (s : State) : Host.Outcome State Fault Refusal :=
  runFmt1 (.sub w src dst) .sub .readWrite aluSub w src dst s

/-- CMP (R176): the result is discarded. -/
def execCmp (w : Width) (src : Src) (dst : Dst) (s : State) : Host.Outcome State Fault Refusal :=
  runFmt1 (.cmp w src dst) .cmp .read aluSub w src dst s

/-- DADD (R177). -/
def execDadd (w : Width) (src : Src) (dst : Dst) (s : State) : Host.Outcome State Fault Refusal :=
  runFmt1 (.dadd w src dst) .dadd .readWrite aluDadd w src dst s

/-- BIT (R178): the result is discarded. -/
def execBit (w : Width) (src : Src) (dst : Dst) (s : State) : Host.Outcome State Fault Refusal :=
  runFmt1 (.bit w src dst) .bit .read aluAnd w src dst s

/-- BIC (R179). -/
def execBic (w : Width) (src : Src) (dst : Dst) (s : State) : Host.Outcome State Fault Refusal :=
  runFmt1 (.bic w src dst) .bic .readWrite aluBic w src dst s

/-- BIS (R180). -/
def execBis (w : Width) (src : Src) (dst : Dst) (s : State) : Host.Outcome State Fault Refusal :=
  runFmt1 (.bis w src dst) .bis .readWrite aluBis w src dst s

/-- XOR (R181). -/
def execXor (w : Width) (src : Src) (dst : Dst) (s : State) : Host.Outcome State Fault Refusal :=
  runFmt1 (.xor w src dst) .xor .readWrite aluXor w src dst s

/-- AND (R182). -/
def execAnd (w : Width) (src : Src) (dst : Dst) (s : State) : Host.Outcome State Fault Refusal :=
  runFmt1 (.and w src dst) .and .readWrite aluAnd w src dst s

end Sys2Proof.Machine
end

