-- ==== Sys2Proof/Machine/Fmt2.lean ====
section
/-! DEFINITION. The seven one-operand instructions (spec 42_fmt2.md R190–R199). -/

namespace Sys2Proof.Machine

/-- RRC, SWPB, RRA and SXT have no location to write a constant or immediate operand back to (R198). -/
def hasNoLocation (src : Src) : Bool := isConstant src || src == .imm

/-- The common behaviour of the read-modify-write instructions RRC, SWPB, RRA and SXT (R190, R198, 40_pipeline.md R143). DEDUCED (log
entry 9): the implicit read of C from SR by RRC is not traced. -/
def runRmw (i : Instr) (m : Mnemonic) (alu : Alu) (w : Width) (src : Src) (s : State) : Host.Outcome State Fault Refusal :=
  let ctx := fmt2Ctx s w src false
  finishStep i s.pc <|
    if hasNoLocation src then .raise (.unknown .constantOperand) (startStep i s)
    else
      (readSource ctx src (s.pc + 2#16) (startStep i s)).andThen fun a s1 =>
      let out := alu w a.value 0#16 (carryBit s.sr) s.draws
      (writeLoc m w a.loc out.res (s1.useDraws out.draws)).andThen fun wr s2 =>
      .ok (isConstant src) (writeBack ctx.pcNext out.flags wr s2)

/-- RRC (R191). -/
def execRrc (w : Width) (src : Src) (s : State) : Host.Outcome State Fault Refusal :=
  runRmw (.rrc w src) .rrc aluRrc w src s

/-- SWPB (R192). -/
def execSwpb (src : Src) (s : State) : Host.Outcome State Fault Refusal :=
  runRmw (.swpb src) .swpb aluSwpb .word src s

/-- RRA (R193). -/
def execRra (w : Width) (src : Src) (s : State) : Host.Outcome State Fault Refusal :=
  runRmw (.rra w src) .rra aluRra w src s

/-- SXT (R194). -/
def execSxt (src : Src) (s : State) : Host.Outcome State Fault Refusal :=
  runRmw (.sxt src) .sxt aluSxt .word src s

/-- The stack write of PUSH and CALL (R195, R196): SP moves down by 2, then the value is written at the new SP. -/
def pushValue (w : Width) (v : Word) (s : State) : Res Unit :=
  let sp' := s.sp - 2#16
  (writeSp sp' (s.note (.regRead .sp s.sp))).andThen fun _ s => memWrite w sp' v s

/-- PUSH (R195). -/
def execPush (w : Width) (src : Src) (s : State) : Host.Outcome State Fault Refusal :=
  let i : Instr := .push w src
  let ctx := fmt2Ctx s w src true
  finishStep i s.pc <|
    (readSource ctx src (s.pc + 2#16) (startStep i s)).andThen fun a s1 =>
    (pushValue w a.value s1).andThen fun _ s2 =>
    .ok (isConstant src) (writeBack ctx.pcNext none .plain s2)

/-- CALL (R196): the return address is pushed before the target is checked, so an odd target leaves the push made. -/
def execCall (src : Src) (s : State) : Host.Outcome State Fault Refusal :=
  let i : Instr := .call src
  let ctx := fmt2Ctx s .word src true
  finishStep i s.pc <|
    (readSource ctx src (s.pc + 2#16) (startStep i s)).andThen fun a s1 =>
    (pushValue .word ctx.pcNext s1).andThen fun _ s2 =>
    (checkPc .word a.value s2).andThen fun wr s3 =>
    .ok (isConstant src) (writeBack ctx.pcNext none wr s3)

/-- The SR write of RETI (R197, 40_pipeline.md R156). -/
def popSr (v : Word) (s : State) : Res Unit :=
  if hasUnimplementedBits s.params v then .raise (.unknown .srUnimplementedBits) s else .ok () (writeReg .sr v s)

/-- RETI (R197): pops SR, then PC. There is no trap to return from (60_exceptions.md R252). -/
def execReti (s : State) : Host.Outcome State Fault Refusal :=
  let sp := s.sp
  finishStep .reti s.pc <|
    (memRead .word sp ((startStep .reti s).note (.regRead .sp sp))).andThen fun srv s1 =>
    (memRead .word (sp + 2#16) s1).andThen fun pcv s2 =>
    (popSr srv s2).andThen fun _ s3 =>
    (writeSp (sp + 4#16) s3).andThen fun _ s4 =>
    (checkPc .word pcv s4).andThen fun wr s5 =>
    .ok false (writeBack (s.pc + 2#16) none wr s5)

end Sys2Proof.Machine
end

