-- ==== Sys2Proof/Machine/Jump.lean ====
section
/-! DEFINITION. The eight relative jumps (spec 43_jump.md R210–R218). -/

namespace Sys2Proof.Machine

/-- The common behaviour of a jump (R210): the condition reads SR at the start of the step; no flag, no memory and no register other than PC
is written. DEDUCED (log entry 9): the implicit read of SR is not traced. -/
def runJump (i : Instr) (cond : Word → Bool) (offset : BitVec 10) (s : State) : Host.Outcome State Fault Refusal :=
  let target := if cond s.sr then jumpTarget s.pc offset else s.pc + 2#16
  finishStep i s.pc (.ok false (writeBack target none .plain (startStep i s)))

/-- JNE / JNZ (R211). -/
def execJne (offset : BitVec 10) (s : State) : Host.Outcome State Fault Refusal := runJump (.jne offset) condNe offset s

/-- JEQ / JZ (R212). -/
def execJeq (offset : BitVec 10) (s : State) : Host.Outcome State Fault Refusal := runJump (.jeq offset) condEq offset s

/-- JNC / JLO (R213). -/
def execJnc (offset : BitVec 10) (s : State) : Host.Outcome State Fault Refusal := runJump (.jnc offset) condNc offset s

/-- JC / JHS (R214). -/
def execJc (offset : BitVec 10) (s : State) : Host.Outcome State Fault Refusal := runJump (.jc offset) condC offset s

/-- JN (R215). -/
def execJn (offset : BitVec 10) (s : State) : Host.Outcome State Fault Refusal := runJump (.jn offset) condN offset s

/-- JGE (R216). -/
def execJge (offset : BitVec 10) (s : State) : Host.Outcome State Fault Refusal := runJump (.jge offset) condGe offset s

/-- JL (R217). -/
def execJl (offset : BitVec 10) (s : State) : Host.Outcome State Fault Refusal := runJump (.jl offset) condL offset s

/-- JMP (R218). -/
def execJmp (offset : BitVec 10) (s : State) : Host.Outcome State Fault Refusal := runJump (.jmp offset) condAlways offset s

end Sys2Proof.Machine
end

