-- ==== Sys2Proof/Machine/Unsupported.lean ====
section
/-! DEFINITION. The nine unsupported extension stubs (spec 44_unsupported.md R230–R234): each decodes and then raises
`UnknownBehavior(Unsupported)`. -/

namespace Sys2Proof.Machine

/-- The common behaviour of a stub (R230): no register, memory or SR bit changes, and nothing but the opcode word is read. -/
def runStub (i : Instr) (s : State) : Host.Outcome State Fault Refusal :=
  finishStep i s.pc (.raise (.unknown .unsupported) (startStep i s))

/-- EXT (R231). -/
def execExt (x : BitVec 11) (s : State) : Host.Outcome State Fault Refusal := runStub (.ext x) s

/-- PUSHM.A (R232). -/
def execPushmA (x : BitVec 8) (s : State) : Host.Outcome State Fault Refusal := runStub (.pushmA x) s

/-- PUSHM.W (R232). -/
def execPushmW (x : BitVec 8) (s : State) : Host.Outcome State Fault Refusal := runStub (.pushmW x) s

/-- POPM.A (R233). -/
def execPopmA (x : BitVec 8) (s : State) : Host.Outcome State Fault Refusal := runStub (.popmA x) s

/-- POPM.W (R233). -/
def execPopmW (x : BitVec 8) (s : State) : Host.Outcome State Fault Refusal := runStub (.popmW x) s

/-- RRCM (R234). -/
def execRrcm (n : BitVec 2) (aw : BitVec 1) (r : BitVec 4) (s : State) : Host.Outcome State Fault Refusal :=
  runStub (.rrcm n aw r) s

/-- RRAM (R234). -/
def execRram (n : BitVec 2) (aw : BitVec 1) (r : BitVec 4) (s : State) : Host.Outcome State Fault Refusal :=
  runStub (.rram n aw r) s

/-- RLAM (R234). -/
def execRlam (n : BitVec 2) (aw : BitVec 1) (r : BitVec 4) (s : State) : Host.Outcome State Fault Refusal :=
  runStub (.rlam n aw r) s

/-- RRUM (R234). -/
def execRrum (n : BitVec 2) (aw : BitVec 1) (r : BitVec 4) (s : State) : Host.Outcome State Fault Refusal :=
  runStub (.rrum n aw r) s

end Sys2Proof.Machine
end

