-- ==== Sys2Proof/Machine/Dispatch.lean ====
section
/-! DEFINITION. The meaning of each instruction, by name (spec 40_pipeline.md R126). -/

namespace Sys2Proof.Machine

/-- What an instruction does in a state. -/
def exec (i : Instr) (s : State) : Host.Outcome State Fault Refusal :=
  match i with
  | .mov w src dst => Sys2Proof.Machine.execMov w src dst s
  | .add w src dst => Sys2Proof.Machine.execAdd w src dst s
  | .addc w src dst => Sys2Proof.Machine.execAddc w src dst s
  | .subc w src dst => Sys2Proof.Machine.execSubc w src dst s
  | .sub w src dst => Sys2Proof.Machine.execSub w src dst s
  | .cmp w src dst => Sys2Proof.Machine.execCmp w src dst s
  | .dadd w src dst => Sys2Proof.Machine.execDadd w src dst s
  | .bit w src dst => Sys2Proof.Machine.execBit w src dst s
  | .bic w src dst => Sys2Proof.Machine.execBic w src dst s
  | .bis w src dst => Sys2Proof.Machine.execBis w src dst s
  | .xor w src dst => Sys2Proof.Machine.execXor w src dst s
  | .and w src dst => Sys2Proof.Machine.execAnd w src dst s
  | .rrc w src => Sys2Proof.Machine.execRrc w src s
  | .swpb src => Sys2Proof.Machine.execSwpb src s
  | .rra w src => Sys2Proof.Machine.execRra w src s
  | .sxt src => Sys2Proof.Machine.execSxt src s
  | .push w src => Sys2Proof.Machine.execPush w src s
  | .call src => Sys2Proof.Machine.execCall src s
  | .reti => Sys2Proof.Machine.execReti s
  | .jne offset => Sys2Proof.Machine.execJne offset s
  | .jeq offset => Sys2Proof.Machine.execJeq offset s
  | .jnc offset => Sys2Proof.Machine.execJnc offset s
  | .jc offset => Sys2Proof.Machine.execJc offset s
  | .jn offset => Sys2Proof.Machine.execJn offset s
  | .jge offset => Sys2Proof.Machine.execJge offset s
  | .jl offset => Sys2Proof.Machine.execJl offset s
  | .jmp offset => Sys2Proof.Machine.execJmp offset s
  | .ext x => Sys2Proof.Machine.execExt x s
  | .pushmA x => Sys2Proof.Machine.execPushmA x s
  | .pushmW x => Sys2Proof.Machine.execPushmW x s
  | .popmA x => Sys2Proof.Machine.execPopmA x s
  | .popmW x => Sys2Proof.Machine.execPopmW x s
  | .rrcm n aw r => Sys2Proof.Machine.execRrcm n aw r s
  | .rram n aw r => Sys2Proof.Machine.execRram n aw r s
  | .rlam n aw r => Sys2Proof.Machine.execRlam n aw r s
  | .rrum n aw r => Sys2Proof.Machine.execRrum n aw r s

end Sys2Proof.Machine
end

