-- ==== Sys2Proof/Machine/Fetch.lean ====
section
/-! DEFINITION. Fetch, the halt test and decode, the part of a step before an instruction runs (spec 40_pipeline.md R121–R123), and the
placing of an instruction where the next step fetches it. -/

namespace Sys2Proof.Machine

/-- What Fetch and Decode give: the halt word was fetched, an instruction was decoded, or the step stops with a fault. -/
inductive Fetched
  | halted (after : State)
  | instr (i : Instr)
  | stopped (f : Fault)
deriving DecidableEq, Repr

/-- Fetch, halt test, decode (R121, R122, R123). A decoded instruction starts from the state before the fetch: `startStep` empties the trace
and records the opcode fetch again (log entry 13). A halt decodes nothing, so its `cg_shortcut` is false (60_exceptions.md R245). -/
def fetchDecode (s : State) : Fetched :=
  match fetchWord s.pc { s with trace := [] } with
  | .raise e t => .stopped (takeFault (e.report none s.pc) t)
  | .ok w t =>
    if w = s.params.haltWord then .halted { t with outcome := some (.halted false) }
    else
      match decodeWord w with
      | .instr i => .instr i
      | .noMatch _ => .stopped (takeFault (.decodeFailure w s.pc) t)

/-! ### Placing an instruction (log entry 5) -/

/-- A byte that holds what is written to it: RAM, NVM or a default MMIO cell. -/
def holdsBytes (p : Params) (a : Word) : Bool :=
  match classify p a.toNat with
  | .ram | .nvm | .default => true
  | .registered _ | .unmapped => false

/-- An instruction of the greatest length, six bytes, can stand at an address. -/
def canHoldInstr (p : Params) (a : Word) : Bool :=
  !isOdd a && (List.range 6).all (fun k => holdsBytes p (a + BitVec.ofNat 16 k))

/-- Where an instruction is placed: at PC, or at the start of the persistent region if PC addresses no such memory. -/
def placeAddr (s : State) : Word := if canHoldInstr s.params s.pc then s.pc else BitVec.ofNat 16 s.params.nvmBase

/-- Write `n` bytes of a number from an address on, least significant byte first. -/
def placeBytes : Nat → Word → Nat → State → State
  | 0, _, _, s => s
  | n + 1, a, v, s => placeBytes n (a + 1#16) (v / 256) (s.putByte a (BitVec.ofNat 8 v))

/-- The state in which the next step fetches the instruction whose bits are `w % 2^nbits`, every further bit up to six bytes 0: its bytes in
memory, PC at them, no fault mark. -/
def placeInstr (s : State) (nbits w : Nat) : State :=
  { placeBytes 6 (placeAddr s) (w % 2 ^ nbits) s with pc := placeAddr s, faulted := none }

end Sys2Proof.Machine
end

