-- ==== Sys2Proof/Machine/Step.lean ====
section
/-! DEFINITION. One step of the core (spec 40_pipeline.md R120–R123, R126) and the host's question of one instruction. -/

namespace Sys2Proof.Machine

/-- One step: a configuration that 20_memory.md R52 refuses has no meaning (log entry 15); a faulted core reports its fault again and does
nothing (70_reset_and_hazards.md R275); otherwise fetch, halt test, decode, and the instruction. -/
def step (s : State) : Host.Outcome State Fault Refusal :=
  if wellFormedParams s.params then
    match s.faulted with
    | some report => .fault (reportAgain report s)
    | none =>
      match fetchDecode s with
      | .halted t => .next t
      | .stopped f => .fault f
      | .instr i => exec i s
  else .refused .badConfiguration

/-- `s` with the instruction whose bits are `w` (of which the opcode table gives `nbits`) placed where the next step fetches it. It stands for
the program load that comes before a run (log entry 5). -/
def State.withFetchWord (s : State) (nbits w : Nat) : State := placeInstr s nbits w

end Sys2Proof.Machine
end

