-- ==== Sys2Proof/Machine/Catalog.lean ====
section
/-! DEFINITION. The instruction descriptor catalog, its templates, and the trie decoder built from it (spec 30_encoding.md R95–R101; 10_state.md
R35: configuration state that nothing changes). `decodeWord` (Decode.lean) is the decoder that step runs; that both give the same is a
statement (log entry 14). -/

namespace Sys2Proof.Machine

/-- The named fields of templates (R82–R84); `raw` is a stub's uninterpreted bits (44_unsupported.md). -/
inductive FieldName
  | opcode | rs | ad | bw | as | rd | r | cond | offset | raw
deriving DecidableEq, Repr

/-- One position of a template (R95). -/
inductive TPos
  | zero
  | one
  | field (f : FieldName)
deriving DecidableEq, Repr

/-- A template: position k is bit k, so the list starts with bit 0. -/
abbrev Template := List TPos

/-- The build-time errors (R97, R100), each fatal: no decoder results. -/
inductive BuildError
  | doesNotFit
  | collision
  | tie
deriving DecidableEq, Repr

/-- The format classes (R81). -/
inductive FormatClass
  | fmt1 | fmt2 | jump | unsupported
deriving DecidableEq, Repr

/-- The source modes as descriptors name them (R91). -/
inductive SMode
  | reg | cg0 | idx | sym | abs | cg1 | ind | cg4 | cg2 | inc | imm | cg8 | cgm1
deriving DecidableEq, Repr

/-- The destination modes as descriptors name them (R92). -/
inductive DMode
  | reg | idx | sym | abs
deriving DecidableEq, Repr

/-- An instruction descriptor (R95). -/
structure Descriptor where
  mnemonic : Mnemonic
  format   : FormatClass
  smode    : Option SMode
  dmode    : Option DMode
  template : Template
  length   : Option Nat
deriving DecidableEq, Repr

/-! ### Mode tables (R91, R92) -/

def sourceModes : List SMode := [.reg, .cg0, .idx, .sym, .abs, .cg1, .ind, .cg4, .cg2, .inc, .imm, .cg8, .cgm1]
def destModes : List DMode := [.reg, .idx, .sym, .abs]

/-- The `as` bits a source mode fixes. -/
def modeAs : SMode → Nat
  | .reg | .cg0 => 0
  | .idx | .sym | .abs | .cg1 => 1
  | .ind | .cg4 | .cg2 => 2
  | .inc | .imm | .cg8 | .cgm1 => 3

/-- The register field a register-aliased source mode fixes. -/
def modeReg : SMode → Option Nat
  | .sym | .imm => some 0
  | .abs | .cg4 | .cg8 => some 2
  | .cg0 | .cg1 | .cg2 | .cgm1 => some 3
  | .reg | .idx | .ind | .inc => none

/-- Extension words of a source mode. -/
def modeExt : SMode → Nat
  | .idx | .sym | .abs | .imm => 1
  | .reg | .cg0 | .cg1 | .ind | .cg4 | .cg2 | .inc | .cg8 | .cgm1 => 0

/-- The `ad` bit a destination mode fixes. -/
def dmodeAd : DMode → Nat
  | .reg => 0
  | .idx | .sym | .abs => 1

/-- The register field a register-aliased destination mode fixes. -/
def dmodeReg : DMode → Option Nat
  | .sym => some 0
  | .abs => some 2
  | .reg | .idx => none

/-- Extension words of a destination mode. -/
def dmodeExt : DMode → Nat
  | .reg => 0
  | .idx | .sym | .abs => 1

/-! ### Templates (R97) -/

/-- `n` positions of one field. -/
def fieldRun (n : Nat) (f : FieldName) : Template := List.replicate n (.field f)

/-- The position that fixes a bit. -/
def fixedBit (v : Nat) : TPos := if v % 2 = 1 then .one else .zero

/-- `n` fixed positions that hold a value, low bit first. -/
def fixedRun : Nat → Nat → Template
  | 0, _ => []
  | n + 1, v => fixedBit v :: fixedRun n (v / 2)

/-- `oooo ssss a b AA dddd` (R82). -/
def fmt1Template : Template :=
  fieldRun 4 .rd ++ fieldRun 2 .as ++ fieldRun 1 .bw ++ fieldRun 1 .ad ++ fieldRun 4 .rs ++ fieldRun 4 .opcode

/-- `000100 ooo b AA rrrr` (R83). -/
def fmt2Template : Template :=
  fieldRun 4 .r ++ fieldRun 2 .as ++ fieldRun 1 .bw ++ fieldRun 3 .opcode ++ fixedRun 6 0x04

/-- `001 ccc ffffffffff` (R84). -/
def jumpTemplate : Template := fieldRun 10 .offset ++ fieldRun 3 .cond ++ fixedRun 3 1

/-- Fix the first `n` positions to a value, each of which must still hold the field's placeholder. -/
def fixPositions : Nat → FieldName → Nat → Template → Except BuildError Template
  | 0, _, _, t => .ok t
  | _ + 1, _, _, [] => .error .collision
  | n + 1, f, v, p :: t =>
    if p = .field f then (fixPositions n f (v / 2) t).map (fixedBit v :: ·) else .error .collision

/-- Insert a field value at bits `lo` to `lo + n − 1` (R97): the value must fit and the positions must hold the placeholder. -/
def insertField (f : FieldName) (lo n v : Nat) (t : Template) : Except BuildError Template :=
  if v < 2 ^ n then (fixPositions n f v (t.drop lo)).map (t.take lo ++ ·) else .error .doesNotFit

/-- Insert a field value where the mode fixes one. -/
def insertIfFixed (f : FieldName) (lo n : Nat) (v : Option Nat) (t : Template) : Except BuildError Template :=
  match v with
  | some v => insertField f lo n v t
  | none => .ok t

/-! ### The catalog (R96) -/

def fmt1Opcodes : List (Mnemonic × Nat) :=
  [(.mov, 0x4), (.add, 0x5), (.addc, 0x6), (.subc, 0x7), (.sub, 0x8), (.cmp, 0x9), (.dadd, 0xA), (.bit, 0xB),
   (.bic, 0xC), (.bis, 0xD), (.xor, 0xE), (.and, 0xF)]

/-- fmt2 opcodes with one operand; the flag says that `bw` is free. -/
def fmt2Opcodes : List (Mnemonic × Nat × Bool) :=
  [(.rrc, 0, true), (.swpb, 1, false), (.rra, 2, true), (.sxt, 3, false), (.push, 4, true), (.call, 5, false)]

def jumpConds : List (Mnemonic × Nat) :=
  [(.jne, 0), (.jeq, 1), (.jnc, 2), (.jc, 3), (.jn, 4), (.jge, 5), (.jl, 6), (.jmp, 7)]

/-- The stub patterns (44_unsupported.md R231–R234). -/
def stubTemplates : List (Mnemonic × Template) :=
  [(.ext, fieldRun 11 .raw ++ fixedRun 5 0x03),
   (.pushmA, fieldRun 8 .raw ++ fixedRun 8 0x14),
   (.pushmW, fieldRun 8 .raw ++ fixedRun 8 0x15),
   (.popmA, fieldRun 8 .raw ++ fixedRun 8 0x16),
   (.popmW, fieldRun 8 .raw ++ fixedRun 8 0x17)]
  ++ [(.rrcm, 0), (.rram, 1), (.rlam, 2), (.rrum, 3)].map fun (m, kk) =>
    (m, fieldRun 5 .raw ++ fixedRun 3 2 ++ fixedRun 2 kk ++ fieldRun 2 .raw ++ fixedRun 4 0)

/-- One fmt1 descriptor. -/
def fmt1Descriptor (m : Mnemonic) (opcode : Nat) (sm : SMode) (dm : DMode) : Except BuildError Descriptor := do
  let t ← insertField .opcode 12 4 opcode fmt1Template
  let t ← insertField .as 4 2 (modeAs sm) t
  let t ← insertIfFixed .rs 8 4 (modeReg sm) t
  let t ← insertField .ad 7 1 (dmodeAd dm) t
  let t ← insertIfFixed .rd 0 4 (dmodeReg dm) t
  return { mnemonic := m, format := .fmt1, smode := some sm, dmode := some dm, template := t,
           length := some (2 * (1 + modeExt sm + dmodeExt dm)) }

/-- One fmt2 descriptor with an operand. -/
def fmt2Descriptor (m : Mnemonic) (op2 : Nat) (bwFree : Bool) (sm : SMode) : Except BuildError Descriptor := do
  let t ← insertField .opcode 7 3 op2 fmt2Template
  let t ← insertField .as 4 2 (modeAs sm) t
  let t ← insertIfFixed .r 0 4 (modeReg sm) t
  let t ← if bwFree then .ok t else insertField .bw 6 1 0 t
  return { mnemonic := m, format := .fmt2, smode := some sm, dmode := none, template := t,
           length := some (2 * (1 + modeExt sm)) }

/-- RETI, every position fixed (R86). -/
def retiDescriptor : Except BuildError Descriptor := do
  let t ← insertField .opcode 7 3 6 fmt2Template
  let t ← insertField .bw 6 1 0 t
  let t ← insertField .as 4 2 0 t
  let t ← insertField .r 0 4 0 t
  return { mnemonic := .reti, format := .fmt2, smode := none, dmode := none, template := t, length := some 2 }

/-- One jump descriptor. -/
def jumpDescriptor (m : Mnemonic) (cond : Nat) : Except BuildError Descriptor := do
  let t ← insertField .cond 10 3 cond jumpTemplate
  return { mnemonic := m, format := .jump, smode := none, dmode := none, template := t, length := some 2 }

/-- One stub descriptor; a stub has no length (R109). -/
def stubDescriptor (m : Mnemonic) (t : Template) : Except BuildError Descriptor :=
  .ok { mnemonic := m, format := .unsupported, smode := none, dmode := none, template := t, length := none }

/-- The values of a list of builds, or the first error. -/
def collect {α : Type} : List (Except BuildError α) → Except BuildError (List α)
  | [] => .ok []
  | .error e :: _ => .error e
  | .ok a :: rest => (collect rest).map (a :: ·)

/-- The builds of the catalog's descriptors (R96). -/
def descriptorBuilds : List (Except BuildError Descriptor) :=
  (fmt1Opcodes.flatMap fun (m, op) => sourceModes.flatMap fun sm => destModes.map fun dm => fmt1Descriptor m op sm dm)
  ++ (fmt2Opcodes.flatMap fun (m, op, bwFree) => sourceModes.map fun sm => fmt2Descriptor m op bwFree sm)
  ++ [retiDescriptor]
  ++ (jumpConds.map fun (m, c) => jumpDescriptor m c)
  ++ (stubTemplates.map fun (m, t) => stubDescriptor m t)

/-- The catalog, or the error that aborts its build (R96, R97). -/
def catalog : Except BuildError (List Descriptor) := collect descriptorBuilds

/-! ### Matching and the trie (R98–R101) -/

/-- Position k of a template. -/
def bitAt (t : Template) (k : Nat) : TPos := t.getD k (.field .raw)

/-- A word agrees with a template on the positions below `n`. -/
def matchesBelow (t : Template) (w : Word) : Nat → Bool
  | 0 => true
  | k + 1 =>
    (match bitAt t k with
      | .zero => !w.getLsbD k
      | .one => w.getLsbD k
      | .field _ => true) && matchesBelow t w k

/-- `matches(d, w)` (R98). -/
def matchesWord (d : Descriptor) (w : Word) : Bool := matchesBelow d.template w 16

/-- `fixed(d)`: the number of literally fixed positions (R98). -/
def fixedCount (d : Descriptor) : Nat := d.template.countP fun p => p == .zero || p == .one

/-- Leaf resolution (R100): the one with the most fixed positions; two of them are a tie, which aborts the build. -/
def resolveLeaf (S : List Descriptor) : Except BuildError (Option Descriptor) :=
  let most := S.foldl (fun n d => max n (fixedCount d)) 0
  match S.filter (fun d => fixedCount d == most) with
  | [] => .ok none
  | [d] => .ok (some d)
  | _ => .error .tie

/-- The decision tree over the instruction bits (R99). -/
inductive Trie
  | leaf (d : Option Descriptor)
  | node (k : Nat) (zero one : Trie)
deriving Repr

/-- `build(S, k − 1)` (R99): bit `k − 1` is next, the most significant first. -/
def buildTrie : Nat → List Descriptor → Except BuildError Trie
  | 0, S => (resolveLeaf S).map .leaf
  | k + 1, S =>
    if S.all (fun d => bitAt d.template k != .zero && bitAt d.template k != .one) then buildTrie k S
    else
      match buildTrie k (S.filter fun d => bitAt d.template k != .one) with
      | .error e => .error e
      | .ok z =>
        match buildTrie k (S.filter fun d => bitAt d.template k != .zero) with
        | .error e => .error e
        | .ok o => .ok (.node k z o)

/-- The trie of the catalog (R99: started at bit 15). -/
def trie : Except BuildError Trie :=
  match catalog with
  | .error e => .error e
  | .ok S => buildTrie 16 S

/-- The root-to-leaf walk of a word (R101). -/
def walkTrie : Trie → Word → Option Descriptor
  | .leaf d, _ => d
  | .node k zero one, w => if w.getLsbD k then walkTrie one w else walkTrie zero w

/-- The mode of a source operand. -/
def smodeOf : Src → SMode
  | .reg _ => .reg
  | .idx _ => .idx
  | .sym => .sym
  | .abs => .abs
  | .ind _ => .ind
  | .inc _ => .inc
  | .imm => .imm
  | .cg0 => .cg0
  | .cg1 => .cg1
  | .cg2 => .cg2
  | .cgm1 => .cgm1
  | .cg4 => .cg4
  | .cg8 => .cg8

/-- The mode of a destination operand. -/
def dmodeOf : Dst → DMode
  | .reg _ => .reg
  | .idx _ => .idx
  | .sym => .sym
  | .abs => .abs

/-- The mnemonic and the modes of an instruction: which descriptor it is an instance of (R96). -/
def descriptorKey : Instr → Mnemonic × Option SMode × Option DMode
  | .mov _ src dst => (.mov, some (smodeOf src), some (dmodeOf dst))
  | .add _ src dst => (.add, some (smodeOf src), some (dmodeOf dst))
  | .addc _ src dst => (.addc, some (smodeOf src), some (dmodeOf dst))
  | .subc _ src dst => (.subc, some (smodeOf src), some (dmodeOf dst))
  | .sub _ src dst => (.sub, some (smodeOf src), some (dmodeOf dst))
  | .cmp _ src dst => (.cmp, some (smodeOf src), some (dmodeOf dst))
  | .dadd _ src dst => (.dadd, some (smodeOf src), some (dmodeOf dst))
  | .bit _ src dst => (.bit, some (smodeOf src), some (dmodeOf dst))
  | .bic _ src dst => (.bic, some (smodeOf src), some (dmodeOf dst))
  | .bis _ src dst => (.bis, some (smodeOf src), some (dmodeOf dst))
  | .xor _ src dst => (.xor, some (smodeOf src), some (dmodeOf dst))
  | .and _ src dst => (.and, some (smodeOf src), some (dmodeOf dst))
  | .rrc _ src => (.rrc, some (smodeOf src), none)
  | .swpb src => (.swpb, some (smodeOf src), none)
  | .rra _ src => (.rra, some (smodeOf src), none)
  | .sxt src => (.sxt, some (smodeOf src), none)
  | .push _ src => (.push, some (smodeOf src), none)
  | .call src => (.call, some (smodeOf src), none)
  | .reti => (.reti, none, none)
  | .jne _ => (.jne, none, none)
  | .jeq _ => (.jeq, none, none)
  | .jnc _ => (.jnc, none, none)
  | .jc _ => (.jc, none, none)
  | .jn _ => (.jn, none, none)
  | .jge _ => (.jge, none, none)
  | .jl _ => (.jl, none, none)
  | .jmp _ => (.jmp, none, none)
  | .ext _ => (.ext, none, none)
  | .pushmA _ => (.pushmA, none, none)
  | .pushmW _ => (.pushmW, none, none)
  | .popmA _ => (.popmA, none, none)
  | .popmW _ => (.popmW, none, none)
  | .rrcm _ _ _ => (.rrcm, none, none)
  | .rram _ _ _ => (.rram, none, none)
  | .rlam _ _ _ => (.rlam, none, none)
  | .rrum _ _ _ => (.rrum, none, none)

end Sys2Proof.Machine
end

