-- ==== Sys2Proof/Machine/HostPort.lean ====
section
/-! DEFINITION. The host port: the operations a host performs between steps (spec 70_reset_and_hazards.md R270–R279; 20_memory.md R72;
10_state.md R41; 60_exceptions.md R247, R260). None is traced, triggers a breakpoint, or touches the fault mark, but that reset clears it. In a
configuration that 20_memory.md R52 refuses every one of them is refused, as `step` is. -/

namespace Sys2Proof.Machine

/-- What a host operation reports: done with a value, `MemFail` on an unmapped byte, or refused with nothing changed. -/
inductive HostReply (α : Type) where
  | done (a : α) (s : State)
  | memFail (addr : Word) (s : State)
  | refused
deriving Repr

/-- An operation of the host in a configuration that has a meaning; one that R52 refuses is refused with nothing changed (log entry 15). -/
def whenConfigured {α : Type} (s : State) (reply : HostReply α) : HostReply α :=
  if wellFormedParams s.params then reply else .refused

/-! ### Registers (R41, R278) -/

/-- `zext(x[i])` to 32 bits for each of the sixteen registers (10_state.md R22). -/
def registerWords (s : State) : List (BitVec 32) := (List.range 16).map fun i => (s.readReg (Reg.ofNum i)).setWidth 32

/-- `readRegisters() -> [u32;16]`. -/
def hostReadRegisters (s : State) : HostReply (List (BitVec 32)) := whenConfigured s (.done (registerWords s) s)

/-- `writeRegister(index, value)`: the value modulo 2^16 with none of the checks of an instruction; an index above 15 is refused. DEDUCED (log entry
21): which later use of a bad value faults. -/
def hostWriteRegister (index value : Nat) (s : State) : HostReply Unit :=
  whenConfigured s (if index ≤ 15 then .done () (s.setReg (Reg.ofNum index) (BitVec.ofNat 16 value)) else .refused)

/-! ### Memory (20_memory.md R72) -/

/-- Bytes read from an address on, in increasing order; none with the first unmapped address. -/
def readBytes (s : State) : Nat → Nat → Except Word (List Byte)
  | _, 0 => .ok []
  | a, n + 1 =>
    match byteRead s (BitVec.ofNat 16 a) with
    | none => .error (BitVec.ofNat 16 a)
    | some b => (readBytes s (a + 1) n).map (b :: ·)

/-- Bytes written from an address on, in increasing order (addresses modulo 2^16): the first unmapped one stops the writing, and the bytes
before it stay written (log entry 16). -/
def writeBytes : Nat → List Byte → State → HostReply Unit
  | _, [], s => .done () s
  | a, b :: rest, s =>
    match byteWrite s (BitVec.ofNat 16 a) b with
    | none => .memFail (BitVec.ofNat 16 a) s
    | some t => writeBytes (a + 1) rest t

/-- `readMemory(addr, len)`. -/
def hostReadMemory (addr : Word) (len : Nat) (s : State) : HostReply (List Byte) :=
  whenConfigured s <|
    if addr.toNat + len ≤ 0x10000 then
      match readBytes s addr.toNat len with
      | .ok bs => .done bs s
      | .error a => .memFail a s
    else .refused

/-- `writeMemory(addr, bytes)`. -/
def hostWriteMemory (addr : Word) (bytes : List Byte) (s : State) : HostReply Unit :=
  whenConfigured s (if addr.toNat + bytes.length ≤ 0x10000 then writeBytes addr.toNat bytes s else .refused)

/-- `len` bytes of a pattern repeated: `pattern[k mod |pattern|]`. -/
def patternBytes (len : Nat) (pattern : List Byte) : List Byte :=
  (List.range len).map fun k => pattern.getD (k % pattern.length) 0#8

/-- `fillMemory(addr, len, pattern)`; an empty pattern has no bytes and is refused (log entry 18). -/
def hostFillMemory (addr : Word) (len : Nat) (pattern : List Byte) (s : State) : HostReply Unit :=
  whenConfigured s <|
    if addr.toNat + len ≤ 0x10000 && !pattern.isEmpty then writeBytes addr.toNat (patternBytes len pattern) s else .refused

/-! ### Watched ranges (60_exceptions.md R247) -/

/-- The host sets `WATCH_RANGES` between steps. -/
def hostSetWatch (ranges : List (Nat × Nat)) (s : State) : HostReply Unit := whenConfigured s (.done () { s with watch := ranges })

/-! ### Reset and program load (R270–R273) -/

/-- The registers and run state as reset leaves them, before PC is loaded (R270). -/
def resetRegisters (s : State) : State :=
  { s with
    sp := s.params.resetSp
    sr := 0x0000#16
    gp := s.params.resetGp
    outcome := none
    faulted := none
    trace := [] }

/-- A reset whose vector byte at `a` is unmapped (R270): PC is a free value and the mark is set (log entry 17). -/
def failReset (a : Word) (s : State) : State :=
  { s with pc := Config.freeWord s.draws, draws := s.draws + 1, faulted := some (.resetMemFail a) }

/-- The course of a reset (R270, R271): memory is not changed. DEDUCED (log entry 22): the vector is read as two bytes, as R270 writes it, so that an odd
`RESET_VECTOR` raises nothing, where 10_state.md R40 writes a word read. -/
def performReset (s : State) : HostReply Unit :=
  let t := resetRegisters s
  let v := s.params.resetVector
  match byteRead t v with
  | none => .memFail v (failReset v t)
  | some lo =>
    match byteRead t (v + 1#16) with
    | none => .memFail (v + 1#16) (failReset (v + 1#16) t)
    | some hi => .done () { t with pc := wordOfBytes lo hi }

/-- `reset()` (R270, R271). -/
def hostReset (s : State) : HostReply Unit := whenConfigured s (performReset s)

/-- A loadable segment that the loader gives (R272, R273): its bytes, zero-padded to its size in memory. -/
structure Segment where
  addr    : Word
  bytes   : List Byte
  memSize : Nat
deriving DecidableEq, Repr

/-- The bytes a segment writes: `bytes[k]`, or 0x00 beyond them (R272). -/
def segmentBytes (g : Segment) : List Byte := (List.range g.memSize).map fun k => g.bytes.getD k 0#8

/-- The segments written in turn; a `MemFail` stops the load. -/
def loadSegments : List Segment → State → HostReply Unit
  | [], s => .done () s
  | g :: rest, s =>
    match writeBytes g.addr.toNat (segmentBytes g) s with
    | .done _ t => loadSegments rest t
    | r => r

/-- The course of a program load (R272): fill the persistent region, write the segments, reset. -/
def performLoad (segments : List Segment) (s : State) : HostReply Unit :=
  match writeBytes s.params.nvmBase (patternBytes s.params.nvmSize s.params.nvmFill) s with
  | .done _ t =>
    match loadSegments segments t with
    | .done _ u => performReset u
    | r => r
  | r => r

/-- `program(image)` (R272, R273). `none` is an image the loader rejects: it is refused and leaves the state unchanged. -/
def hostProgram (image : Option (List Segment)) (s : State) : HostReply Unit :=
  whenConfigured s <|
    match image with
    | none => .refused
    | some segments => if s.params.nvmFill.isEmpty then .refused else performLoad segments s

/-! ### Stepping (R275, R276, R260) -/

/-- What `step()` hands the host (R275): true for `Halted` and `Breakpoint` and false for `Retired`, or the fault; with either, the step's I/O trace
and the flag `cg_shortcut`; or the refusal of a bad configuration. -/
inductive StepReply
  | returned (terminal : Bool) (trace : List TraceEntry) (cgShortcut : Bool) (s : State)
  | fault (f : Fault) (trace : List TraceEntry) (cgShortcut : Bool)
  | refused (r : Refusal)
deriving Repr

/-- An outcome ends a run without being a fault (60_exceptions.md R240). -/
def isTerminal : Option StepOutcome → Bool
  | some (.halted _) | some (.breakpoint _) => true
  | some (.retired _) | some (.fault _) | none => false

/-- The flag `cg_shortcut` that an outcome carries (00_scope.md R13). -/
def cgShortcutOf : Option StepOutcome → Bool
  | some (.retired cg) | some (.halted cg) | some (.breakpoint cg) => cg
  | some (.fault _) | none => false

/-- `step() -> bool` (R275). A step that faults reports the fault only (60_exceptions.md R245), so that the flag handed over with it is false: DEDUCED
(log entry 10). A call that a faulted core refuses hands over the trace that stands in the state: DEDUCED (log entry 11). -/
def hostStep (s : State) : StepReply :=
  match step s with
  | .next t => .returned (isTerminal t.outcome) t.trace (cgShortcutOf t.outcome) t
  | .fault f => .fault f f.after.trace false
  | .refused r => .refused r

/-- What `run` hands the host, with the number of `step()` calls made. -/
inductive RunReply
  | finished (completed : Bool) (stepsTaken : Nat) (s : State)
  | fault (f : Fault) (stepsTaken : Nat)
  | refused (r : Refusal) (stepsTaken : Nat)
deriving Repr

/-- `run(budget)` after `n` steps (R276). -/
def runFrom : Nat → Nat → State → RunReply
  | 0, n, s => .finished false n s
  | budget + 1, n, s =>
    match hostStep s with
    | .returned true _ _ t => .finished true (n + 1) t
    | .returned false _ _ t => runFrom budget (n + 1) t
    | .fault f _ _ => .fault f (n + 1)
    | .refused r => .refused r (n + 1)

/-- `run(budget) -> (completed, stepsTaken)` (R276). -/
def hostRun (budget : Nat) (s : State) : RunReply :=
  if wellFormedParams s.params then runFrom budget 0 s else .refused .badConfiguration 0

end Sys2Proof.Machine
end

