-- ==== Sys2Proof/Safety.lean ====
section
/-! DEFINITION. What statements are said in: when an operand can be read and a result stored, what the operand's value is, and what a completed
step leaves, all as functions of the state at the start of the step (spec 40_pipeline.md R125–R160); the invariant of the machine. -/

namespace Sys2Proof.Machine

/-! ### Reading -/

/-- The word at an address as a fetch or a word access reads it (20_memory.md R57, R58): none at an odd address or with an unmapped byte. -/
def wordAt (s : State) (a : Word) : Option Word :=
  if isOdd a then none
  else
    match byteRead s a, byteRead s (a + 1#16) with
    | some lo, some hi => some (wordOfBytes lo hi)
    | _, _ => none

/-- The value at an address at a width: none where the access raises. -/
def valueAt (s : State) (w : Width) (a : Word) : Option Word :=
  match w with
  | .byte => (byteRead s a).map (·.setWidth 16)
  | .word => wordAt s a

/-- A store of a width at an address is performed: each byte is mapped, and a word's address is even (20_memory.md R57, R58). -/
def canStore (s : State) (w : Width) (a : Word) : Bool :=
  match w with
  | .byte => isMapped s.params a
  | .word => !isOdd a && isMapped s.params a && isMapped s.params (a + 1#16)

/-! ### The source operand -/

/-- The address of the source's extension word. -/
def srcExtAddr (s : State) : Word := s.pc + 2#16

/-- The effective address of a source in memory (R130–R135): none for the other modes, for `@PC`, and where the extension word cannot be read. -/
def srcAddr (ctx : Ctx) (s : State) : Src → Option Word
  | .idx r => (wordAt s (srcExtAddr s)).map fun x => indexBase ctx s r + x
  | .sym => (wordAt s (srcExtAddr s)).map fun x => srcExtAddr s + x
  | .abs => wordAt s (srcExtAddr s)
  | .ind r => if r = .pc then none else some (s.readReg r)
  | .inc r => some (s.readReg r)
  | .reg _ | .imm | .cg0 | .cg1 | .cg2 | .cgm1 | .cg4 | .cg8 => none

/-- The auto-increment of the source raises `OddSP` (R135, R154). -/
def incRaises (ctx : Ctx) (s : State) (src : Src) : Bool :=
  src == .inc .sp && !incSuppressed ctx s.params .sp && isOdd (s.sp + 2#16)

/-- The value of a REG operand (R128, 70_reset_and_hazards.md R278): none where its read raises, of an SR with a bit that the host stored. -/
def operandValue (ctx : Ctx) (s : State) (r : Reg) : Option Word :=
  if r = .sr ∧ hasHostBits s.params s.sr then none else some (trunc ctx.width (operandReg ctx s r))

/-- The value a source routine delivers (R128–R137): none where the routine raises. -/
def srcValue (ctx : Ctx) (s : State) (src : Src) : Option Word :=
  match src with
  | .reg r => operandValue ctx s r
  | .imm => (wordAt s (srcExtAddr s)).map (trunc ctx.width)
  | .cg0 | .cg1 | .cg2 | .cgm1 | .cg4 | .cg8 => some (trunc ctx.width ((constantOf src).getD 0#16))
  | .idx _ | .sym | .abs | .ind _ | .inc _ =>
    if incRaises ctx s src then none else (srcAddr ctx s src).bind (valueAt s ctx.width)

/-- Where the source operand lies (R143). -/
def srcLoc (ctx : Ctx) (s : State) (src : Src) : Loc :=
  match src with
  | .reg r => .reg r
  | .imm | .cg0 | .cg1 | .cg2 | .cgm1 | .cg4 | .cg8 => .none
  | .idx _ | .sym | .abs | .ind _ | .inc _ =>
    match srcAddr ctx s src with
    | some ea => .mem ea
    | none => .none

/-- A register after the source routine (R135, R136): the auto-increment and nothing else. -/
def regAfterSrc (ctx : Ctx) (s : State) (src : Src) (r : Reg) : Word :=
  if src = .inc r ∧ !incSuppressed ctx s.params r then s.readReg r + incAmount ctx.width r else s.readReg r

/-! ### The destination operand -/

/-- The address of the destination's extension word: after the source's (30_encoding.md R93). -/
def dstExtAddr (s : State) (src : Src) : Word := s.pc + 2#16 + BitVec.ofNat 16 (2 * src.extWords)

/-- Where the destination lies (R138–R141), its base as the source routine leaves it: none for `X(R3)` and where the extension word cannot be
read. -/
def dstLoc (ctx : Ctx) (s : State) (src : Src) : Dst → Option Loc
  | .reg r => some (.reg r)
  | .idx r =>
    if r = .cg then none
    else (wordAt s (dstExtAddr s src)).map fun x => .mem (regAfterSrc ctx s src r + x)
  | .sym => (wordAt s (dstExtAddr s src)).map fun x => .mem (dstExtAddr s src + x)
  | .abs => (wordAt s (dstExtAddr s src)).map .mem

/-- The value of a destination (R138, R142): none where its read raises, in memory or of an SR with a bit that the host stored. -/
def dstValue (ctx : Ctx) (s : State) (src : Src) : Loc → Option Word
  | .none => some 0#16
  | .reg r =>
    if r = .sr ∧ hasHostBits s.params (regAfterSrc ctx s src r) then none
    else some (trunc ctx.width (if r = .pc then ctx.pcNext else regAfterSrc ctx s src r))
  | .mem ea => valueAt s ctx.width ea

/-- A result may be written to a location (R151–R156): the checks of PC, SP and SR, and a store that is performed. -/
def canWrite (s : State) (m : Mnemonic) (w : Width) (v : Word) : Loc → Bool
  | .none => true
  | .reg .pc => w == .word && !isOdd v
  | .reg .sp => !isOdd v
  | .reg .sr => w == .word && s.params.srSafe.contains m && !hasUnimplementedBits s.params v
  | .reg .cg => true
  | .reg (.gp _) => true
  | .mem ea => canStore s w ea

/-! ### What a completed step leaves -/

/-- The byte that a read of `a` returns after byte `b` was written there (20_memory.md R54–R56). -/
def readBack (p : Params) (a : Word) (b : Byte) : Byte := readThrough p a.toNat (writeThrough p a.toNat b)

/-- What a byte reads as after a value was stored at `stored` (nowhere, if none): the stored bytes low byte first, every other byte as before. -/
def byteAfter (s : State) (w : Width) (stored : Option Word) (v : Word) (a : Word) : Option Byte :=
  match stored with
  | none => byteRead s a
  | some ea =>
    if a = ea then some (readBack s.params a (lowByte v))
    else if w = .word ∧ a = ea + 1#16 then some (readBack s.params a (highByte v))
    else byteRead s a

/-- The outcome of a step that completed (R158, 60_exceptions.md R247). -/
def outcomeAfter (s : State) (w : Width) (stored : Option Word) (cg : Bool) : StepOutcome :=
  match stored with
  | none => .retired cg
  | some ea =>
    if isWatched s.watch ea || (w == .word && isWatched s.watch (ea + 1#16)) then .breakpoint cg else .retired cg

/-- `t` is what a completed step leaves of `s`: the registers, each byte of memory, the outcome; the configuration, the watched ranges and the
fault mark unchanged, and the free values drawn. -/
structure Completed (s t : State) (regs : Reg → Word) (w : Width) (stored : Option Word) (v : Word) (cg : Bool) (drawn : Nat) : Prop where
  regs    : ∀ r, t.readReg r = regs r
  bytes   : ∀ a, byteRead t a = byteAfter s w stored v a
  outcome : t.outcome = some (outcomeAfter s w stored cg)
  params  : t.params = s.params
  watch   : t.watch = s.watch
  faulted : t.faulted = s.faulted
  draws   : t.draws = s.draws + drawn

/-- The address of a location in memory. -/
def Loc.addr : Loc → Option Word
  | .mem ea => some ea
  | .none | .reg _ => Option.none

/-- The registers after an operation wrote its result to a location (R150, R151, R157): the final PC, SR by the write or the flag merge, the
written register, and every other register as the source routine left it. -/
def regsAfter (ctx : Ctx) (s : State) (src : Src) (written : Loc) (res : Word) (flags : Option Flags) (r : Reg) : Word :=
  match r with
  | .cg => 0#16
  | .pc => if written = .reg .pc then res else ctx.pcNext
  | .sr =>
    if written = .reg .sr then res
    else
      match flags with
      | some f => mergeFlags s.sr f
      | none => s.sr
  | .sp => if written = .reg .sp then res else regAfterSrc ctx s src .sp
  | .gp n => if written = .reg (.gp n) then res else regAfterSrc ctx s src (.gp n)

/-! ### The invariant -/

/-- SR holds no bit that neither an instruction may set nor the flag merge writes (R149, R156). -/
def srLegal (s : State) : Prop := s.sr &&& ~~~(s.params.srMask ||| 0x0107#16) = 0#16

/-- What every step keeps: memory in canonical form, PC and SP even (10_state.md R23, R24), SR legal (R25). -/
structure Inv (s : State) : Prop where
  memory : Memory.wf s.params s.mem = true
  pcEven : isOdd s.pc = false
  spEven : isOdd s.sp = false
  sr     : srLegal s

end Sys2Proof.Machine
end

