-- ==== Sys2Proof/Certificates/Slice0/Obligations.lean ====
section
/-! DEFINITION. The statements for the provers. The formulas they use for results and flags are in `Sys2Proof.Claims`: they are written over numbers,
apart from the bit operations of Machine/Flags.lean. What an operand is, and when it can be read or written, is said by Safety.lean. -/

namespace Sys2Proof.Claims

open Sys2Proof.Machine

/-! ### Numbers at a width -/

/-- `2^w`. -/
def size : Width → Nat
  | .byte => 256
  | .word => 65536

/-- `2^(w−1)`. -/
def half : Width → Nat
  | .byte => 128
  | .word => 32768

/-- The two's-complement value of a number below `2^w`. -/
def signed (w : Width) (n : Nat) : Int := if n < half w then n else (n : Int) - size w

/-- A signed result does not fit in w bits. -/
def outOfRange (w : Width) (x : Int) : Bool := decide (x < -(half w : Int)) || decide ((half w : Int) ≤ x)

/-- The N of a result. -/
def negative (w : Width) (res : Word) : Bool := decide (half w ≤ res.toNat)

/-! ### Results and flags as numbers -/

/-- The sum of two operands and a carry, modulo `2^w`. -/
def sumResult (w : Width) (a b : Word) (cin : Nat) : Word := BitVec.ofNat 16 ((a.toNat + b.toNat + cin) % size w)

/-- The flags of a sum: C says it reaches `2^w`, V that the signed sum does not fit. -/
def sumFlags (w : Width) (a b : Word) (cin : Nat) : Flags :=
  { c := decide (size w ≤ a.toNat + b.toNat + cin)
    z := sumResult w a b cin == 0#16
    n := negative w (sumResult w a b cin)
    v := outOfRange w (signed w a.toNat + signed w b.toNat + cin) }

/-- `dst − src − borrow`, modulo `2^w`. -/
def diffResult (w : Width) (dst src : Word) (borrow : Nat) : Word :=
  BitVec.ofInt 16 (((dst.toNat : Int) - src.toNat - borrow) % size w)

/-- The flags of a difference: C says there is no borrow, V that the signed difference does not fit. -/
def diffFlags (w : Width) (dst src : Word) (borrow : Nat) : Flags :=
  { c := decide (src.toNat + borrow ≤ dst.toNat)
    z := diffResult w dst src borrow == 0#16
    n := negative w (diffResult w dst src borrow)
    v := outOfRange w (signed w dst.toNat - signed w src.toNat - borrow) }

/-- The flags of AND, BIT, XOR and SXT: C is the complement of Z. -/
def logicFlags (w : Width) (res : Word) (v : Bool) : Flags :=
  { c := !(res == 0#16), z := res == 0#16, n := negative w res, v }

/-- The flags of RRC and RRA: C is the bit shifted out. -/
def shiftFlags (w : Width) (op res : Word) : Flags :=
  { c := decide (op.toNat % 2 = 1), z := res == 0#16, n := negative w res, v := false }

/-- One position right, with a bit from above. -/
def shiftResult (w : Width) (op : Word) (top : Bool) : Word := BitVec.ofNat 16 ((op.toNat + top.toNat * size w) / 2)

/-- The number of decimal digits of a width. -/
def digits : Width → Nat
  | .byte => 2
  | .word => 4

/-- Every digit of a value is 0 to 9. -/
abbrev isDecimal (w : Width) (v : Word) : Prop := ∀ i, i < digits w → v.toNat / 16 ^ i % 16 ≤ 9

/-- The number that `k` packed decimal digits stand for. -/
def decimalValue : Nat → Nat → Nat
  | 0, _ => 0
  | k + 1, v => v % 16 + 10 * decimalValue k (v / 16)

/-- The packed decimal digits of a number. -/
def packDecimal : Nat → Nat → Nat
  | 0, _ => 0
  | k + 1, n => n % 10 + 16 * packDecimal k (n / 10)

/-- The decimal sum of two operands and a carry. -/
def decimalSum (w : Width) (a b : Word) (cin : Nat) : Nat :=
  decimalValue (digits w) a.toNat + decimalValue (digits w) b.toNat + cin

/-- The packed result of a decimal sum. -/
def decimalResult (w : Width) (a b : Word) (cin : Nat) : Word :=
  BitVec.ofNat 16 (packDecimal (digits w) (decimalSum w a b cin % 10 ^ digits w))

/-- The flags of a decimal sum, with V as given. -/
def decimalFlags (w : Width) (a b : Word) (cin : Nat) (v : Bool) : Flags :=
  { c := decide (10 ^ digits w ≤ decimalSum w a b cin)
    z := decimalResult w a b cin == 0#16
    n := negative w (decimalResult w a b cin)
    v }

/-- C at the start of a step, as a number. -/
def carryIn (s : State) : Nat := (s.sr.getLsbD 0).toNat

/-- The next free value, cut to a width (log entry 6). -/
def freeResult (s : State) (w : Width) : Word := BitVec.ofNat 16 ((Config.freeWord s.draws).toNat % size w)

/-- The result of DADD: the decimal sum, or a free value with a digit above 9. -/
def daddResult (s : State) (w : Width) (a b : Word) : Word :=
  if isDecimal w a ∧ isDecimal w b then decimalResult w a b (carryIn s) else freeResult s w

/-- The bytes of a word exchanged. -/
def swapped (a : Word) : Word := BitVec.ofNat 16 (a.toNat % 256 * 256 + a.toNat / 256)

/-- The low byte of a word as a signed number. -/
def extended (a : Word) : Word := BitVec.ofInt 16 (signed .byte (a.toNat % 256))

/-! ### Jumps -/

/-- A jump's target: `pc + 2 + 2 × offset` modulo 2^16, the offset as a signed number. -/
def jumpGoal (pc : Word) (offset : BitVec 10) : Word := BitVec.ofInt 16 ((pc.toNat : Int) + 2 + 2 * offset.toInt)

/-- What a jump leaves: PC at the target if the condition holds and after the jump if not, and nothing else; its trace is its fetch and the PC
write. That the trace holds no read of SR, which R210 calls an implicit input, is the model's DEDUCED choice (log entry 9). -/
def Jumps (i : Instr) (s : State) (offset : BitVec 10) (taken : Bool) : Prop :=
  ∃ t, exec i s = .next t ∧
    Completed s t (fun r => if r = .pc then (if taken then jumpGoal s.pc offset else s.pc + 2#16) else s.readReg r)
      .word none 0#16 false 0 ∧
    t.trace = [.fetch s.pc i.opcodeWord, .regWrite .pc t.pc]

/-! ### Families, as lists -/

/-- The fmt1 instructions on given operands. -/
def allFmt1 (w : Width) (src : Src) (dst : Dst) : List Instr :=
  [.mov w src dst, .add w src dst, .addc w src dst, .subc w src dst, .sub w src dst, .cmp w src dst, .dadd w src dst,
   .bit w src dst, .bic w src dst, .bis w src dst, .xor w src dst, .and w src dst]

/-- The fmt1 instructions that write their destination. -/
def fmt1Writers (w : Width) (src : Src) (dst : Dst) : List Instr :=
  [.mov w src dst, .add w src dst, .addc w src dst, .subc w src dst, .sub w src dst, .dadd w src dst, .bic w src dst,
   .bis w src dst, .xor w src dst, .and w src dst]

/-- The fmt1 instructions that set flags and write their destination. -/
def fmt1FlagWriters (w : Width) (src : Src) (dst : Dst) : List Instr :=
  [.add w src dst, .addc w src dst, .subc w src dst, .sub w src dst, .dadd w src dst, .xor w src dst, .and w src dst]

/-- The fmt1 instructions that write their destination, each with its mnemonic and its result, for a source value `a` and a destination value
`b`. -/
def fmt1Results (s : State) (w : Width) (src : Src) (dst : Dst) (a b : Word) : List (Mnemonic × Instr × Word) :=
  [(.mov, .mov w src dst, a), (.add, .add w src dst, sumResult w b a 0), (.addc, .addc w src dst, sumResult w b a (carryIn s)),
   (.subc, .subc w src dst, diffResult w b a (1 - carryIn s)), (.sub, .sub w src dst, diffResult w b a 0),
   (.dadd, .dadd w src dst, daddResult s w a b), (.bic, .bic w src dst, b &&& ~~~a), (.bis, .bis w src dst, b ||| a),
   (.xor, .xor w src dst, a ^^^ b), (.and, .and w src dst, a &&& b)]

/-- The read-modify-write instructions of fmt2 at a width (SWPB and SXT have the word form only). -/
def rmwOf : Width → Src → List Instr
  | .byte, src => [.rrc .byte src, .rra .byte src]
  | .word, src => [.rrc .word src, .rra .word src, .swpb src, .sxt src]

/-- The read-modify-write instructions, each with its mnemonic and its result, for an operand value `a`. -/
def rmwResults (s : State) : Width → Src → Word → List (Mnemonic × Instr × Word)
  | .byte, src, a =>
    [(.rrc, .rrc .byte src, shiftResult .byte a (s.sr.getLsbD 0)), (.rra, .rra .byte src, shiftResult .byte a (decide (half .byte ≤ a.toNat)))]
  | .word, src, a =>
    [(.rrc, .rrc .word src, shiftResult .word a (s.sr.getLsbD 0)), (.rra, .rra .word src, shiftResult .word a (decide (half .word ≤ a.toNat))),
     (.swpb, .swpb src, swapped a), (.sxt, .sxt src, extended a)]

/-- The instructions that only have a source operand, for the stack, at a width. -/
def stackOf : Width → Src → List Instr
  | .byte, src => [.push .byte src]
  | .word, src => [.push .word src, .call src]

/-- The eight jumps. -/
def allJumps (off : BitVec 10) : List Instr := [.jne off, .jeq off, .jnc off, .jc off, .jn off, .jge off, .jl off, .jmp off]

/-- The nine stubs. -/
def isStub : Instr → Bool
  | .ext _ | .pushmA _ | .pushmW _ | .popmA _ | .popmW _ | .rrcm _ _ _ | .rram _ _ _ | .rlam _ _ _ | .rrum _ _ _ => true
  | .mov _ _ _ | .add _ _ _ | .addc _ _ _ | .subc _ _ _ | .sub _ _ _ | .cmp _ _ _ | .dadd _ _ _ | .bit _ _ _ | .bic _ _ _
  | .bis _ _ _ | .xor _ _ _ | .and _ _ _ | .rrc _ _ | .swpb _ | .rra _ _ | .sxt _ | .push _ _ | .call _ | .reti
  | .jne _ | .jeq _ | .jnc _ | .jc _ | .jn _ | .jge _ | .jl _ | .jmp _ => false

/-- The flag merge follows an instruction: it sets flags, and SR is not where its result goes. -/
def mergesFlags : Instr → Bool
  | .add _ _ dst | .addc _ _ dst | .subc _ _ dst | .sub _ _ dst | .dadd _ _ dst | .xor _ _ dst | .and _ _ dst => dst != .reg .sr
  | .cmp _ _ _ | .bit _ _ _ => true
  | .rrc _ src | .rra _ src | .sxt src => src != .reg .sr
  | .mov _ _ _ | .bic _ _ _ | .bis _ _ _ | .swpb _ | .push _ _ | .call _ | .reti
  | .jne _ | .jeq _ | .jnc _ | .jc _ | .jn _ | .jge _ | .jl _ | .jmp _
  | .ext _ | .pushmA _ | .pushmW _ | .popmA _ | .popmW _ | .rrcm _ _ _ | .rram _ _ _ | .rlam _ _ _ | .rrum _ _ _ => false

/-- The conditions of R52: both regions end by 0x10000, they share no address, and no handler lies in either. -/
def MeetsR52 (p : Params) : Prop :=
  let inRegion (base size a : Nat) : Prop := base ≤ a ∧ a < base + size
  p.ramBase + p.ramSize ≤ 65536 ∧ p.nvmBase + p.nvmSize ≤ 65536 ∧
    (∀ a, ¬(inRegion p.ramBase p.ramSize a ∧ inRegion p.nvmBase p.nvmSize a)) ∧
    ∀ h ∈ p.handlers, ¬inRegion p.ramBase p.ramSize h.addr.toNat ∧ ¬inRegion p.nvmBase p.nvmSize h.addr.toNat

/-- No two handlers stand at one address: the model's condition beside those of R52 (log entry 15). -/
def OneHandlerEach (p : Params) : Prop := p.handlers.Pairwise fun h k => h.addr ≠ k.addr

/-! ### Completion, frames and traps -/

/-- An fmt1 instruction completes with a result at its destination and flags, if it sets any. -/
def Fmt1Gives (i : Instr) (w : Width) (src : Src) (dst : Dst) (s : State) (l : Loc) (res : Word) (flags : Option Flags) : Prop :=
  ∃ t, exec i s = .next t ∧
    Completed s t (regsAfter (fmt1Ctx s w src dst) s src l res flags) w l.addr res (isConstant src) 0

/-- A read-modify-write instruction completes with a result at its operand's location and flags, if it sets any. -/
def RmwGives (i : Instr) (w : Width) (src : Src) (s : State) (res : Word) (flags : Option Flags) : Prop :=
  ∃ t, exec i s = .next t ∧
    Completed s t
      (regsAfter (fmt2Ctx s w src false) s src (srcLoc (fmt2Ctx s w src false) s src) res flags)
      w (srcLoc (fmt2Ctx s w src false) s src).addr res false 0

/-- An address lies outside the bytes of an access. -/
def outside (w : Width) (ea a : Word) : Prop := a ≠ ea ∧ (w = .word → a ≠ ea + 1#16)

/-- Configuration, watched ranges and fault mark are as they were. -/
def SpecialsKept (s t : State) : Prop := t.params = s.params ∧ t.watch = s.watch ∧ t.faulted = s.faulted

/-- The bits of SR other than C, Z, N and V are as they were. -/
def ControlBitsKept (s t : State) : Prop :=
  ∀ k, k ≠ 0 → k ≠ 1 → k ≠ 2 → k ≠ 8 → t.sr.getLsbD k = s.sr.getLsbD k

/-- Every register but PC, SR, the destination and an auto-incremented source is as it was, and an auto-incremented source that is not the
destination moved by its increment. -/
def RegistersKept (w : Width) (src : Src) (dst : Option Reg) (s t : State) : Prop :=
  (∀ r, r ≠ .pc → r ≠ .sr → dst ≠ some r → src ≠ .inc r → t.readReg r = s.readReg r) ∧
    ∀ r, r ≠ .pc → dst ≠ some r → src = .inc r → t.readReg r = s.readReg r + (if w = .word ∨ r = .sp then 2#16 else 1#16)

/-- The register a destination names. -/
def dstReg : Dst → Option Reg
  | .reg r => some r
  | .idx _ | .sym | .abs => none

/-- The register a source names as its location. -/
def srcReg : Src → Option Reg
  | .reg r => some r
  | .idx _ | .sym | .abs | .ind _ | .inc _ | .imm | .cg0 | .cg1 | .cg2 | .cgm1 | .cg4 | .cg8 => none

/-- The step of `i` stops with an unknown behaviour for a reason, at the instruction, and leaves the state `after`. -/
def Raises (i : Instr) (s : State) (reason : Reason) (after : State) : Prop :=
  exec i s = .fault (takeFault (.unknownBehavior reason (some i.opcodeWord) s.pc) after)

/-- The step of `i` stops with what `e` reports, at the instruction, with the registers as given and memory as it was. -/
def StopsWith (i : Instr) (s : State) (e : Raise) (regs : Reg → Word) : Prop :=
  ∃ f, exec i s = .fault f ∧ f.report = e.report (some i.opcodeWord) s.pc ∧
    (∀ r, f.after.readReg r = regs r) ∧ f.after.mem = s.mem ∧ f.after.faulted = some f.report

/-- The step of `i` stops with an unknown behaviour for a reason, at the instruction, with every register but those of the source's
auto-increment as it was, and memory as it was. -/
def RaisesQuietly (i : Instr) (s : State) (reason : Reason) (regs : Reg → Word) : Prop := StopsWith i s (.unknown reason) regs

/-- What an access of a width at an address raises, if it raises: a word at an odd address first, then the lower byte that is unmapped, then the
upper one. -/
def accessError (p : Params) (w : Width) (a : Word) : Option Raise :=
  if w = .word ∧ a.toNat % 2 = 1 then some (.unknown .misalignedWord)
  else if isMapped p a = false then some (.memFail a)
  else if w = .word ∧ isMapped p (a + 1#16) = false then some (.memFail (a + 1#16))
  else none

/-- The outcome of a step ends a run: `Halted` or `Breakpoint`. -/
def endsRun (t : State) : Prop := ∃ cg, t.outcome = some (.halted cg) ∨ t.outcome = some (.breakpoint cg)

/-- One step after another, none of which ends a run or faults: `n` steps lead from `s` to `t`. -/
def runsOn : Nat → State → State → Prop
  | 0, s, t => s = t
  | n + 1, s, t => ∃ u, step s = .next u ∧ ¬endsRun u ∧ runsOn n u t

end Sys2Proof.Claims

open Sys2Proof Sys2Proof.Machine Sys2Proof.Claims

/-! ### Encoding and decoding (30_encoding.md) -/

/-- Words written out from the layouts of R82–R84 and 44_unsupported.md decode to the instructions they stand for. -/
def Obligations.SampleWordsDecode : Prop :=
  decodeWord 0x4405#16 = .instr (.mov .word (.reg (.gp 0)) (.reg (.gp 1))) ∧
  decodeWord 0x4375#16 = .instr (.mov .byte .cgm1 (.reg (.gp 1))) ∧
  decodeWord 0x40B2#16 = .instr (.mov .word .imm .abs) ∧
  decodeWord 0xF4E5#16 = .instr (.and .byte (.ind (.gp 0)) (.idx (.gp 1))) ∧
  decodeWord 0x10B4#16 = .instr (.swpb (.inc (.gp 0))) ∧
  decodeWord 0x12B0#16 = .instr (.call .imm) ∧
  decodeWord 0x1300#16 = .instr .reti ∧
  decodeWord 0x3BFE#16 = .instr (.jl 0x3FE#10) ∧
  decodeWord 0x0354#16 = .instr (.rrum 0#2 1#1 4#4) ∧
  decodeWord 0x10C5#16 = .noMatch .byteForm

/-- R104: decoding the encoding of a well-formed instruction gives it back, every operand at every value its mode accepts, from the word and from
the bytes that memory holds. -/
def Obligations.DecodeOfEncode : Prop :=
  ∀ i : Instr, i.wellFormed → decodeWord i.opcodeWord = .instr i ∧ ∀ rest, decodeBytes (encode i ++ rest) = (.instr i, rest)

/-- Where a word decodes it has one meaning: its instruction is well formed and encodes to that word. -/
def Obligations.EncodeOfDecode : Prop :=
  ∀ (w : Word) (i : Instr), decodeWord w = .instr i → i.wellFormed ∧ i.opcodeWord = w

/-- R105: which words match nothing, by class and by their numbers. -/
def Obligations.NoMatchWords : Prop :=
  ∀ w : Word,
    (decodeWord w = .noMatch .lowSpace ↔ w.toNat < 0x1000 ∧ w.toNat / 32 % 8 ≠ 2) ∧
    (decodeWord w = .noMatch .byteForm ↔
      (0x10C0 ≤ w.toNat ∧ w.toNat ≤ 0x10FF) ∨ (0x11C0 ≤ w.toNat ∧ w.toNat ≤ 0x11FF) ∨ (0x12C0 ≤ w.toNat ∧ w.toNat ≤ 0x12FF)) ∧
    (decodeWord w = .noMatch .retiSpace ↔ 0x1301 ≤ w.toNat ∧ w.toNat ≤ 0x13FF) ∧
    decodeWord w ≠ .noMatch .truncated

/-- R100, R101: whatever the descriptors, a trie that is built leads every word to the descriptor that leaf resolution picks among those that match
it: the one with the most fixed bits. -/
def Obligations.TrieFindsMostSpecific : Prop :=
  ∀ (S : List Descriptor) (t : Trie), buildTrie 16 S = .ok t →
    ∀ w : Word, resolveLeaf (S.filter fun d => matchesWord d w) = .ok (walkTrie t w)

/-- R96, R97, R100, R102: the catalog has its 720 descriptors, and its build meets no misfit, no collision and no tie. -/
def Obligations.CatalogBuilds : Prop :=
  (∃ S, catalog = .ok S ∧ S.length = 720) ∧ ∃ t, trie = .ok t

/-- R101, R109: the catalog's trie is built, and the decoder that a step runs agrees with it on every word: the same mnemonic, modes and length,
or both no match. -/
def Obligations.TrieAgreesWithDecoder : Prop :=
  ∃ t, trie = .ok t ∧ ∀ w : Word,
    match decodeWord w with
    | .instr i => ∃ d, walkTrie t w = some d ∧ (d.mnemonic, d.smode, d.dmode) = descriptorKey i ∧ d.length = i.length
    | .noMatch _ => walkTrie t w = none

/-! ### Memory (20_memory.md) -/

/-- R53–R56: what a byte access does in each class. RAM and NVM hold what is written; a registered cell reads and stores through its two functions
and starts with its initial byte; a default cell holds what is written and starts with the default byte; elsewhere the access fails. A byte write changes
the stored byte of its own address and nothing else. -/
def Obligations.ByteAccessByClass : Prop :=
  ∀ (s : State) (a : Word), wellFormedParams s.params →
    let inside := (s.params.ramBase ≤ a.toNat ∧ a.toNat < s.params.ramBase + s.params.ramSize) ∨
      (s.params.nvmBase ≤ a.toNat ∧ a.toNat < s.params.nvmBase + s.params.nvmSize)
    (inside → byteRead s a = some (s.storedByte a) ∧ ∀ b, ∃ t, byteWrite s a b = some t ∧ t.storedByte a = b) ∧
    (∀ h ∈ s.params.handlers, h.addr = a →
      byteRead s a = some (h.read[(s.storedByte a).toNat]) ∧
      (∀ b, ∃ t, byteWrite s a b = some t ∧ t.storedByte a = h.write[b.toNat]) ∧
      (lookupCell a.toNat s.mem = none → s.storedByte a = h.init)) ∧
    (¬inside → (∀ h ∈ s.params.handlers, h.addr ≠ a) → s.params.policy = .default →
      byteRead s a = some (s.storedByte a) ∧ (∀ b, ∃ t, byteWrite s a b = some t ∧ t.storedByte a = b) ∧
      (lookupCell a.toNat s.mem = none → s.storedByte a = s.params.mmioDefault)) ∧
    (¬inside → (∀ h ∈ s.params.handlers, h.addr ≠ a) → s.params.policy = .fail →
      byteRead s a = none ∧ (∀ b, byteWrite s a b = none) ∧
      memRead .byte a s = .raise (.memFail a) s ∧ ∀ b, memWrite .byte a b s = .raise (.memFail a) s) ∧
    ∀ b t, byteWrite s a b = some t → (∀ k, k ≠ a → t.storedByte k = s.storedByte k) ∧ { t with mem := s.mem } = s

/-- R57: a word is its two bytes, low byte at the lower address, read and written; a write whose bytes are not all mapped fails with nothing
written, and a read takes the low byte first. -/
def Obligations.WordsAreLittleEndian : Prop :=
  ∀ (s : State) (a v : Word),
    (∀ b, byteRead s a = some b → loadValue s .byte a = .ok (BitVec.ofNat 16 b.toNat)) ∧
    (∀ lo hi, a.toNat % 2 = 0 → byteRead s a = some lo → byteRead s (a + 1#16) = some hi →
      loadValue s .word a = .ok (BitVec.ofNat 16 (lo.toNat + 256 * hi.toNat))) ∧
    (∀ t, byteWrite s a (BitVec.ofNat 8 v.toNat) = some t → storeValue s .byte a v = .ok t) ∧
    (∀ t u, a.toNat % 2 = 0 → byteWrite s a (BitVec.ofNat 8 v.toNat) = some t →
      byteWrite t (a + 1#16) (BitVec.ofNat 8 (v.toNat / 256)) = some u → storeValue s .word a v = .ok u) ∧
    (isMapped s.params a = false → memWrite .byte a v s = .raise (.memFail a) s) ∧
    (a.toNat % 2 = 0 → isMapped s.params a = false → memWrite .word a v s = .raise (.memFail a) s) ∧
    (a.toNat % 2 = 0 → isMapped s.params a → isMapped s.params (a + 1#16) = false →
      memWrite .word a v s = .raise (.memFail (a + 1#16)) s) ∧
    (isMapped s.params a = false → memRead .byte a s = .raise (.memFail a) s) ∧
    (a.toNat % 2 = 0 → isMapped s.params a = false → memRead .word a s = .raise (.memFail a) s) ∧
    (a.toNat % 2 = 0 → isMapped s.params a → isMapped s.params (a + 1#16) = false →
      memRead .word a s = .raise (.memFail (a + 1#16)) s)

/-- R58: a word access at an odd address, of a fetch, a read or a write, raises `MisalignedWord` with nothing done; a byte access never does, and a word
access at an even address never does. -/
def Obligations.WordAccessesAreAligned : Prop :=
  ∀ (s : State) (a v : Word),
    (a.toNat % 2 = 1 →
      memRead .word a s = .raise (.unknown .misalignedWord) s ∧ memWrite .word a v s = .raise (.unknown .misalignedWord) s ∧
      fetchWord a s = .raise (.unknown .misalignedWord) s) ∧
    (∀ w t, (w = .word → a.toNat % 2 = 0) →
      memRead w a s ≠ .raise (.unknown .misalignedWord) t ∧ memWrite w a v s ≠ .raise (.unknown .misalignedWord) t) ∧
    (a.toNat % 2 = 0 → ∀ t, fetchWord a s ≠ .raise (.unknown .misalignedWord) t)

/-- R63, R66: in memory that holds what is written (RAM, NVM, default cells), a value read back is the value written, at either width; every byte
outside the access reads as before; and the canonical form of memory stays. -/
def Obligations.ReadAfterWrite : Prop :=
  ∀ (s t : State) (w : Width) (a v : Word), memWrite w a v s = .ok () t →
    (holdsBytes s.params a → (w = .word → holdsBytes s.params (a + 1#16)) → valueAt t w a = some (BitVec.ofNat 16 (v.toNat % size w))) ∧
    (∀ k, outside w a k → byteRead t k = byteRead s k) ∧
    (Memory.wf s.params s.mem → Memory.wf t.params t.mem) ∧
    ∀ r, t.readReg r = s.readReg r

/-! ### Registers and flags (10_state.md) -/

/-- R29: R3 reads 0, every write to it is discarded, by an instruction and by the host, and no decoded source operand reaches it. -/
def Obligations.R3HasNoStorage : Prop :=
  (∀ (s : State) (v : Word), s.readReg .cg = 0#16 ∧ s.setReg .cg v = s ∧ writeReg .cg v s = s) ∧
  (∀ (s : State) (v : Nat), wellFormedParams s.params →
    hostWriteRegister 3 v s = .done () s ∧ ∃ words, hostReadRegisters s = .done words s ∧ words[3]? = some 0#32) ∧
  (∀ (s : State) (m : Mnemonic) (w : Width) (v : Word), writeLoc m w (.reg .cg) v s = .ok .plain s) ∧
  (∀ as, as < 4 → isConstant (Src.ofFields as 3)) ∧
  ∀ as n, as < 4 → n < 16 → ∀ r, (Src.ofFields as n = .reg r ∨ Src.ofFields as n = .idx r ∨ Src.ofFields as n = .ind r ∨
    Src.ofFields as n = .inc r) → r ≠ .cg

/-- R149: the flag merge writes C, Z, N and V to bits 0, 1, 2 and 8 and leaves the other bits; it comes after the destination write and the PC write,
is left out where SR was the destination, and an operation with no flags leaves SR. The trace says the order: every instruction that completes ends
with the PC write, and then, exactly if it merges flags, the write of SR. That no read of SR for the merge stands between the two is the model's DEDUCED
choice (log entry 9), and so is that the write traced is of the whole SR stored, with a bit that the host stored there (log entry 21). -/
def Obligations.FlagMerge : Prop :=
  (∀ (sr : Word) (f : Flags) (k : Nat), (mergeFlags sr f).getLsbD k =
    if k = 0 then f.c else if k = 1 then f.z else if k = 2 then f.n else if k = 8 then f.v else sr.getLsbD k) ∧
  (∀ (pcNext v : Word) (f : Flags) (s : State),
    let merged := mergeFlags s.sr f
    ((writeBack pcNext (some f) .plain s).sr = merged ∧
      (writeBack pcNext (some f) .plain s).trace = s.trace ++ [.regWrite .pc pcNext, .regWrite .sr merged]) ∧
    ((writeBack pcNext (some f) (.pc v) s).sr = merged ∧ (writeBack pcNext (some f) (.pc v) s).pc = v ∧
      (writeBack pcNext (some f) (.pc v) s).trace = s.trace ++ [.regWrite .pc v, .regWrite .sr merged]) ∧
    ((writeBack pcNext (some f) .sr s).sr = s.sr ∧
      (writeBack pcNext (some f) .sr s).trace = s.trace ++ [.regWrite .pc pcNext]) ∧
    ∀ wr, (writeBack pcNext none wr s).sr = s.sr ∧
      (writeBack pcNext none wr s).trace = s.trace ++ [.regWrite .pc (writeBack pcNext none wr s).pc]) ∧
  ∀ (i : Instr) (s t : State), i.wellFormed → exec i s = .next t →
    ∃ before, t.trace = before ++ if mergesFlags i then [.regWrite .pc t.pc, .regWrite .sr t.sr] else [.regWrite .pc t.pc]

/-! ### fmt1: results and completion (41_fmt1.md) -/

/-- R171: MOV completes with the source's value at the destination and SR as it was; the destination is not read. -/
def Obligations.MovCompletes : Prop :=
  ∀ (w : Width) (src : Src) (dst : Dst) (s : State) (a : Word) (l : Loc), (Instr.mov w src dst).wellFormed →
    srcValue (fmt1Ctx s w src dst) s src = some a → dstLoc (fmt1Ctx s w src dst) s src dst = some l →
    canWrite s .mov w a l → Fmt1Gives (.mov w src dst) w src dst s l a none

/-- R144–R146, R172, R173: ADD and ADDC complete with the sum modulo `2^w` (ADDC with C added), C its carry, V its signed overflow. -/
def Obligations.AddCompletes : Prop :=
  ∀ (w : Width) (src : Src) (dst : Dst) (s : State) (a b : Word) (l : Loc), (Instr.add w src dst).wellFormed →
    srcValue (fmt1Ctx s w src dst) s src = some a → dstLoc (fmt1Ctx s w src dst) s src dst = some l →
    dstValue (fmt1Ctx s w src dst) s src l = some b →
    (canWrite s .add w (sumResult w b a 0) l →
      Fmt1Gives (.add w src dst) w src dst s l (sumResult w b a 0) (some (sumFlags w b a 0))) ∧
    (canWrite s .addc w (sumResult w b a (carryIn s)) l →
      Fmt1Gives (.addc w src dst) w src dst s l (sumResult w b a (carryIn s)) (some (sumFlags w b a (carryIn s))))

/-- R144–R146, R174, R175: SUB and SUBC complete with `dst − src` modulo `2^w` (SUBC with 1 − C taken off too), C the absence of a borrow, V the
signed overflow. -/
def Obligations.SubCompletes : Prop :=
  ∀ (w : Width) (src : Src) (dst : Dst) (s : State) (a b : Word) (l : Loc), (Instr.sub w src dst).wellFormed →
    srcValue (fmt1Ctx s w src dst) s src = some a → dstLoc (fmt1Ctx s w src dst) s src dst = some l →
    dstValue (fmt1Ctx s w src dst) s src l = some b →
    (canWrite s .sub w (diffResult w b a 0) l →
      Fmt1Gives (.sub w src dst) w src dst s l (diffResult w b a 0) (some (diffFlags w b a 0))) ∧
    (canWrite s .subc w (diffResult w b a (1 - carryIn s)) l →
      Fmt1Gives (.subc w src dst) w src dst s l (diffResult w b a (1 - carryIn s)) (some (diffFlags w b a (1 - carryIn s))))

/-- R176, R178: CMP and BIT complete wherever both operands can be read, write no destination, and set the flags of `dst − src` and of
`src AND dst`. -/
def Obligations.CmpBitComplete : Prop :=
  ∀ (w : Width) (src : Src) (dst : Dst) (s : State) (a b : Word) (l : Loc), (Instr.cmp w src dst).wellFormed →
    srcValue (fmt1Ctx s w src dst) s src = some a → dstLoc (fmt1Ctx s w src dst) s src dst = some l →
    dstValue (fmt1Ctx s w src dst) s src l = some b →
    Fmt1Gives (.cmp w src dst) w src dst s .none 0#16 (some (diffFlags w b a 0)) ∧
    Fmt1Gives (.bit w src dst) w src dst s .none 0#16 (some (logicFlags w (a &&& b) false))

/-- R148, R177: on operands whose digits are all decimal, DADD completes with the decimal sum of both and C, its decimal carry, and some V, which
is free (log entry 6). -/
def Obligations.DaddCompletes : Prop :=
  ∀ (w : Width) (src : Src) (dst : Dst) (s : State) (a b : Word) (l : Loc), (Instr.dadd w src dst).wellFormed →
    srcValue (fmt1Ctx s w src dst) s src = some a → dstLoc (fmt1Ctx s w src dst) s src dst = some l →
    dstValue (fmt1Ctx s w src dst) s src l = some b → isDecimal w a → isDecimal w b →
    canWrite s .dadd w (decimalResult w a b (carryIn s)) l →
    ∃ t v, exec (.dadd w src dst) s = .next t ∧
      Completed s t
        (regsAfter (fmt1Ctx s w src dst) s src l (decimalResult w a b (carryIn s)) (some (decimalFlags w a b (carryIn s) v)))
        w l.addr (decimalResult w a b (carryIn s)) (isConstant src) 1

/-- R148, R177: with a digit above 9, DADD still completes: its result is the next free value cut to the width, its four flags are some flags (all of
them free values, log entry 6), and everything else is as for any fmt1 instruction. -/
def Obligations.DaddOnOtherDigits : Prop :=
  ∀ (w : Width) (src : Src) (dst : Dst) (s : State) (a b v : Word) (l : Loc), (Instr.dadd w src dst).wellFormed →
    srcValue (fmt1Ctx s w src dst) s src = some a → dstLoc (fmt1Ctx s w src dst) s src dst = some l →
    dstValue (fmt1Ctx s w src dst) s src l = some b → ¬(isDecimal w a ∧ isDecimal w b) →
    v = freeResult s w → canWrite s .dadd w v l →
    ∃ t f, exec (.dadd w src dst) s = .next t ∧
      Completed s t (regsAfter (fmt1Ctx s w src dst) s src l v (some f)) w l.addr v (isConstant src) 5

/-- R181, R182: XOR and AND complete with the bitwise result, C the complement of Z; V is 0 for AND and "both operands negative" for XOR. -/
def Obligations.XorAndComplete : Prop :=
  ∀ (w : Width) (src : Src) (dst : Dst) (s : State) (a b : Word) (l : Loc), (Instr.xor w src dst).wellFormed →
    srcValue (fmt1Ctx s w src dst) s src = some a → dstLoc (fmt1Ctx s w src dst) s src dst = some l →
    dstValue (fmt1Ctx s w src dst) s src l = some b →
    (canWrite s .xor w (a ^^^ b) l →
      Fmt1Gives (.xor w src dst) w src dst s l (a ^^^ b)
        (some (logicFlags w (a ^^^ b) (decide (half w ≤ a.toNat) && decide (half w ≤ b.toNat))))) ∧
    (canWrite s .and w (a &&& b) l →
      Fmt1Gives (.and w src dst) w src dst s l (a &&& b) (some (logicFlags w (a &&& b) false)))

/-- R179, R180: BIC completes with the source's bits cleared in the destination, BIS with them set, and neither touches a flag. -/
def Obligations.BicBisComplete : Prop :=
  ∀ (w : Width) (src : Src) (dst : Dst) (s : State) (a b : Word) (l : Loc), (Instr.bic w src dst).wellFormed →
    srcValue (fmt1Ctx s w src dst) s src = some a → dstLoc (fmt1Ctx s w src dst) s src dst = some l →
    dstValue (fmt1Ctx s w src dst) s src l = some b →
    (canWrite s .bic w (b &&& ~~~a) l → Fmt1Gives (.bic w src dst) w src dst s l (b &&& ~~~a) none) ∧
    (canWrite s .bis w (b ||| a) l → Fmt1Gives (.bis w src dst) w src dst s l (b ||| a) none)

/-! ### fmt2: results and completion (42_fmt2.md) -/

/-- R191, R193: RRC shifts C in from above and RRA keeps the sign bit; both put bit 0 of the operand in C and clear V. -/
def Obligations.RotatesComplete : Prop :=
  ∀ (w : Width) (src : Src) (s : State) (a : Word), (Instr.rrc w src).wellFormed → isConstant src = false → src ≠ .imm →
    srcValue (fmt2Ctx s w src false) s src = some a →
    (canWrite s .rrc w (shiftResult w a (s.sr.getLsbD 0)) (srcLoc (fmt2Ctx s w src false) s src) →
      RmwGives (.rrc w src) w src s (shiftResult w a (s.sr.getLsbD 0)) (some (shiftFlags w a (shiftResult w a (s.sr.getLsbD 0))))) ∧
    (canWrite s .rra w (shiftResult w a (decide (half w ≤ a.toNat))) (srcLoc (fmt2Ctx s w src false) s src) →
      RmwGives (.rra w src) w src s (shiftResult w a (decide (half w ≤ a.toNat)))
        (some (shiftFlags w a (shiftResult w a (decide (half w ≤ a.toNat))))))

/-- R192, R194: SWPB exchanges the bytes and touches no flag; SXT sign-extends the low byte and sets N, Z, C = not Z and V = 0. -/
def Obligations.ByteOpsComplete : Prop :=
  ∀ (src : Src) (s : State) (a : Word), (Instr.swpb src).wellFormed → isConstant src = false → src ≠ .imm →
    srcValue (fmt2Ctx s .word src false) s src = some a →
    (canWrite s .swpb .word (swapped a) (srcLoc (fmt2Ctx s .word src false) s src) →
      RmwGives (.swpb src) .word src s (swapped a) none) ∧
    (canWrite s .sxt .word (extended a) (srcLoc (fmt2Ctx s .word src false) s src) →
      RmwGives (.sxt src) .word src s (extended a) (some (logicFlags .word (extended a) false)))

/-- R195: with an even SP and a mapped slot, PUSH completes for every source mode: SP moves down by 2 and the operand's bytes are stored
there. -/
def Obligations.PushCompletes : Prop :=
  ∀ (w : Width) (src : Src) (s : State) (a : Word), (Instr.push w src).wellFormed →
    srcValue (fmt2Ctx s w src true) s src = some a → s.sp.toNat % 2 = 0 → canStore s w (s.sp - 2#16) →
    ∃ t, exec (.push w src) s = .next t ∧
      Completed s t
        (fun r => match r with
          | .pc => s.pc + 2#16 + BitVec.ofNat 16 (2 * src.extWords)
          | .sp => s.sp - 2#16
          | .sr => s.sr
          | .cg => 0#16
          | .gp n => regAfterSrc (fmt2Ctx s w src true) s src (.gp n))
        w (some (s.sp - 2#16)) a (isConstant src) 0

/-- R196: with an even SP, a mapped slot and an even target, CALL completes: the address after the call is pushed and PC is the target. -/
def Obligations.CallCompletes : Prop :=
  ∀ (src : Src) (s : State) (a : Word), (Instr.call src).wellFormed →
    srcValue (fmt2Ctx s .word src true) s src = some a → s.sp.toNat % 2 = 0 → canStore s .word (s.sp - 2#16) → a.toNat % 2 = 0 →
    ∃ t, exec (.call src) s = .next t ∧
      Completed s t
        (fun r => match r with
          | .pc => a
          | .sp => s.sp - 2#16
          | .sr => s.sr
          | .cg => 0#16
          | .gp n => regAfterSrc (fmt2Ctx s .word src true) s src (.gp n))
        .word (some (s.sp - 2#16)) (s.pc + 2#16 + BitVec.ofNat 16 (2 * src.extWords)) (isConstant src) 0

/-- R197: RETI completes where the two stack words can be read, the first is a legal SR and the second is even: SR and PC are popped, SP moves up
by 4, nothing is stored. -/
def Obligations.RetiCompletes : Prop :=
  ∀ (s : State) (srv pcv : Word), wordAt s s.sp = some srv → wordAt s (s.sp + 2#16) = some pcv →
    srv &&& ~~~s.params.srMask = 0#16 → pcv.toNat % 2 = 0 →
    ∃ t, exec .reti s = .next t ∧
      Completed s t
        (fun r => match r with
          | .pc => pcv
          | .sp => s.sp + 4#16
          | .sr => srv
          | .cg => 0#16
          | .gp n => s.readReg (.gp n))
        .word none 0#16 false 0

/-- R131, R135, R136: PUSH and CALL read `X(SP)` below SP by 2, and an `@Rn+` operand at Rn; they leave Rn, but that under `SPOnly` they advance
every register but SP. -/
def Obligations.StackOperands : Prop :=
  ∀ (s : State) (w : Width) (x : Word),
    (wordAt s (s.pc + 2#16) = some x →
      srcAddr (fmt2Ctx s w (.idx .sp) true) s (.idx .sp) = some (s.sp - 2#16 + x) ∧
      ∀ n, srcAddr (fmt2Ctx s w (.idx (.gp n)) true) s (.idx (.gp n)) = some (s.readReg (.gp n) + x)) ∧
    (∀ r, srcAddr (fmt2Ctx s w (.inc r) true) s (.inc r) = some (s.readReg r)) ∧
    (∀ r v, valueAt s w (s.readReg r) = some v → srcValue (fmt2Ctx s w (.inc r) true) s (.inc r) = some v) ∧
    (∀ i t, i ∈ stackOf w (.inc .sp) → exec i s = .next t → t.sp = s.sp - 2#16) ∧
    ∀ n i t, i ∈ stackOf w (.inc (.gp n)) → exec i s = .next t →
      t.readReg (.gp n) =
        if s.params.incSuppress = .allRegs then s.readReg (.gp n) else s.readReg (.gp n) + (if w = .word then 2#16 else 1#16)

/-! ### Jumps (43_jump.md) -/

/-- R210–R218: every jump completes, from any state; PC goes to `pc + 2 + 2 × offset` if its condition on SR holds and to `pc + 2` if not; nothing else
changes; the target is even where PC is; the words are as encoded. The trace is the fetch and the PC write: that the condition's read of SR is not in it is
the model's DEDUCED choice (log entry 9). -/
def Obligations.JumpsComplete : Prop :=
  ∀ (off : BitVec 10) (s : State),
    let c := s.sr.getLsbD 0
    let z := s.sr.getLsbD 1
    let n := s.sr.getLsbD 2
    let v := s.sr.getLsbD 8
    (Jumps (.jne off) s off (!z) ∧ Jumps (.jeq off) s off z ∧ Jumps (.jnc off) s off (!c) ∧ Jumps (.jc off) s off c ∧
      Jumps (.jn off) s off n ∧ Jumps (.jge off) s off (n == v) ∧ Jumps (.jl off) s off (n != v) ∧ Jumps (.jmp off) s off true) ∧
    (s.pc.toNat % 2 = 0 → (jumpGoal s.pc off).toNat % 2 = 0) ∧
    (-512 ≤ off.toInt ∧ off.toInt ≤ 511) ∧
    (allJumps off).map (fun i => i.opcodeWord.toNat) =
      [0x2000, 0x2400, 0x2800, 0x2C00, 0x3000, 0x3400, 0x3800, 0x3C00].map (fun k => k + off.toNat) ∧
    ∀ i ∈ allJumps off, i.length = some 2

/-- R176 with R211–R217: after CMP, JEQ, JC and JGE are taken exactly on "equal", "unsigned higher or same" and "signed greater or equal" of the
destination against the source, and JNE, JNC and JL on their negations. That a jump's trace, which `Jumps` states too, holds no read of SR is the model's
DEDUCED choice (log entry 9). -/
def Obligations.CompareThenJump : Prop :=
  ∀ (w : Width) (src : Src) (dst : Dst) (s t : State) (a b : Word) (l : Loc) (off : BitVec 10), (Instr.cmp w src dst).wellFormed →
    srcValue (fmt1Ctx s w src dst) s src = some a → dstLoc (fmt1Ctx s w src dst) s src dst = some l →
    dstValue (fmt1Ctx s w src dst) s src l = some b → exec (.cmp w src dst) s = .next t →
    Jumps (.jeq off) t off (decide (b = a)) ∧ Jumps (.jne off) t off (decide (b ≠ a)) ∧
    Jumps (.jc off) t off (decide (a.toNat ≤ b.toNat)) ∧ Jumps (.jnc off) t off (decide (b.toNat < a.toNat)) ∧
    Jumps (.jge off) t off (decide (signed w a.toNat ≤ signed w b.toNat)) ∧
    Jumps (.jl off) t off (decide (signed w b.toNat < signed w a.toNat))

/-! ### Stubs (44_unsupported.md) -/

/-- R230: each of the nine stubs raises `Unsupported` with its word and address, from any state, with nothing read but the opcode word and nothing
changed; it has no length. -/
def Obligations.StubsRaiseUnsupported : Prop :=
  ∀ (i : Instr) (s : State), isStub i →
    Raises i s .unsupported { s with trace := [.fetch s.pc i.opcodeWord] } ∧ i.length = none

/-! ### Frames: what a next state leaves as it was -/

/-- ADD, ADDC, SUB, SUBC, DADD, XOR and AND: registers but the destination and an auto-incremented source, SR's bits but the flags, the special
state, and every byte outside the stored ones. -/
def Obligations.FrameOfFlagWriters : Prop :=
  ∀ (w : Width) (src : Src) (dst : Dst) (s t : State) (i : Instr), i ∈ fmt1FlagWriters w src dst → i.wellFormed → exec i s = .next t →
    RegistersKept w src (dstReg dst) s t ∧ (dst ≠ .reg .sr → ControlBitsKept s t) ∧ SpecialsKept s t ∧
    (i ≠ .dadd w src dst → t.draws = s.draws) ∧
    (∀ ea, dstLoc (fmt1Ctx s w src dst) s src dst = some (.mem ea) → ∀ a, outside w ea a → byteRead t a = byteRead s a) ∧
    (dst.adBit = 0 → ∀ a, byteRead t a = byteRead s a)

/-- MOV, BIC and BIS: as the flag writers, and all of SR is as it was unless SR is the destination. -/
def Obligations.FrameOfMovBicBis : Prop :=
  ∀ (w : Width) (src : Src) (dst : Dst) (s t : State) (i : Instr), i ∈ [.mov w src dst, .bic w src dst, .bis w src dst] → i.wellFormed →
    exec i s = .next t →
    RegistersKept w src (dstReg dst) s t ∧ (dst ≠ .reg .sr → t.sr = s.sr) ∧ SpecialsKept s t ∧ t.draws = s.draws ∧
    (∀ ea, dstLoc (fmt1Ctx s w src dst) s src dst = some (.mem ea) → ∀ a, outside w ea a → byteRead t a = byteRead s a) ∧
    (dst.adBit = 0 → ∀ a, byteRead t a = byteRead s a)

/-- CMP and BIT: no destination is written, so every byte of memory and every register but an auto-incremented source is as it was; PC is the next
address even where it is the destination. -/
def Obligations.FrameOfCmpBit : Prop :=
  ∀ (w : Width) (src : Src) (dst : Dst) (s t : State) (i : Instr), i ∈ [.cmp w src dst, .bit w src dst] → i.wellFormed →
    exec i s = .next t →
    RegistersKept w src none s t ∧ ControlBitsKept s t ∧ SpecialsKept s t ∧ t.draws = s.draws ∧
    t.pc = s.pc + 2#16 + BitVec.ofNat 16 (2 * src.extWords + 2 * dst.extWords) ∧ ∀ a, byteRead t a = byteRead s a

/-- RRC, RRA, SWPB and SXT: registers but a register operand and an auto-incremented one, SR's control bits (all of SR for SWPB), and every byte
outside the operand's. -/
def Obligations.FrameOfReadModifyWrite : Prop :=
  ∀ (w : Width) (src : Src) (s t : State) (i : Instr), i ∈ rmwOf w src → i.wellFormed → exec i s = .next t →
    RegistersKept w src (srcReg src) s t ∧ (src ≠ .reg .sr → ControlBitsKept s t ∧ (i = .swpb src → t.sr = s.sr)) ∧
    SpecialsKept s t ∧ t.draws = s.draws ∧
    (∀ ea, srcAddr (fmt2Ctx s w src false) s src = some ea → ∀ a, outside w ea a → byteRead t a = byteRead s a) ∧
    ((∃ r, src = .reg r) → ∀ a, byteRead t a = byteRead s a)

/-- PUSH and CALL: registers but SP and an auto-incremented source, all of SR, and every byte outside the stack slot. -/
def Obligations.FrameOfPushCall : Prop :=
  ∀ (w : Width) (src : Src) (s t : State) (i : Instr), i ∈ stackOf w src → i.wellFormed → exec i s = .next t →
    (∀ r, r ≠ .pc → r ≠ .sp → src ≠ .inc r → t.readReg r = s.readReg r) ∧ t.sr = s.sr ∧ SpecialsKept s t ∧ t.draws = s.draws ∧
    ∀ a, outside w (s.sp - 2#16) a → byteRead t a = byteRead s a

/-- RETI: registers but PC, SP and SR, and all of memory. -/
def Obligations.FrameOfReti : Prop :=
  ∀ s t : State, exec .reti s = .next t →
    (∀ r, r ≠ .pc → r ≠ .sp → r ≠ .sr → t.readReg r = s.readReg r) ∧ SpecialsKept s t ∧ t.draws = s.draws ∧ t.mem = s.mem

/-! ### Traps: where a form stops, by name -/

/-- R134: the source `@PC` raises `IndirectPC` in every instruction that has a source, with nothing read. -/
def Obligations.IndirectPcRaises : Prop :=
  ∀ (w : Width) (dst : Dst) (s : State),
    (∀ i ∈ allFmt1 w (.ind .pc) dst, Raises i s .indirectPC { s with trace := [.fetch s.pc i.opcodeWord] }) ∧
    ∀ i ∈ rmwOf w (.ind .pc) ++ stackOf w (.ind .pc), Raises i s .indirectPC { s with trace := [.fetch s.pc i.opcodeWord] }

/-- R139: the destination `X(R3)` raises `IndexedR3Dest` in every fmt1 instruction whose source can be read, before its extension word is fetched and
with the source's auto-increment done. -/
def Obligations.IndexedR3Raises : Prop :=
  ∀ (w : Width) (src : Src) (s : State) (a : Word), src.wellFormed → srcValue (fmt1Ctx s w src (.idx .cg)) s src = some a →
    ∀ i ∈ allFmt1 w src (.idx .cg),
      RaisesQuietly i s .indexedR3Dest (regAfterSrc (fmt1Ctx s w src (.idx .cg)) s src)

/-- R198: RRC, SWPB, RRA and SXT of a constant or an immediate raise `ConstantOperand` before an extension word is fetched; PUSH and CALL accept every
mode and never raise it. -/
def Obligations.ConstantOperandRaises : Prop :=
  (∀ (w : Width) (src : Src) (s : State), (isConstant src ∨ src = .imm) → ∀ i ∈ rmwOf w src,
    Raises i s .constantOperand { s with trace := [.fetch s.pc i.opcodeWord] }) ∧
  ∀ (w : Width) (src : Src) (s : State) (i : Instr) (f : Fault) (word : Option Word) (pcStart : Word), i ∈ stackOf w src →
    exec i s = .fault f → f.report ≠ .unknownBehavior .constantOperand word pcStart

/-- R153: a result in byte width for PC raises `BytePCWrite` and an odd one `OddPC`, in every fmt1 instruction that writes its destination and in RRC,
RRA, SWPB and SXT; PC stays; so does RETI on an odd word, after its SR and SP are written; and CALL to an odd target, after its push. -/
def Obligations.PcWritesAreChecked : Prop :=
  (∀ (src : Src) (s : State) (a : Word), src.wellFormed → srcValue (fmt1Ctx s .byte src (.reg .pc)) s src = some a →
    ∀ i ∈ fmt1Writers .byte src (.reg .pc),
      RaisesQuietly i s .bytePCWrite (regAfterSrc (fmt1Ctx s .byte src (.reg .pc)) s src)) ∧
  (∀ (src : Src) (s : State) (a b : Word), src.wellFormed → srcValue (fmt1Ctx s .word src (.reg .pc)) s src = some a →
    dstValue (fmt1Ctx s .word src (.reg .pc)) s src (.reg .pc) = some b →
    ∀ m i res, (m, i, res) ∈ fmt1Results s .word src (.reg .pc) a b → res.toNat % 2 = 1 →
      RaisesQuietly i s .oddPC (regAfterSrc (fmt1Ctx s .word src (.reg .pc)) s src)) ∧
  (∀ s : State, ∀ i ∈ rmwOf .byte (.reg .pc), RaisesQuietly i s .bytePCWrite s.readReg) ∧
  (∀ s : State, ∀ m i res, (m, i, res) ∈ rmwResults s .word (.reg .pc) (s.pc + 2#16) → res.toNat % 2 = 1 →
    RaisesQuietly i s .oddPC s.readReg) ∧
  (∀ (s : State) (srv pcv : Word), wordAt s s.sp = some srv → wordAt s (s.sp + 2#16) = some pcv →
    srv &&& ~~~s.params.srMask = 0#16 → pcv.toNat % 2 = 1 →
    RaisesQuietly .reti s .oddPC (fun r => if r = .sp then s.sp + 4#16 else if r = .sr then srv else s.readReg r)) ∧
  ∀ (src : Src) (s : State) (a : Word), src.wellFormed → srcValue (fmt2Ctx s .word src true) s src = some a → s.sp.toNat % 2 = 0 →
    canStore s .word (s.sp - 2#16) → a.toNat % 2 = 1 →
    ∃ f, exec (.call src) s = .fault f ∧ f.report = .unknownBehavior .oddPC (some (Instr.call src).opcodeWord) s.pc ∧
      f.after.pc = s.pc ∧ f.after.sp = s.sp - 2#16 ∧
      ∀ k, byteRead f.after k = byteAfter s .word (some (s.sp - 2#16)) (s.pc + 2#16 + BitVec.ofNat 16 (2 * src.extWords)) k

/-- R154: an odd result for SP, at either width, in every fmt1 instruction that writes its destination and in RRC, RRA, SWPB and SXT; an auto-increment
that leaves SP odd, in every fmt1 instruction, RRC and RRA; and PUSH and CALL with an odd SP raise `OddSP`; SP is not written. -/
def Obligations.SpWritesAreChecked : Prop :=
  (∀ (w : Width) (src : Src) (s : State) (a b : Word), src.wellFormed → srcValue (fmt1Ctx s w src (.reg .sp)) s src = some a →
    dstValue (fmt1Ctx s w src (.reg .sp)) s src (.reg .sp) = some b →
    ∀ m i res, (m, i, res) ∈ fmt1Results s w src (.reg .sp) a b → res.toNat % 2 = 1 →
      RaisesQuietly i s .oddSP (regAfterSrc (fmt1Ctx s w src (.reg .sp)) s src)) ∧
  (∀ (w : Width) (s : State), ∀ m i res, (m, i, res) ∈ rmwResults s w (.reg .sp) (BitVec.ofNat 16 (s.sp.toNat % size w)) →
    res.toNat % 2 = 1 → RaisesQuietly i s .oddSP s.readReg) ∧
  (∀ (dst : Dst) (s : State) (b : Byte), byteRead s s.sp = some b → s.sp.toNat % 2 = 1 →
    ∀ i ∈ allFmt1 .byte (.inc .sp) dst ++ rmwOf .byte (.inc .sp), RaisesQuietly i s .oddSP s.readReg) ∧
  ∀ (w : Width) (src : Src) (s : State) (a : Word), src.wellFormed → srcValue (fmt2Ctx s w src true) s src = some a →
    s.sp.toNat % 2 = 1 → ∀ i ∈ stackOf w src, RaisesQuietly i s .oddSP (regAfterSrc (fmt2Ctx s w src true) s src)

/-- R155, R156: SR as a destination, in every fmt1 instruction that writes its destination and in RRC, RRA, SWPB and SXT: byte width first, then an opcode
outside `SR_SAFE`, then a bit outside `SR_WRITABLE_MASK`; and RETI on such a bit. SR stays. R25, R278: with a bit in SR that only the host can have
stored, every instruction that reads SR as a REG operand, source or destination, faults at that read. That this read is the use R278 speaks of, and
that its reason is `SRUnimplementedBits`, is the model's DEDUCED choice (log entry 21). -/
def Obligations.SrWritesAreChecked : Prop :=
  (∀ (src : Src) (s : State) (a : Word), src.wellFormed → srcValue (fmt1Ctx s .byte src (.reg .sr)) s src = some a →
    ∀ i ∈ fmt1Writers .byte src (.reg .sr), i = .mov .byte src (.reg .sr) ∨ srLegal s →
      RaisesQuietly i s .byteSRWrite (regAfterSrc (fmt1Ctx s .byte src (.reg .sr)) s src)) ∧
  (∀ (src : Src) (s : State) (a b : Word), src.wellFormed → srcValue (fmt1Ctx s .word src (.reg .sr)) s src = some a →
    ∀ m i res, (m, i, res) ∈ fmt1Results s .word src (.reg .sr) a b →
      m = .mov ∨ dstValue (fmt1Ctx s .word src (.reg .sr)) s src (.reg .sr) = some b →
      (m ∉ s.params.srSafe →
        RaisesQuietly i s .srUnsafeOpcode (regAfterSrc (fmt1Ctx s .word src (.reg .sr)) s src)) ∧
      (m ∈ s.params.srSafe → res &&& ~~~s.params.srMask ≠ 0#16 →
        RaisesQuietly i s .srUnimplementedBits (regAfterSrc (fmt1Ctx s .word src (.reg .sr)) s src))) ∧
  (∀ s : State, srLegal s → ∀ i ∈ rmwOf .byte (.reg .sr), RaisesQuietly i s .byteSRWrite s.readReg) ∧
  (∀ s : State, srLegal s → ∀ m i res, (m, i, res) ∈ rmwResults s .word (.reg .sr) s.sr →
    (m ∉ s.params.srSafe → RaisesQuietly i s .srUnsafeOpcode s.readReg) ∧
    (m ∈ s.params.srSafe → res &&& ~~~s.params.srMask ≠ 0#16 → RaisesQuietly i s .srUnimplementedBits s.readReg)) ∧
  (∀ (s : State) (srv pcv : Word), wordAt s s.sp = some srv → wordAt s (s.sp + 2#16) = some pcv →
    srv &&& ~~~s.params.srMask ≠ 0#16 → RaisesQuietly .reti s .srUnimplementedBits s.readReg) ∧
  ∀ (s : State) (w : Width), ¬srLegal s →
    (∀ dst, ∀ i ∈ allFmt1 w (.reg .sr) dst ++ rmwOf w (.reg .sr) ++ stackOf w (.reg .sr),
      RaisesQuietly i s .srUnimplementedBits s.readReg) ∧
    ∀ (src : Src) (a : Word), src.wellFormed → srcValue (fmt1Ctx s w src (.reg .sr)) s src = some a →
      ∀ i ∈ allFmt1 w src (.reg .sr), i ≠ .mov w src (.reg .sr) →
        RaisesQuietly i s .srUnimplementedBits (regAfterSrc (fmt1Ctx s w src (.reg .sr)) s src)

/-- R53, R57, R58, R244, R250: where an access cannot be performed the instruction stops with what the access raises, `MisalignedWord` or `MemFail` of
the first unmapped byte, and memory is as it was. The source's extension word and the source in memory: no register is changed. The destination's
extension word, and the destination in memory, read or (by MOV) stored to: the source's auto-increment has been done. The slot of PUSH and CALL: SP has
moved too. The two words of RETI: no register is changed. -/
def Obligations.FailedAccessesStop : Prop :=
  ∀ (w : Width) (src : Src) (dst : Dst) (s : State) (e : Raise), src.wellFormed →
    (src.extWords = 1 → accessError s.params .word (s.pc + 2#16) = some e →
      (∀ i ∈ allFmt1 w src dst ++ stackOf w src, StopsWith i s e s.readReg) ∧
      (src ≠ .imm → ∀ i ∈ rmwOf w src, StopsWith i s e s.readReg)) ∧
    (∀ ea, accessError s.params w ea = some e →
      (srcAddr (fmt1Ctx s w src dst) s src = some ea → ∀ i ∈ allFmt1 w src dst, StopsWith i s e s.readReg) ∧
      (srcAddr (fmt2Ctx s w src false) s src = some ea → ∀ i ∈ rmwOf w src, StopsWith i s e s.readReg) ∧
      (srcAddr (fmt2Ctx s w src true) s src = some ea → ∀ i ∈ stackOf w src, StopsWith i s e s.readReg)) ∧
    (∀ a, srcValue (fmt1Ctx s w src dst) s src = some a →
      (dst.extWords = 1 → dst ≠ .idx .cg →
        accessError s.params .word (s.pc + 2#16 + BitVec.ofNat 16 (2 * src.extWords)) = some e →
        ∀ i ∈ allFmt1 w src dst, StopsWith i s e (regAfterSrc (fmt1Ctx s w src dst) s src)) ∧
      ∀ ea, dstLoc (fmt1Ctx s w src dst) s src dst = some (.mem ea) → accessError s.params w ea = some e →
        ∀ i ∈ allFmt1 w src dst, StopsWith i s e (regAfterSrc (fmt1Ctx s w src dst) s src)) ∧
    (∀ a, srcValue (fmt2Ctx s w src true) s src = some a → s.sp.toNat % 2 = 0 → accessError s.params w (s.sp - 2#16) = some e →
      ∀ i ∈ stackOf w src,
        StopsWith i s e (fun r => if r = .sp then s.sp - 2#16 else regAfterSrc (fmt2Ctx s w src true) s src r)) ∧
    (accessError s.params .word s.sp = some e → StopsWith .reti s e s.readReg) ∧
    (accessError s.params .word s.sp = none → accessError s.params .word (s.sp + 2#16) = some e → StopsWith .reti s e s.readReg)

/-! ### The step (40_pipeline.md R120–R123; 60_exceptions.md) -/

/-- R120, R123: where the word at PC decodes to `i` and is not the halt word, the step is `exec i`, with nothing around it. -/
def Obligations.StepRunsDecoded : Prop :=
  ∀ (s : State) (w : Word) (i : Instr), wellFormedParams s.params → s.faulted = none → wordAt s s.pc = some w →
    w ≠ s.params.haltWord → decodeWord w = .instr i → step s = exec i s

/-- R104, R120: a well-formed instruction whose encoding stands at an even PC, and is not the halt word, is what the step runs. -/
def Obligations.StepRunsEncoded : Prop :=
  ∀ (s : State) (i : Instr), i.wellFormed → wellFormedParams s.params → s.faulted = none → s.pc.toNat % 2 = 0 →
    [byteRead s s.pc, byteRead s (s.pc + 1#16)] = (encode i).map some → i.opcodeWord ≠ s.params.haltWord → step s = exec i s

/-- R122: on the halt word the step ends with `Halted` before decode, and changes no register, no memory and no SR bit; a further step halts again
with no change. -/
def Obligations.HaltWordHalts : Prop :=
  ∀ s : State, wellFormedParams s.params → s.faulted = none → wordAt s s.pc = some s.params.haltWord →
    ∃ t, step s = .next t ∧ t = { s with trace := [.fetch s.pc s.params.haltWord], outcome := some (.halted false) } ∧
      hostStep s = .returned true t.trace false t ∧ step t = .next t

/-- R123, R241: a word that matches no descriptor raises `DecodeFailure` with the word and its address; nothing changes but the fault mark, the
outcome and the trace, which holds the opcode fetch alone. -/
def Obligations.NoMatchRaisesDecodeFailure : Prop :=
  ∀ (s : State) (w : Word) (why : NoMatch), wellFormedParams s.params → s.faulted = none → wordAt s s.pc = some w →
    w ≠ s.params.haltWord → decodeWord w = .noMatch why →
    step s = .fault (.decodeFailure w s.pc
      { s with trace := [.fetch s.pc w], outcome := some (.fault (.decodeFailure w s.pc)), faulted := some (.decodeFailure w s.pc) })

/-- R121, R59: a fetch at an odd PC raises `MisalignedWord`, and one with an unmapped byte `MemFail` of the first such byte; the record has no opcode
word, and no register or memory changes. -/
def Obligations.FetchFaults : Prop :=
  ∀ s : State, wellFormedParams s.params → s.faulted = none →
    (s.pc.toNat % 2 = 1 → ∃ t, step s = .fault (.unknownBehavior .misalignedWord none s.pc t) ∧
      (∀ r, t.readReg r = s.readReg r) ∧ t.mem = s.mem) ∧
    (s.pc.toNat % 2 = 0 → isMapped s.params s.pc = false → ∃ t, step s = .fault (.memFail s.pc none s.pc t) ∧
      (∀ r, t.readReg r = s.readReg r) ∧ t.mem = s.mem) ∧
    (s.pc.toNat % 2 = 0 → isMapped s.params s.pc → isMapped s.params (s.pc + 1#16) = false →
      ∃ t, step s = .fault (.memFail (s.pc + 1#16) none s.pc t) ∧ (∀ r, t.readReg r = s.readReg r) ∧ t.mem = s.mem)

/-- R249: a fault of an instruction leaves PC at it, sets the mark and the outcome to the record it reports, names the instruction's word and address,
and leaves the configuration and the watched ranges. -/
def Obligations.FaultStatesArePrecise : Prop :=
  ∀ (i : Instr) (s : State) (f : Fault), i.wellFormed → exec i s = .fault f →
    f.after.pc = s.pc ∧ f.after.faulted = some f.report ∧ f.after.outcome = some (.fault f.report) ∧
    f.after.params = s.params ∧ f.after.watch = s.watch ∧
    ((∃ reason, f.report = .unknownBehavior reason (some i.opcodeWord) s.pc) ∨
      ∃ a, f.report = .memFail a (some i.opcodeWord) s.pc ∧ isMapped s.params a = false)

/-- R275, R277: a faulted core refuses every step: it reports the same record again and changes nothing. That the trace too stays, where R121 empties it
first, and that it is what `step()` hands over, is the model's DEDUCED choice (log entry 11), and so is the flag, false (log entry 10). -/
def Obligations.FaultedCoreStaysFaulted : Prop :=
  ∀ (s : State) (report : FaultReport), wellFormedParams s.params → s.faulted = some report →
    ∃ f, step s = .fault f ∧ hostStep s = .fault f s.trace false ∧ f.report = report ∧ f.after = s

/-- A configuration is well formed exactly where it meets the conditions of R52 and has no two handlers at one address; a step is refused exactly where
it is not well formed, and there every operation of the host is refused too; no instruction is refused. R52 says that a configuration which breaks its
conditions is refused and has no meaning. The model's DESIGN CHOICE (log entry 15) is the form of that refusal, a refusal of every step and of every host
operation, and that two handlers at one address are refused alike. -/
def Obligations.OnlyBadConfigurationsAreRefused : Prop :=
  (∀ p : Params, wellFormedParams p ↔ MeetsR52 p ∧ OneHandlerEach p) ∧
  (∀ s : State, (∃ r, step s = .refused r) ↔ wellFormedParams s.params = false) ∧
  (∀ (i : Instr) (s : State) (r : Refusal), exec i s ≠ .refused r) ∧
  ∀ s : State, wellFormedParams s.params = false →
    hostStep s = .refused .badConfiguration ∧ (∀ budget, hostRun budget s = .refused .badConfiguration 0) ∧
    hostReset s = .refused ∧ (∀ image, hostProgram image s = .refused) ∧
    hostReadRegisters s = .refused ∧ (∀ index value, hostWriteRegister index value s = .refused) ∧
    (∀ a len, hostReadMemory a len s = .refused) ∧ (∀ a bytes, hostWriteMemory a bytes s = .refused) ∧
    (∀ a len pattern, hostFillMemory a len pattern s = .refused) ∧ ∀ ranges, hostSetWatch ranges s = .refused

/-- R35: no step changes the configuration or the watched ranges, whether it completes or faults. -/
def Obligations.ConfigurationIsFixed : Prop :=
  ∀ s : State, (∀ t, step s = .next t → t.params = s.params ∧ t.watch = s.watch) ∧
    ∀ f, step s = .fault f → f.after.params = s.params ∧ f.after.watch = s.watch

/-- Every step keeps the invariant, in a next state and in the state a fault leaves: memory in canonical form, PC and SP even, SR with no bit that
an instruction may not set. -/
def Obligations.StepKeepsInvariant : Prop :=
  ∀ s : State, Inv s → (∀ t, step s = .next t → Inv t) ∧ ∀ f, step s = .fault f → Inv f.after

/-- The state right after reset meets the invariant. -/
def Obligations.ResetMeetsInvariant : Prop := Inv State.reset

/-- R71, R275: the trace of a word ADD between general registers, and of a PUSH of one, in the order performed; and `step()` hands over the trace and the
flag of the step, with false for `Retired`, true for `Halted` and `Breakpoint`, and the fault. The model's DEDUCED choices: that ADD's trace holds no
read of SR for the flag merge (log entry 9), that the SR write traced is of the SR stored (log entry 21), and that the flag is false with a fault
(log entry 10). -/
def Obligations.TracesInOrder : Prop :=
  (∀ (s : State) (n m : Fin 12), ∃ t, exec (.add .word (.reg (.gp n)) (.reg (.gp m))) s = .next t ∧
    t.trace = [.fetch s.pc (Instr.add .word (.reg (.gp n)) (.reg (.gp m))).opcodeWord, .regRead (.gp n) (s.readReg (.gp n)),
      .regRead (.gp m) (s.readReg (.gp m)), .regWrite (.gp m) (s.readReg (.gp m) + s.readReg (.gp n)), .regWrite .pc (s.pc + 2#16),
      .regWrite .sr t.sr]) ∧
  (∀ s t : State, step s = .next t → ∀ cg,
    (t.outcome = some (.retired cg) → hostStep s = .returned false t.trace cg t) ∧
    (t.outcome = some (.halted cg) ∨ t.outcome = some (.breakpoint cg) → hostStep s = .returned true t.trace cg t)) ∧
  (∀ (s : State) (f : Fault), step s = .fault f → hostStep s = .fault f f.after.trace false) ∧
  ∀ (s : State) (n : Fin 12), s.sp.toNat % 2 = 0 → canStore s .word (s.sp - 2#16) → ∃ t, exec (.push .word (.reg (.gp n))) s = .next t ∧
    t.trace = [.fetch s.pc (Instr.push .word (.reg (.gp n))).opcodeWord, .regRead (.gp n) (s.readReg (.gp n)), .regRead .sp s.sp,
      .regWrite .sp (s.sp - 2#16), .memWrite (s.sp - 2#16) .word (s.readReg (.gp n)), .regWrite .pc (s.pc + 2#16)]

/-! ### The host port (70_reset_and_hazards.md) -/

/-- R270: a reset whose vector bytes are mapped loads PC with the word there, clears SR, the mark, the outcome and the trace, sets SP and R4–R15 to
`RESET_REGS`, and changes no memory; one with an unmapped vector byte reports `MemFail` and sets the mark, with PC anything. That the record in the mark is
then `resetMemFail` of the address, and that SR, SP, R4–R15, the outcome and the trace are as in any reset, is the model's DEDUCED choice (log entry
17), and so is that an odd `RESET_VECTOR` is read like any other (log entry 22). -/
def Obligations.ResetPutsStateInPlace : Prop :=
  ∀ s : State, wellFormedParams s.params →
    (∀ lo hi, byteRead s s.params.resetVector = some lo → byteRead s (s.params.resetVector + 1#16) = some hi →
      hostReset s = .done () { s with
        pc := BitVec.ofNat 16 (lo.toNat + 256 * hi.toNat), sp := s.params.resetSp, sr := 0#16, gp := s.params.resetGp,
        outcome := none, faulted := none, trace := [] }) ∧
    (byteRead s s.params.resetVector = none →
      ∃ t, hostReset s = .memFail s.params.resetVector t ∧
        { t with pc := s.pc, draws := s.draws } = { s with
          sp := s.params.resetSp, sr := 0#16, gp := s.params.resetGp, outcome := none, trace := [],
          faulted := some (.resetMemFail s.params.resetVector) }) ∧
    (∀ lo, byteRead s s.params.resetVector = some lo → byteRead s (s.params.resetVector + 1#16) = none →
      ∃ t, hostReset s = .memFail (s.params.resetVector + 1#16) t ∧
        { t with pc := s.pc, draws := s.draws } = { s with
          sp := s.params.resetSp, sr := 0#16, gp := s.params.resetGp, outcome := none, trace := [],
          faulted := some (.resetMemFail (s.params.resetVector + 1#16)) })

/-- R40 for the model's reset state: SR is 0, no outcome, no mark, no trace; and resetting it changes nothing, so that its PC is the word its own
memory holds at the reset vector. That word, SP and R4–R15 are 0 by the model's choice (log entries 3, 4, 5). -/
def Obligations.ResetStateIsAReset : Prop :=
  hostReset State.reset = .done () State.reset ∧ State.reset.sr = 0#16 ∧ State.reset.outcome = none ∧ State.reset.faulted = none ∧
    State.reset.trace = [] ∧ State.reset.mem = [] ∧ ∀ r, State.reset.readReg r = 0#16

/-- R276, R260: `run(budget)` counts every `step()` call and stops at the budget with `false`, at `Halted` or `Breakpoint` with `true`, or at a
fault. -/
def Obligations.RunCountsSteps : Prop :=
  ∀ (budget : Nat) (s t : State) (n : Nat), wellFormedParams s.params →
    (hostRun budget s = .finished false n t ↔ n = budget ∧ runsOn n s t) ∧
    (hostRun budget s = .finished true n t ↔ n ≤ budget ∧ ∃ m u, n = m + 1 ∧ runsOn m s u ∧ step u = .next t ∧ endsRun t) ∧
    ∀ f, (hostRun budget s = .fault f n ↔ n ≤ budget ∧ ∃ m u, n = m + 1 ∧ runsOn m s u ∧ step u = .fault f)

/-- R22, R41, R278: the host writes a register modulo `2^16` with none of an instruction's checks, stores it as given, refuses an index above 15,
changes nothing else, and reads all sixteen, zero-extended, with element 3 equal to 0: an SR bit that it stored too, which no instruction reads
(`SrWritesAreChecked`; log entry 21, DEDUCED). -/
def Obligations.HostRegisters : Prop :=
  ∀ (s : State) (index value : Nat), wellFormedParams s.params →
    ∃ words, hostReadRegisters s = .done words s ∧ words.length = 16 ∧ (∀ r, words[r.num]? = some ((s.readReg r).setWidth 32)) ∧
      (15 < index → hostWriteRegister index value s = .refused) ∧
      (index ≤ 15 → ∃ t after, hostWriteRegister index value s = .done () t ∧ hostReadRegisters t = .done after t ∧
        (∀ k, k ≤ 15 → after[k]? =
          if k = 3 then some 0#32 else if k = index then some (BitVec.ofNat 32 (value % 65536)) else words[k]?) ∧
        (∀ r, r.num = index → r ≠ .cg → t.readReg r = BitVec.ofNat 16 value) ∧
        { t with pc := s.pc, sp := s.sp, sr := s.sr, gp := s.gp } = s)

/-- R72: a host write to memory that holds bytes writes its bytes and nothing else, a host read gives the bytes there, and a range past 0x10000 is
refused. -/
def Obligations.HostMemory : Prop :=
  ∀ (s : State) (a : Word) (bytes : List Byte), wellFormedParams s.params →
    (0x10000 < a.toNat + bytes.length → hostWriteMemory a bytes s = .refused ∧ hostReadMemory a bytes.length s = .refused) ∧
    (a.toNat + bytes.length ≤ 0x10000 →
      (∀ k, k < bytes.length → holdsBytes s.params (BitVec.ofNat 16 (a.toNat + k))) →
      ∃ t, hostWriteMemory a bytes s = .done () t ∧ hostReadMemory a bytes.length t = .done bytes t ∧
        (∀ k : Word, k.toNat < a.toNat ∨ a.toNat + bytes.length ≤ k.toNat → byteRead t k = byteRead s k) ∧
        { t with mem := s.mem } = s)
end

