-- ==== Sys2Proof/Laws/Decode.lean ====
section
/-! SUPPORT. The small lemmas of the decoder and the encoder: fields and registers back and forth, and a word and its two bytes. -/

namespace Sys2Proof

theorem bits_lt (w : Word) (hi lo : Nat) : bits w hi lo < 2 ^ (hi + 1 - lo) := Nat.mod_lt _ (Nat.pow_pos (by decide))

theorem num_lt (r : Reg) : r.num < 16 := by cases r <;> simp [Reg.num]; omega

theorem num_ofNum {n : Nat} (h : n < 16) : (Reg.ofNum n).num = n := by interval_cases n <;> rfl

theorem ofNum_num (r : Reg) : Reg.ofNum r.num = r := by
  cases r with
  | gp n => revert n; decide
  | _ => rfl

theorem bw_lt (w : Width) : w.bw < 2 := by cases w <;> decide

theorem ofBw_bw (w : Width) : Width.ofBw w.bw = w := by cases w <;> rfl

theorem bw_ofBw {n : Nat} (h : n < 2) : (Width.ofBw n).bw = n := by interval_cases n <;> rfl

theorem src_fields_lt (src : Src) : src.asBits < 4 ∧ src.regField < 16 := by
  cases src <;> simp [Src.asBits, Src.regField, num_lt]

theorem dst_fields_lt (dst : Dst) : dst.adBit < 2 ∧ dst.regField < 16 := by
  cases dst <;> simp [Dst.adBit, Dst.regField, num_lt]

/-- The fields of a well-formed source select it (30_encoding.md R88, R91). -/
theorem ofFields_src (src : Src) (h : src.wellFormed) : Src.ofFields src.asBits src.regField = src := by
  cases src with
  | reg r => cases r <;> first | rfl | (simp [Src.wellFormed] at h; done) | (rename_i n; revert n; decide)
  | idx r => cases r <;> first | rfl | (simp [Src.wellFormed] at h; done) | (rename_i n; revert n; decide)
  | ind r => cases r <;> first | rfl | (simp [Src.wellFormed] at h; done) | (rename_i n; revert n; decide)
  | inc r => cases r <;> first | rfl | (simp [Src.wellFormed] at h; done) | (rename_i n; revert n; decide)
  | _ => rfl

/-- The fields of a well-formed destination select it (30_encoding.md R89, R92). -/
theorem ofFields_dst (dst : Dst) (h : dst.wellFormed) : Dst.ofFields dst.adBit dst.regField = dst := by
  cases dst with
  | reg r => cases r <;> first | rfl | (rename_i n; revert n; decide)
  | idx r => cases r <;> first | rfl | (simp [Dst.wellFormed] at h; done) | (rename_i n; revert n; decide)
  | _ => rfl

/-- The source that fields select is well formed and has those fields. -/
theorem src_ofFields {a n : Nat} (ha : a < 4) (hn : n < 16) :
    (Src.ofFields a n).wellFormed ∧ (Src.ofFields a n).asBits = a ∧ (Src.ofFields a n).regField = n := by
  interval_cases a <;> interval_cases n <;> decide

/-- The destination that fields select is well formed and has those fields. -/
theorem dst_ofFields {a n : Nat} (ha : a < 2) (hn : n < 16) :
    (Dst.ofFields a n).wellFormed ∧ (Dst.ofFields a n).adBit = a ∧ (Dst.ofFields a n).regField = n := by
  interval_cases a <;> interval_cases n <;> decide

/-- A word is made of its two bytes (20_memory.md R57). -/
theorem wordOfBytes_bytes (w : Word) : wordOfBytes (lowByte w) (highByte w) = w := by
  unfold wordOfBytes lowByte highByte
  apply BitVec.eq_of_toNat_eq
  rw [BitVec.toNat_append, ← Nat.shiftLeft_add_eq_or_of_lt (BitVec.isLt _)]
  simp only [BitVec.extractLsb'_toNat, Nat.shiftLeft_eq, Nat.shiftRight_eq_div_pow]
  have := w.isLt
  omega

end Sys2Proof
end

