-- ==== Sys2Proof/Laws/Flags.lean ====
section
/-! SUPPORT. The width arithmetic of Machine/Flags.lean as arithmetic of numbers, and that operands fit in their width. -/

namespace Sys2Proof.Machine

theorem trunc_toNat (w : Width) (v : Word) : (trunc w v).toNat = v.toNat % 2 ^ widthBits w := by
  cases w
  · show (v &&& 255#16).toNat = v.toNat % 2 ^ 8
    rw [BitVec.toNat_and]; exact Nat.and_two_pow_sub_one_eq_mod _ 8
  · show (v &&& 65535#16).toNat = v.toNat % 2 ^ 16
    rw [BitVec.toNat_and]; exact Nat.and_two_pow_sub_one_eq_mod _ 16

theorem trunc_lt (w : Width) (v : Word) : (trunc w v).toNat < 2 ^ widthBits w := by
  rw [trunc_toNat]; exact Nat.mod_lt _ (Nat.pow_pos (by decide))

theorem trunc_of_lt {w : Width} {v : Word} (h : v.toNat < 2 ^ widthBits w) : trunc w v = v := by
  apply BitVec.eq_of_toNat_eq; rw [trunc_toNat, Nat.mod_eq_of_lt h]

/-- The sign of a value is that it reaches half of its range. -/
theorem isNeg_eq (w : Width) (v : Word) : isNeg w v = decide (2 ^ (widthBits w - 1) ≤ v.toNat % 2 ^ widthBits w) := by
  have key : ∀ x : Word, ((x &&& widthMsb w) != 0#16) = decide (x.toNat / 2 ^ (widthBits w - 1) % 2 = 1) := by
    intro x
    rw [Bool.eq_iff_iff, bne_iff_ne, ne_eq, decide_eq_true_eq, ← BitVec.toNat_inj, BitVec.toNat_and]
    cases w
    · show ¬ (x.toNat &&& 2^7) = 0 ↔ x.toNat / 2 ^ 7 % 2 = 1
      rw [Nat.and_two_pow, Nat.testBit_eq_decide_div_mod_eq]
      by_cases h : x.toNat / 2 ^ 7 % 2 = 1 <;> simp
    · show ¬ (x.toNat &&& 2^15) = 0 ↔ x.toNat / 2 ^ 15 % 2 = 1
      rw [Nat.and_two_pow, Nat.testBit_eq_decide_div_mod_eq]
      by_cases h : x.toNat / 2 ^ 15 % 2 = 1 <;> simp
  unfold isNeg
  rw [key, decide_eq_decide, trunc_toNat]
  cases w <;> simp only [widthBits] <;> omega

theorem valueAt_lt {s : State} {w : Width} {a v : Word} (h : valueAt s w a = some v) : v.toNat < 2 ^ widthBits w := by
  cases w
  · simp only [valueAt, Option.map_eq_some_iff] at h
    obtain ⟨b, -, rfl⟩ := h
    have := b.isLt
    simp only [BitVec.toNat_setWidth, widthBits]; omega
  · exact v.isLt

theorem srcValue_lt {ctx : Ctx} {s : State} {src : Src} {v : Word} (h : srcValue ctx s src = some v) :
    v.toNat < 2 ^ widthBits ctx.width := by
  unfold srcValue at h
  split at h
  · unfold operandValue at h
    split at h
    · cases h
    · cases h; exact trunc_lt _ _
  · simp only [Option.map_eq_some_iff] at h; obtain ⟨b, -, rfl⟩ := h; exact trunc_lt _ _
  all_goals first
    | (cases h; exact trunc_lt _ _)
    | (split at h
       · cases h
       · rw [Option.bind_eq_some_iff] at h; obtain ⟨b, -, h⟩ := h; exact valueAt_lt h)

theorem dstValue_lt {ctx : Ctx} {s : State} {src : Src} {l : Loc} {v : Word} (h : dstValue ctx s src l = some v) :
    v.toNat < 2 ^ widthBits ctx.width := by
  unfold dstValue at h
  split at h
  · cases h; exact Nat.pow_pos (by decide)
  · split at h
    · cases h
    · cases h; exact trunc_lt _ _
  · exact valueAt_lt h

end Sys2Proof.Machine
end

