-- ==== Sys2Proof/Laws/HostPort.lean ====
section
/-! SUPPORT. What the guard of every host operation can do, and what `hostStep` makes of each answer of `step`. -/

namespace Sys2Proof.Machine

@[simp] theorem whenConfigured_ok {α : Type} {s : State} (h : wellFormedParams s.params = true) (reply : HostReply α) :
    whenConfigured s reply = reply := if_pos h

@[simp] theorem whenConfigured_bad {α : Type} {s : State} (h : wellFormedParams s.params = false) (reply : HostReply α) :
    whenConfigured s reply = .refused := by simp [whenConfigured, h]

theorem hostStep_of_next {s t : State} (h : step s = .next t) :
    hostStep s = .returned (isTerminal t.outcome) t.trace (cgShortcutOf t.outcome) t := by simp [hostStep, h]

theorem hostStep_of_refused {s : State} {r : Refusal} (h : step s = .refused r) : hostStep s = .refused r := by simp [hostStep, h]

/-- A run of one step and more. -/
theorem runFrom_succ (budget n : Nat) (s : State) :
    runFrom (budget + 1) n s =
      match step s with
      | .next t => if isTerminal t.outcome then .finished true (n + 1) t else runFrom budget (n + 1) t
      | .fault f => .fault f (n + 1)
      | .refused r => .refused r (n + 1) := by
  rw [runFrom, hostStep]
  cases step s with
  | next t => simp only; cases isTerminal t.outcome <;> rfl
  | fault f => rfl
  | refused r => rfl

end Sys2Proof.Machine
end

