-- ==== Sys2Proof/Laws/State.lean ====
section
/-! SUPPORT. The small lemmas of the state updates: one per field per update. -/

namespace Sys2Proof.Machine

variable (s : State)

@[simp] theorem note_pc (e) : (s.note e).pc = s.pc := rfl
@[simp] theorem note_sp (e) : (s.note e).sp = s.sp := rfl
@[simp] theorem note_sr (e) : (s.note e).sr = s.sr := rfl
@[simp] theorem note_gp (e) : (s.note e).gp = s.gp := rfl
@[simp] theorem note_mem (e) : (s.note e).mem = s.mem := rfl
@[simp] theorem note_params (e) : (s.note e).params = s.params := rfl
@[simp] theorem note_watch (e) : (s.note e).watch = s.watch := rfl
@[simp] theorem note_outcome (e) : (s.note e).outcome = s.outcome := rfl
@[simp] theorem note_faulted (e) : (s.note e).faulted = s.faulted := rfl
@[simp] theorem note_trace (e) : (s.note e).trace = s.trace ++ [e] := rfl
@[simp] theorem note_draws (e) : (s.note e).draws = s.draws := rfl

@[simp] theorem startStep_pc (i) : (startStep i s).pc = s.pc := rfl
@[simp] theorem startStep_sp (i) : (startStep i s).sp = s.sp := rfl
@[simp] theorem startStep_sr (i) : (startStep i s).sr = s.sr := rfl
@[simp] theorem startStep_gp (i) : (startStep i s).gp = s.gp := rfl
@[simp] theorem startStep_mem (i) : (startStep i s).mem = s.mem := rfl
@[simp] theorem startStep_params (i) : (startStep i s).params = s.params := rfl
@[simp] theorem startStep_watch (i) : (startStep i s).watch = s.watch := rfl
@[simp] theorem startStep_outcome (i) : (startStep i s).outcome = s.outcome := rfl
@[simp] theorem startStep_faulted (i) : (startStep i s).faulted = s.faulted := rfl
@[simp] theorem startStep_trace (i) : (startStep i s).trace = [.fetch s.pc i.opcodeWord] := rfl
@[simp] theorem startStep_draws (i) : (startStep i s).draws = s.draws := rfl

@[simp] theorem retire_pc (c) : (retire c s).pc = s.pc := rfl
@[simp] theorem retire_sp (c) : (retire c s).sp = s.sp := rfl
@[simp] theorem retire_sr (c) : (retire c s).sr = s.sr := rfl
@[simp] theorem retire_gp (c) : (retire c s).gp = s.gp := rfl
@[simp] theorem retire_mem (c) : (retire c s).mem = s.mem := rfl
@[simp] theorem retire_params (c) : (retire c s).params = s.params := rfl
@[simp] theorem retire_watch (c) : (retire c s).watch = s.watch := rfl
@[simp] theorem retire_outcome (c) :
    (retire c s).outcome = some (if s.trace.any (hitsWatch s.watch) then .breakpoint c else .retired c) := rfl
@[simp] theorem retire_faulted (c) : (retire c s).faulted = s.faulted := rfl
@[simp] theorem retire_trace (c) : (retire c s).trace = s.trace := rfl
@[simp] theorem retire_draws (c) : (retire c s).draws = s.draws := rfl

@[simp] theorem useDraws_pc (n) : (s.useDraws n).pc = s.pc := rfl
@[simp] theorem useDraws_sp (n) : (s.useDraws n).sp = s.sp := rfl
@[simp] theorem useDraws_sr (n) : (s.useDraws n).sr = s.sr := rfl
@[simp] theorem useDraws_gp (n) : (s.useDraws n).gp = s.gp := rfl
@[simp] theorem useDraws_mem (n) : (s.useDraws n).mem = s.mem := rfl
@[simp] theorem useDraws_params (n) : (s.useDraws n).params = s.params := rfl
@[simp] theorem useDraws_watch (n) : (s.useDraws n).watch = s.watch := rfl
@[simp] theorem useDraws_outcome (n) : (s.useDraws n).outcome = s.outcome := rfl
@[simp] theorem useDraws_faulted (n) : (s.useDraws n).faulted = s.faulted := rfl
@[simp] theorem useDraws_trace (n) : (s.useDraws n).trace = s.trace := rfl
@[simp] theorem useDraws_draws (n) : (s.useDraws n).draws = s.draws + n := rfl

@[simp] theorem putByte_pc (a b) : (s.putByte a b).pc = s.pc := rfl
@[simp] theorem putByte_sp (a b) : (s.putByte a b).sp = s.sp := rfl
@[simp] theorem putByte_sr (a b) : (s.putByte a b).sr = s.sr := rfl
@[simp] theorem putByte_gp (a b) : (s.putByte a b).gp = s.gp := rfl
@[simp] theorem putByte_params (a b) : (s.putByte a b).params = s.params := rfl
@[simp] theorem putByte_watch (a b) : (s.putByte a b).watch = s.watch := rfl
@[simp] theorem putByte_outcome (a b) : (s.putByte a b).outcome = s.outcome := rfl
@[simp] theorem putByte_faulted (a b) : (s.putByte a b).faulted = s.faulted := rfl
@[simp] theorem putByte_trace (a b) : (s.putByte a b).trace = s.trace := rfl
@[simp] theorem putByte_draws (a b) : (s.putByte a b).draws = s.draws := rfl

@[simp] theorem markFaulted_pc (r) : (s.markFaulted r).pc = s.pc := rfl
@[simp] theorem markFaulted_sp (r) : (s.markFaulted r).sp = s.sp := rfl
@[simp] theorem markFaulted_sr (r) : (s.markFaulted r).sr = s.sr := rfl
@[simp] theorem markFaulted_gp (r) : (s.markFaulted r).gp = s.gp := rfl
@[simp] theorem markFaulted_mem (r) : (s.markFaulted r).mem = s.mem := rfl
@[simp] theorem markFaulted_params (r) : (s.markFaulted r).params = s.params := rfl
@[simp] theorem markFaulted_watch (r) : (s.markFaulted r).watch = s.watch := rfl
@[simp] theorem markFaulted_outcome (r) : (s.markFaulted r).outcome = some (.fault r) := rfl
@[simp] theorem markFaulted_faulted (r) : (s.markFaulted r).faulted = some r := rfl
@[simp] theorem markFaulted_trace (r) : (s.markFaulted r).trace = s.trace := rfl
@[simp] theorem markFaulted_draws (r) : (s.markFaulted r).draws = s.draws := rfl

@[simp] theorem setReg_mem (r v) : (s.setReg r v).mem = s.mem := by cases r <;> rfl
@[simp] theorem setReg_params (r v) : (s.setReg r v).params = s.params := by cases r <;> rfl
@[simp] theorem setReg_watch (r v) : (s.setReg r v).watch = s.watch := by cases r <;> rfl
@[simp] theorem setReg_outcome (r v) : (s.setReg r v).outcome = s.outcome := by cases r <;> rfl
@[simp] theorem setReg_faulted (r v) : (s.setReg r v).faulted = s.faulted := by cases r <;> rfl
@[simp] theorem setReg_trace (r v) : (s.setReg r v).trace = s.trace := by cases r <;> rfl
@[simp] theorem setReg_draws (r v) : (s.setReg r v).draws = s.draws := by cases r <;> rfl

/-! ### Registers (10_state.md R22, R28, R29) -/

@[simp] theorem readReg_pc : s.readReg .pc = s.pc := rfl
@[simp] theorem readReg_sp : s.readReg .sp = s.sp := rfl
@[simp] theorem readReg_sr : s.readReg .sr = s.sr := rfl
@[simp] theorem readReg_cg : s.readReg .cg = 0#16 := rfl

@[simp] theorem readReg_note (e r) : (s.note e).readReg r = s.readReg r := by cases r <;> rfl
@[simp] theorem readReg_startStep (i r) : (startStep i s).readReg r = s.readReg r := by cases r <;> rfl
@[simp] theorem readReg_retire (c r) : (retire c s).readReg r = s.readReg r := by cases r <;> rfl
@[simp] theorem readReg_useDraws (n r) : (s.useDraws n).readReg r = s.readReg r := by cases r <;> rfl
@[simp] theorem readReg_putByte (a b r) : (s.putByte a b).readReg r = s.readReg r := by cases r <;> rfl
@[simp] theorem readReg_markFaulted (p r) : (s.markFaulted p).readReg r = s.readReg r := by cases r <;> rfl

/-- A register read after a register write: the value written, unless the register is R3 or another one. -/
theorem readReg_setReg (r q : Reg) (v : Word) :
    (s.setReg r v).readReg q = if q = r ∧ r ≠ .cg then v else s.readReg q := by
  cases r <;> cases q <;> simp [State.setReg, State.readReg]
  case gp.gp n m =>
    rw [Vector.getElem_set]
    simp only [Fin.ext_iff, eq_comm]

theorem readReg_writeReg (r q : Reg) (v : Word) :
    (writeReg r v s).readReg q = if q = r ∧ r ≠ .cg then v else s.readReg q := by
  cases r <;> simp [writeReg, readReg_setReg]

@[simp] theorem writeReg_mem (r v) : (writeReg r v s).mem = s.mem := by cases r <;> rfl
@[simp] theorem writeReg_params (r v) : (writeReg r v s).params = s.params := by cases r <;> rfl
@[simp] theorem writeReg_watch (r v) : (writeReg r v s).watch = s.watch := by cases r <;> rfl
@[simp] theorem writeReg_outcome (r v) : (writeReg r v s).outcome = s.outcome := by cases r <;> rfl
@[simp] theorem writeReg_faulted (r v) : (writeReg r v s).faulted = s.faulted := by cases r <;> rfl
@[simp] theorem writeReg_draws (r v) : (writeReg r v s).draws = s.draws := by cases r <;> rfl
theorem writeReg_trace {r : Reg} (h : r ≠ .cg) (v) : (writeReg r v s).trace = s.trace ++ [.regWrite r v] := by
  cases r <;> simp_all [writeReg]

theorem writeReg_pc_of_ne {r : Reg} (h : r ≠ .pc) (v) : (writeReg r v s).pc = s.pc := by
  have := readReg_writeReg s r .pc v
  simpa [h.symm] using this

/-- A register write adds no memory write to the trace. -/
@[simp] theorem writeReg_hits (r v ranges) : (writeReg r v s).trace.any (hitsWatch ranges) = s.trace.any (hitsWatch ranges) := by
  cases r <;> simp [writeReg, hitsWatch]

end Sys2Proof.Machine
end

