-- ==== Sys2Proof/Laws/Memory.lean ====
section
/-! SUPPORT. The laws of memory: a read after a write, and the canonical form that every operation keeps. -/

namespace Sys2Proof.Machine

/-! ### The list of cells -/

theorem lookupCell_insertCell (a k : Nat) (b : Byte) (m : Memory) :
    lookupCell k (insertCell a b m) = if k = a then some b else lookupCell k m := by
  induction m with
  | nil => simp only [insertCell, lookupCell, eq_comm (a := a)]
  | cons c t ih =>
    obtain ⟨j, v⟩ := c
    simp only [insertCell]
    split
    · by_cases h : k = a
      · simp [lookupCell, h]
      · simp [lookupCell, h, Ne.symm h]
    · split
      · rename_i h1 h2
        subst h2
        by_cases h : k = a
        · simp [lookupCell, h]
        · simp [lookupCell, h, Ne.symm h]
      · rename_i h1 h2
        by_cases h : j = k
        · subst h
          have : ¬j = a := fun e => h2 e.symm
          simp [lookupCell, this]
        · simp [lookupCell, h, ih]

theorem lookupCell_removeCell (a k : Nat) (m : Memory) :
    lookupCell k (removeCell a m) = if k = a then none else lookupCell k m := by
  induction m with
  | nil => simp [removeCell, lookupCell]
  | cons c t ih =>
    obtain ⟨j, v⟩ := c
    unfold removeCell at ih ⊢
    by_cases hj : j = a
    · subst hj
      simp only [List.filter_cons, bne_self_eq_false, Bool.false_eq_true, ↓reduceIte, ih]
      by_cases h : k = j
      · simp [h]
      · simp [h, lookupCell, Ne.symm h]
    · simp only [List.filter_cons, bne_iff_ne, ne_eq, hj, not_false_eq_true, ↓reduceIte, lookupCell, ih]
      by_cases h : j = k
      · subst h; simp [hj]
      · simp [h]

/-- The byte an address holds after a byte was set. -/
theorem lookupCell_setCell (init : Byte) (a k : Nat) (b : Byte) (m : Memory) (d : Byte) (hd : k = a → d = init) :
    (lookupCell k (setCell init a b m)).getD d = if k = a then b else (lookupCell k m).getD d := by
  unfold setCell
  split
  · rename_i hb
    rw [lookupCell_removeCell]
    by_cases h : k = a
    · simp [h, hd h, hb]
    · simp [h]
  · rw [lookupCell_insertCell]
    by_cases h : k = a <;> simp [h]

/-! ### The canonical form -/

theorem rising_weaken {l : Option Nat} {m : Memory} {j : Nat} (h : Memory.rising (some j) m)
    (hl : ∀ i, l = some i → i ≤ j) : Memory.rising l m := by
  cases m with
  | nil => cases l <;> rfl
  | cons c t =>
    obtain ⟨k, v⟩ := c
    simp only [Memory.rising, Bool.and_eq_true, decide_eq_true_eq] at h ⊢
    refine ⟨?_, h.2⟩
    cases l with
    | none => rfl
    | some i => simpa using Nat.lt_of_le_of_lt (hl i rfl) h.1

theorem rising_removeCell (a : Nat) (m : Memory) (l : Option Nat) (h : Memory.rising l m) :
    Memory.rising l (removeCell a m) := by
  induction m generalizing l with
  | nil => exact h
  | cons c t ih =>
    obtain ⟨k, v⟩ := c
    simp only [Memory.rising, Bool.and_eq_true] at h
    unfold removeCell at ih ⊢
    simp only [List.filter_cons]
    split
    · simp only [Memory.rising, Bool.and_eq_true]
      exact ⟨h.1, ih _ h.2⟩
    · refine rising_weaken (ih _ h.2) ?_
      intro i hi
      subst hi
      exact Nat.le_of_lt (by simpa using h.1)

theorem rising_insertCell (a : Nat) (b : Byte) (m : Memory) (l : Option Nat) (h : Memory.rising l m)
    (hl : ∀ i, l = some i → i < a) : Memory.rising l (insertCell a b m) := by
  induction m generalizing l with
  | nil =>
    cases l with
    | none => rfl
    | some i => simpa [insertCell, Memory.rising] using hl i rfl
  | cons c t ih =>
    obtain ⟨k, v⟩ := c
    simp only [Memory.rising, Bool.and_eq_true] at h
    simp only [insertCell]
    split
    · rename_i hak
      simp only [Memory.rising, Bool.and_eq_true, decide_eq_true_eq]
      refine ⟨?_, hak, h.2⟩
      cases l with
      | none => rfl
      | some i => simpa using hl i rfl
    · split
      · rename_i h1 h2
        subst h2
        simp only [Memory.rising, Bool.and_eq_true]
        exact h
      · simp only [Memory.rising, Bool.and_eq_true]
        refine ⟨h.1, ih _ h.2 ?_⟩
        intro i hi
        cases hi
        omega

theorem mem_insertCell {a : Nat} {b : Byte} {m : Memory} {c : Host.Cell} (h : c ∈ insertCell a b m) :
    c = (a, b) ∨ c ∈ m := by
  induction m with
  | nil => simpa [insertCell] using h
  | cons d t ih =>
    obtain ⟨k, v⟩ := d
    simp only [insertCell] at h
    split at h
    · simpa using h
    · split at h
      · rcases List.mem_cons.1 h with h | h
        · exact .inl h
        · exact .inr (List.mem_cons_of_mem _ h)
      · rcases List.mem_cons.1 h with h | h
        · exact .inr (h ▸ List.mem_cons_self)
        · exact (ih h).imp id (List.mem_cons_of_mem _)

/-- Setting a byte keeps the canonical form. -/
theorem wf_setCell (p : Params) (a : Nat) (b : Byte) (m : Memory) (ha : a < 0x10000) (h : Memory.wf p m) :
    Memory.wf p (setCell (initialByte p a) a b m) := by
  simp only [Memory.wf, Bool.and_eq_true, List.all_eq_true] at h ⊢
  unfold setCell
  split
  · exact ⟨rising_removeCell _ _ _ h.1, fun c hc => h.2 c (List.mem_filter.1 hc).1⟩
  · rename_i hb
    refine ⟨rising_insertCell _ _ _ _ h.1 (by simp), fun c hc => ?_⟩
    rcases mem_insertCell hc with rfl | hc
    · simp [ha, hb]
    · exact h.2 c hc

theorem wf_putByte (s : State) (a : Word) (b : Byte) (h : Memory.wf s.params s.mem) :
    Memory.wf s.params (s.putByte a b).mem :=
  wf_setCell _ _ _ _ a.isLt h

theorem wf_reset : Memory.wf State.reset.params State.reset.mem = true := rfl

/-! ### Bytes -/

/-- The stored byte of an address after a byte was written (20_memory.md R54, R56). -/
theorem storedByte_putByte (s : State) (a k : Word) (b : Byte) :
    (s.putByte a b).storedByte k = if k = a then writeThrough s.params a.toNat b else s.storedByte k := by
  unfold State.storedByte
  show (lookupCell k.toNat (setCell _ _ _ s.mem)).getD (initialByte s.params k.toNat) = _
  rw [lookupCell_setCell _ _ _ _ _ _ (fun h => by rw [h])]
  simp only [BitVec.toNat_inj]

/-- A byte read after a byte write: the written byte as its cell gives it back, and every other byte as before (20_memory.md R55, R56). -/
theorem byteRead_putByte (s : State) (a k : Word) (b : Byte) :
    byteRead (s.putByte a b) k =
      if k = a then (if isMapped s.params a then some (readBack s.params a b) else none) else byteRead s k := by
  unfold byteRead
  rw [storedByte_putByte]
  by_cases h : k = a
  · subst h; simp [readBack]
  · simp [h]

/-- A byte read depends on memory and the configuration alone. -/
theorem byteRead_congr {s t : State} (hm : t.mem = s.mem) (hp : t.params = s.params) (a : Word) :
    byteRead t a = byteRead s a := by
  simp [byteRead, State.storedByte, hm, hp]

theorem wordAt_congr {s t : State} (hm : t.mem = s.mem) (hp : t.params = s.params) (a : Word) :
    wordAt t a = wordAt s a := by
  simp [wordAt, byteRead_congr hm hp]

theorem valueAt_congr {s t : State} (hm : t.mem = s.mem) (hp : t.params = s.params) (w : Width) (a : Word) :
    valueAt t w a = valueAt s w a := by
  cases w <;> simp [valueAt, byteRead_congr hm hp, wordAt_congr hm hp]

@[simp] theorem byteRead_note (s : State) (e a) : byteRead (s.note e) a = byteRead s a := rfl
@[simp] theorem byteRead_startStep (s : State) (i a) : byteRead (startStep i s) a = byteRead s a := rfl
@[simp] theorem byteRead_retire (s : State) (c a) : byteRead (retire c s) a = byteRead s a := rfl
@[simp] theorem byteRead_useDraws (s : State) (n a) : byteRead (s.useDraws n) a = byteRead s a := rfl
@[simp] theorem byteRead_writeReg (s : State) (r v a) : byteRead (writeReg r v s) a = byteRead s a :=
  byteRead_congr (by simp) (by simp) a

/-- A byte can be read exactly where it is mapped. -/
theorem byteRead_isSome (s : State) (a : Word) : (byteRead s a).isSome = isMapped s.params a := by
  unfold byteRead
  split <;> simp_all

end Sys2Proof.Machine
end

