-- ==== Sys2Proof/Laws/Ops.lean ====
section
/-! SUPPORT. What the shared operations over registers and memory can do, once each: where an access is performed, what it leaves, and what stays
as it was. -/

namespace Sys2Proof.Machine

/-! ### Results -/

@[simp] theorem andThen_ok {α β : Type} (a : α) (s : State) (f : α → State → Res β) : (Res.ok a s).andThen f = f a s := rfl
@[simp] theorem andThen_raise {α β : Type} (e : Raise) (s : State) (f : α → State → Res β) :
    (Res.raise e s).andThen f = .raise e s := rfl

theorem andThen_eq_ok {α β : Type} {r : Res α} {f : α → State → Res β} {b : β} {t : State} (h : r.andThen f = .ok b t) :
    ∃ a s, r = .ok a s ∧ f a s = .ok b t := by
  cases r with
  | ok a s => exact ⟨a, s, rfl, h⟩
  | raise e s => cases h

/-- Every state a result can hold, after success or a raise. -/
def Res.All {α : Type} (r : Res α) (P : State → Prop) : Prop :=
  match r with
  | .ok _ s => P s
  | .raise _ s => P s

theorem all_andThen {α β : Type} {r : Res α} {f : α → State → Res β} {P : State → Prop} (h : r.All P)
    (hf : ∀ a s, r = .ok a s → P s → (f a s).All P) : (r.andThen f).All P := by
  cases r with
  | ok a s => exact hf a s rfl h
  | raise e s => exact h

theorem finishStep_ok (i : Instr) (pc : Word) (cg : Bool) (t : State) : finishStep i pc (.ok cg t) = .next (retire cg t) := rfl

theorem finishStep_raise (i : Instr) (pc : Word) (e : Raise) (t : State) :
    finishStep i pc (.raise e t) = .fault (takeFault (e.report (some i.opcodeWord) pc) t) := rfl

theorem finishStep_eq_next {i : Instr} {pc : Word} {r : Res Bool} {t : State} (h : finishStep i pc r = .next t) :
    ∃ cg s, r = .ok cg s ∧ t = retire cg s := by
  cases r with
  | ok cg s => exact ⟨cg, s, rfl, (by simpa [finishStep] using h.symm)⟩
  | raise e s => cases h

/-- What taking a fault leaves (60_exceptions.md R249). -/
theorem takeFault_after (rep : FaultReport) (s : State) : (takeFault rep s).after = s.markFaulted rep := by
  cases rep <;> rfl

theorem takeFault_report (rep : FaultReport) (s : State) : (takeFault rep s).report = rep := by
  cases rep <;> rfl

/-! ### What a routine that writes no memory leaves -/

/-- Nothing but registers and the trace changes, and the trace gains no memory write. -/
structure Quiet (s t : State) : Prop where
  mem     : t.mem = s.mem
  params  : t.params = s.params
  watch   : t.watch = s.watch
  faulted : t.faulted = s.faulted
  draws   : t.draws = s.draws
  hits    : ∀ ranges, t.trace.any (hitsWatch ranges) = s.trace.any (hitsWatch ranges)

theorem Quiet.refl (s : State) : Quiet s s := ⟨rfl, rfl, rfl, rfl, rfl, fun _ => rfl⟩

theorem Quiet.trans {s t u : State} (h : Quiet s t) (k : Quiet t u) : Quiet s u :=
  ⟨k.mem.trans h.mem, k.params.trans h.params, k.watch.trans h.watch, k.faulted.trans h.faulted, k.draws.trans h.draws,
    fun r => (k.hits r).trans (h.hits r)⟩

theorem Quiet.byteRead {s t : State} (h : Quiet s t) (a : Word) : byteRead t a = Machine.byteRead s a :=
  byteRead_congr h.mem h.params a

theorem Quiet.wordAt {s t : State} (h : Quiet s t) (a : Word) : wordAt t a = Machine.wordAt s a :=
  wordAt_congr h.mem h.params a

theorem Quiet.valueAt {s t : State} (h : Quiet s t) (w : Width) (a : Word) : valueAt t w a = Machine.valueAt s w a :=
  valueAt_congr h.mem h.params w a

theorem Quiet.canStore {s t : State} (h : Quiet s t) (w : Width) (a : Word) : canStore t w a = Machine.canStore s w a := by
  simp [Machine.canStore, h.params]

theorem quiet_note (s : State) {e : TraceEntry} (h : ∀ ranges, hitsWatch ranges e = false) : Quiet s (s.note e) :=
  ⟨rfl, rfl, rfl, rfl, rfl, fun r => by simp [h r]⟩

theorem quiet_noteRead (s : State) (r v) : Quiet s (s.note (.regRead r v)) := quiet_note s fun _ => rfl
theorem quiet_noteMem (s : State) (a w v) : Quiet s (s.note (.memRead a w v)) := quiet_note s fun _ => rfl
theorem quiet_noteFetch (s : State) (a v) : Quiet s (s.note (.fetch a v)) := quiet_note s fun _ => rfl

theorem quiet_writeReg (s : State) (r v) : Quiet s (writeReg r v s) :=
  ⟨by simp, by simp, by simp, by simp, by simp, fun _ => by simp⟩

/-! ### Reads -/

/-- An access is read exactly where the value is there (20_memory.md R57, R58). -/
theorem loadValue_eq_ok (s : State) (w : Width) (a v : Word) : loadValue s w a = .ok v ↔ valueAt s w a = some v := by
  cases w <;> simp only [loadValue, valueAt, wordAt]
  · cases byteRead s a <;> simp
  · split
    · simp
    · cases byteRead s a <;> simp
      cases byteRead s (a + 1#16) <;> simp

theorem loadValue_none {s : State} {w : Width} {a : Word} (h : valueAt s w a = none) : ∃ e, loadValue s w a = .error e := by
  cases hl : loadValue s w a with
  | error e => exact ⟨e, rfl⟩
  | ok v => rw [(loadValue_eq_ok s w a v).1 hl] at h; cases h

theorem memRead_ok {s : State} {w : Width} {a v : Word} (h : valueAt s w a = some v) :
    memRead w a s = .ok v (s.note (.memRead a w v)) := by
  simp [memRead, (loadValue_eq_ok s w a v).2 h]

theorem memRead_none {s : State} {w : Width} {a : Word} (h : valueAt s w a = none) : ∃ e, memRead w a s = .raise e s := by
  obtain ⟨e, he⟩ := loadValue_none h
  exact ⟨e, by simp [memRead, he]⟩

theorem fetchWord_ok {s : State} {a v : Word} (h : wordAt s a = some v) : fetchWord a s = .ok v (s.note (.fetch a v)) := by
  simp [fetchWord, (loadValue_eq_ok s .word a v).2 h]

theorem fetchWord_none {s : State} {a : Word} (h : wordAt s a = none) : ∃ e, fetchWord a s = .raise e s := by
  obtain ⟨e, he⟩ := loadValue_none (w := .word) h
  exact ⟨e, by simp [fetchWord, he]⟩

/-! ### Writes -/

/-- A store at an address hits a watched range (60_exceptions.md R247). -/
def storeHits (ranges : List (Nat × Nat)) (w : Width) (ea : Word) : Bool :=
  isWatched ranges ea || (w == .word && isWatched ranges (ea + 1#16))

theorem hitsWatch_memWrite (ranges w ea v) : hitsWatch ranges (.memWrite ea w v) = storeHits ranges w ea := by
  cases w <;> simp [hitsWatch, storeHits]

/-- What a store leaves: the bytes as `byteAfter` says, the canonical form, and every register as it was. -/
structure Stored (s t : State) (w : Width) (ea v : Word) : Prop where
  bytes   : ∀ a, byteRead t a = byteAfter s w (some ea) v a
  wf      : Memory.wf s.params s.mem → Memory.wf t.params t.mem
  regs    : ∀ r, t.readReg r = s.readReg r
  params  : t.params = s.params
  watch   : t.watch = s.watch
  faulted : t.faulted = s.faulted
  draws   : t.draws = s.draws
  hits    : ∀ ranges, t.trace.any (hitsWatch ranges) = (s.trace.any (hitsWatch ranges) || storeHits ranges w ea)

/-- A store that is performed. -/
theorem memWrite_ok {s : State} {w : Width} {ea : Word} (v : Word) (h : canStore s w ea) :
    ∃ t, memWrite w ea v s = .ok () t ∧ Stored s t w ea v := by
  cases w
  case byte =>
    simp only [canStore] at h
    refine ⟨(s.putByte ea (lowByte v)).note (.memWrite ea .byte v), by simp [memWrite, storeValue, h], ?_, ?_, ?_, rfl, rfl, rfl, rfl, ?_⟩
    · intro a
      rw [byteRead_note, byteRead_putByte, h]
      by_cases ha : a = ea
      · subst ha; simp [byteAfter]
      · simp [byteAfter, ha]
    · exact wf_putByte s ea _
    · intro r; simp
    · intro ranges
      simp [List.any_append, hitsWatch_memWrite]
  case word =>
    simp only [canStore, Bool.and_eq_true, Bool.not_eq_true'] at h
    obtain ⟨⟨ho, h0⟩, h1⟩ := h
    refine ⟨((s.putByte ea (lowByte v)).putByte (ea + 1#16) (highByte v)).note (.memWrite ea .word v), by
      simp [memWrite, storeValue, ho, h0, h1], ?_, ?_, ?_, rfl, rfl, rfl, rfl, ?_⟩
    · intro a
      rw [byteRead_note, byteRead_putByte, byteRead_putByte]
      simp only [putByte_params, h0, h1]
      have hne : ea ≠ ea + 1#16 := by
        intro e
        have := congrArg BitVec.toNat e
        simp [BitVec.toNat_add] at this
        omega
      by_cases ha : a = ea
      · subst ha; simp [byteAfter, hne]
      · by_cases ha1 : a = ea + 1#16
        · subst ha1; simp [byteAfter, ha]
        · simp [byteAfter, ha, ha1]
    · intro hw
      exact wf_putByte _ _ _ (by simpa using wf_putByte s ea _ hw)
    · intro r; simp
    · intro ranges
      simp [List.any_append, hitsWatch_memWrite]

/-- A store that is not performed raises and leaves the state as it was (20_memory.md R57). -/
theorem memWrite_not {s : State} {w : Width} {ea : Word} (v : Word) (h : canStore s w ea = false) :
    ∃ e, memWrite w ea v s = .raise e s := by
  cases w
  · simp only [canStore] at h
    exact ⟨_, by simp [memWrite, storeValue, h]; rfl⟩
  · by_cases ho : isOdd ea
    · exact ⟨_, by simp [memWrite, storeValue, ho]; rfl⟩
    · by_cases h0 : isMapped s.params ea
      · by_cases h1 : isMapped s.params (ea + 1#16)
        · simp [canStore, ho, h0, h1] at h
        · exact ⟨_, by simp [memWrite, storeValue, ho, h0, h1]; rfl⟩
      · exact ⟨_, by simp [memWrite, storeValue, ho, h0]; rfl⟩

/-! ### The stack pointer -/

theorem writeSp_even {s : State} {v : Word} (h : isOdd v = false) : writeSp v s = .ok () (writeReg .sp v s) := by
  simp [writeSp, h]

theorem writeSp_odd {s : State} {v : Word} (h : isOdd v = true) : writeSp v s = .raise (.unknown .oddSP) s := by
  simp [writeSp, h]

end Sys2Proof.Machine
end

