-- ==== Sys2Proof/Laws/Operands.lean ====
section
/-! SUPPORT. What the addressing-mode resolver and Write-Back can do, once each: a source routine completes exactly where `srcValue` has a
value, a destination routine where `dstLoc` has a location, a write where `canWrite` allows it; and what each leaves. -/

namespace Sys2Proof.Machine

/-! ### Source routines (40_pipeline.md R128–R137) -/

theorem regAfterSrc_of_not_inc {ctx : Ctx} {s : State} {src : Src} (h : ∀ r, src ≠ .inc r) (r : Reg) :
    regAfterSrc ctx s src r = s.readReg r := by
  simp [regAfterSrc, h r]

theorem sourceAt_ok {ctx : Ctx} {ea c : Word} {s : State} {v : Word} (h : valueAt s ctx.width ea = some v) :
    sourceAt ctx ea c s = .ok ⟨v, .mem ea, c⟩ (s.note (.memRead ea ctx.width v)) := by
  simp [sourceAt, memRead_ok h]

theorem sourceAt_none {ctx : Ctx} {ea c : Word} {s : State} (h : valueAt s ctx.width ea = none) :
    ∃ e, sourceAt ctx ea c s = .raise e s := by
  obtain ⟨e, he⟩ := memRead_none h
  exact ⟨e, by simp [sourceAt, he]⟩

/-- SR has a bit that the host stored exactly where it is not legal. -/
theorem hasHostBits_iff (s : State) : hasHostBits s.params s.sr = true ↔ ¬srLegal s := by
  simp [hasHostBits, srLegal]

theorem operandValue_legal {ctx : Ctx} {s : State} {r : Reg} (h : r = .sr → srLegal s) :
    operandValue ctx s r = some (trunc ctx.width (operandReg ctx s r)) := by
  rw [operandValue, if_neg]
  exact fun ⟨hr, hb⟩ => (hasHostBits_iff s).1 hb (h hr)

/-- The read of an SR that the host left illegal raises. -/
theorem readOperandReg_illegal {ctx : Ctx} {s : State} (h : ¬srLegal s) :
    readOperandReg ctx .sr s = .raise (.unknown .srUnimplementedBits) s := by
  rw [readOperandReg, if_pos ⟨rfl, (hasHostBits_iff s).2 h⟩]

theorem srcValue_reg (ctx : Ctx) (s : State) (r : Reg) : srcValue ctx s (.reg r) = operandValue ctx s r := rfl

theorem readOperandReg_ok {ctx : Ctx} {s : State} {r : Reg} {v : Word} (h : operandValue ctx s r = some v) :
    ∃ t, readOperandReg ctx r s = .ok v t ∧ Quiet s t ∧ ∀ q, t.readReg q = s.readReg q := by
  unfold operandValue at h
  split at h
  · cases h
  · rename_i hs
    cases h
    exact ⟨_, by rw [readOperandReg, if_neg hs], quiet_noteRead _ _ _, fun q => readReg_note ..⟩

theorem readOperandReg_none {ctx : Ctx} {s : State} {r : Reg} (h : operandValue ctx s r = none) :
    ∃ e, readOperandReg ctx r s = .raise e s := by
  unfold operandValue at h
  split at h
  · rename_i hs
    exact ⟨_, by rw [readOperandReg, if_pos hs]⟩
  · cases h

/-- The value of a REG destination is that of the operand as the source routine leaves it. -/
theorem dstValue_reg {ctx : Ctx} {s s1 : State} {src : Src} {r : Reg} (hq : Quiet s s1)
    (hreg : ∀ r, s1.readReg r = regAfterSrc ctx s src r) : dstValue ctx s src (.reg r) = operandValue ctx s1 r := by
  cases r <;> simp [dstValue, operandValue, operandReg, hq.params, ← hreg]

theorem valueAt_note (s : State) (e w a) : valueAt (s.note e) w a = valueAt s w a := valueAt_congr rfl rfl w a
theorem wordAt_note (s : State) (e a) : wordAt (s.note e) a = wordAt s a := wordAt_congr rfl rfl a

/-- The cursor after a source mode with an extension word. -/
theorem dstExtAddr_ext {src : Src} (h : src.extWords = 1) (s : State) : dstExtAddr s src = srcExtAddr s + 2#16 := by
  simp [dstExtAddr, srcExtAddr, h]

/-- The cursor after a source mode without one. -/
theorem dstExtAddr_noExt {src : Src} (h : src.extWords = 0) (s : State) : dstExtAddr s src = srcExtAddr s := by
  simp [dstExtAddr, srcExtAddr, h]

theorem autoIncrement_ok {ctx : Ctx} {r : Reg} {s : State} (hr : r ≠ .cg)
    (h : (r = .sp → (!incSuppressed ctx s.params .sp && isOdd (s.sp + 2#16)) = false)) :
    ∃ t, autoIncrement ctx r s = .ok () t ∧ Quiet s t ∧ ∀ q, t.readReg q = regAfterSrc ctx s (.inc r) q := by
  unfold autoIncrement
  by_cases hs : incSuppressed ctx s.params r = true
  · refine ⟨s, by simp [hs], Quiet.refl s, fun q => ?_⟩
    by_cases hq : r = q
    · subst hq; simp [regAfterSrc, hs]
    · simp [regAfterSrc, hq]
  · simp only [Bool.not_eq_true] at hs
    have hw : ∀ q, (writeReg r (s.readReg r + incAmount ctx.width r) s).readReg q = regAfterSrc ctx s (.inc r) q := by
      intro q
      rw [readReg_writeReg]
      by_cases hq : q = r
      · subst hq; simp [regAfterSrc, hs, hr]
      · simp [regAfterSrc, hq, Ne.symm hq]
    by_cases hsp : r = .sp
    · subst hsp
      have ho : isOdd (s.sp + 2#16) = false := by simpa [hs] using h rfl
      refine ⟨writeReg .sp (s.sp + 2#16) s, by simp [hs, incAmount, writeSp_even ho], quiet_writeReg s .sp _, fun q => ?_⟩
      simpa [incAmount] using hw q
    · exact ⟨_, by simp [hs, hsp], quiet_writeReg s r _, hw⟩

/-- A source operand that can be read is delivered: its value, its location, and the cursor after its extension word; only the auto-increment
changes a register, and no memory changes. -/
theorem readSource_ok {ctx : Ctx} {s : State} {src : Src} {v : Word} (hwf : src.wellFormed) (h : srcValue ctx s src = some v) :
    ∃ t, readSource ctx src (srcExtAddr s) s = .ok ⟨v, srcLoc ctx s src, dstExtAddr s src⟩ t ∧ Quiet s t ∧
      ∀ r, t.readReg r = regAfterSrc ctx s src r := by
  cases src with
  | reg r =>
    rw [srcValue_reg] at h
    obtain ⟨t, ht, hq, hr⟩ := readOperandReg_ok h
    exact ⟨t, by simp [readSource, ht, srcLoc, dstExtAddr_noExt (src := .reg r) rfl], hq,
      fun q => by simp [regAfterSrc, hr q]⟩
  | imm =>
    simp only [srcValue, Option.map_eq_some_iff] at h
    obtain ⟨x, hx, rfl⟩ := h
    refine ⟨s.note (.fetch (srcExtAddr s) x), ?_, quiet_noteFetch _ _ _, fun q => by simp [regAfterSrc]⟩
    simp [readSource, fetchWord_ok hx, srcLoc, dstExtAddr_ext (src := .imm) rfl]
  | cg0 | cg1 | cg2 | cgm1 | cg4 | cg8 =>
    simp only [srcValue, Option.some.injEq] at h
    subst h
    exact ⟨s, by rw [dstExtAddr_noExt rfl]; rfl, Quiet.refl s,
      fun q => by simp [regAfterSrc]⟩
  | idx r =>
    simp only [srcValue, incRaises, srcAddr, show (Src.idx r == Src.inc Reg.sp) = false from rfl, Bool.false_and,
      Bool.false_eq_true, ↓reduceIte, Option.bind_eq_some_iff, Option.map_eq_some_iff] at h
    obtain ⟨ea, ⟨x, hx, rfl⟩, hv⟩ := h
    refine ⟨((s.note (.fetch (srcExtAddr s) x)).note (.regRead r (s.readReg r))).note
      (.memRead (indexBase ctx s r + x) ctx.width v), ?_, ?_, fun q => by simp [regAfterSrc]⟩
    · simp only [readSource, fetchWord_ok hx, andThen_ok]
      have hb : indexBase ctx (s.note (.fetch (srcExtAddr s) x)) r = indexBase ctx s r := by simp [indexBase]
      rw [hb, sourceAt_ok (by simpa [valueAt_note] using hv)]
      simp [srcLoc, srcAddr, hx, dstExtAddr_ext (src := .idx r) rfl]
    · exact ((quiet_noteFetch _ _ _).trans (quiet_noteRead _ _ _)).trans (quiet_noteMem _ _ _ _)
  | sym =>
    simp only [srcValue, incRaises, srcAddr, show (Src.sym == Src.inc Reg.sp) = false from rfl, Bool.false_and,
      Bool.false_eq_true, ↓reduceIte, Option.bind_eq_some_iff, Option.map_eq_some_iff] at h
    obtain ⟨ea, ⟨x, hx, rfl⟩, hv⟩ := h
    refine ⟨(s.note (.fetch (srcExtAddr s) x)).note (.memRead (srcExtAddr s + x) ctx.width v), ?_, ?_,
      fun q => by simp [regAfterSrc]⟩
    · simp only [readSource, fetchWord_ok hx, andThen_ok]
      rw [sourceAt_ok (by simpa [valueAt_note] using hv)]
      simp [srcLoc, srcAddr, hx, dstExtAddr_ext (src := .sym) rfl]
    · exact (quiet_noteFetch _ _ _).trans (quiet_noteMem _ _ _ _)
  | abs =>
    simp only [srcValue, incRaises, srcAddr, show (Src.abs == Src.inc Reg.sp) = false from rfl, Bool.false_and,
      Bool.false_eq_true, ↓reduceIte, Option.bind_eq_some_iff] at h
    obtain ⟨x, hx, hv⟩ := h
    refine ⟨(s.note (.fetch (srcExtAddr s) x)).note (.memRead x ctx.width v), ?_, ?_, fun q => by simp [regAfterSrc]⟩
    · simp only [readSource, fetchWord_ok hx, andThen_ok]
      rw [sourceAt_ok (by simpa [valueAt_note] using hv)]
      simp [srcLoc, srcAddr, hx, dstExtAddr_ext (src := .abs) rfl]
    · exact (quiet_noteFetch _ _ _).trans (quiet_noteMem _ _ _ _)
  | ind r =>
    by_cases hr : r = .pc
    · simp [srcValue, srcAddr, hr] at h
    simp only [srcValue, incRaises, srcAddr, hr, show (Src.ind r == Src.inc Reg.sp) = false from rfl, Bool.false_and,
      Bool.false_eq_true, ↓reduceIte, Option.bind_some] at h
    refine ⟨(s.note (.regRead r (s.readReg r))).note (.memRead (s.readReg r) ctx.width v), ?_, ?_,
      fun q => by simp [regAfterSrc]⟩
    · simp only [readSource, hr, ↓reduceIte]
      rw [sourceAt_ok (by simpa [valueAt_note] using h)]
      simp [srcLoc, srcAddr, hr, dstExtAddr_noExt (src := .ind r) rfl]
    · exact (quiet_noteRead _ _ _).trans (quiet_noteMem _ _ _ _)
  | inc r =>
    have hr : r ≠ .cg := by rintro rfl; simp [Src.wellFormed] at hwf
    simp only [srcValue, srcAddr] at h
    split at h
    · cases h
    rename_i hi
    simp only [Option.bind_some] at h
    let s1 := (s.note (.regRead r (s.readReg r))).note (.memRead (s.readReg r) ctx.width v)
    have hq : Quiet s s1 := (quiet_noteRead _ _ _).trans (quiet_noteMem _ _ _ _)
    obtain ⟨t, ht, hqt, hreg⟩ := autoIncrement_ok (ctx := ctx) (s := s1) hr (by
      rintro rfl
      simpa [incRaises, s1] using hi)
    refine ⟨t, ?_, hq.trans hqt, fun q => ?_⟩
    · simp only [readSource]
      rw [sourceAt_ok (by simpa [valueAt_note] using h)]
      simp only [andThen_ok]
      rw [show autoIncrement ctx r ((s.note (.regRead r (s.readReg r))).note (.memRead (s.readReg r) ctx.width v)) = .ok () t
        from ht]
      simp [srcLoc, srcAddr, dstExtAddr_noExt (src := .inc r) rfl]
    · rw [hreg q]
      simp [regAfterSrc, s1]

/-- A source operand that cannot be read raises. -/
theorem readSource_none {ctx : Ctx} {s : State} {src : Src} (h : srcValue ctx s src = none) :
    ∃ e t, readSource ctx src (srcExtAddr s) s = .raise e t := by
  cases src with
  | reg r =>
    rw [srcValue_reg] at h
    obtain ⟨e, he⟩ := readOperandReg_none h
    exact ⟨e, s, by simp [readSource, he]⟩
  | cg0 | cg1 | cg2 | cgm1 | cg4 | cg8 => simp [srcValue] at h
  | imm =>
    simp only [srcValue, Option.map_eq_none_iff] at h
    obtain ⟨e, he⟩ := fetchWord_none h
    exact ⟨e, s, by simp [readSource, he]⟩
  | idx r =>
    cases hx : wordAt s (srcExtAddr s) with
    | none =>
      obtain ⟨e, he⟩ := fetchWord_none hx
      exact ⟨e, s, by simp [readSource, he]⟩
    | some x =>
      have hb : indexBase ctx (s.note (.fetch (srcExtAddr s) x)) r = indexBase ctx s r := by simp [indexBase]
      obtain ⟨e, he⟩ := sourceAt_none (ctx := ctx) (ea := indexBase ctx s r + x) (c := srcExtAddr s + 2#16)
        (s := (s.note (.fetch (srcExtAddr s) x)).note (.regRead r (s.readReg r)))
        (by simpa [srcValue, srcAddr, incRaises, hx, valueAt_note] using h)
      exact ⟨e, _, by simpa [readSource, fetchWord_ok hx, hb] using he⟩
  | sym =>
    cases hx : wordAt s (srcExtAddr s) with
    | none =>
      obtain ⟨e, he⟩ := fetchWord_none hx
      exact ⟨e, s, by simp [readSource, he]⟩
    | some x =>
      obtain ⟨e, he⟩ := sourceAt_none (ctx := ctx) (ea := srcExtAddr s + x) (c := srcExtAddr s + 2#16)
        (s := s.note (.fetch (srcExtAddr s) x)) (by simpa [srcValue, srcAddr, incRaises, hx, valueAt_note] using h)
      exact ⟨e, _, by simpa [readSource, fetchWord_ok hx] using he⟩
  | abs =>
    cases hx : wordAt s (srcExtAddr s) with
    | none =>
      obtain ⟨e, he⟩ := fetchWord_none hx
      exact ⟨e, s, by simp [readSource, he]⟩
    | some x =>
      obtain ⟨e, he⟩ := sourceAt_none (ctx := ctx) (ea := x) (c := srcExtAddr s + 2#16)
        (s := s.note (.fetch (srcExtAddr s) x)) (by simpa [srcValue, srcAddr, incRaises, hx, valueAt_note] using h)
      exact ⟨e, _, by simpa [readSource, fetchWord_ok hx] using he⟩
  | ind r =>
    by_cases hr : r = .pc
    · exact ⟨_, _, by simp [readSource, hr]; exact ⟨rfl, rfl⟩⟩
    · obtain ⟨e, he⟩ := sourceAt_none (ctx := ctx) (ea := s.readReg r) (c := srcExtAddr s)
        (s := s.note (.regRead r (s.readReg r))) (by simpa [srcValue, srcAddr, incRaises, hr, valueAt_note] using h)
      exact ⟨e, _, by simpa [readSource, hr] using he⟩
  | inc r =>
    cases hv : valueAt s ctx.width (s.readReg r) with
    | none =>
      obtain ⟨e, he⟩ := sourceAt_none (ctx := ctx) (ea := s.readReg r) (c := srcExtAddr s)
        (s := s.note (.regRead r (s.readReg r))) (by simpa [valueAt_note] using hv)
      exact ⟨e, s.note (.regRead r (s.readReg r)), by simp [readSource, he]⟩
    | some v =>
      have hi : incRaises ctx s (.inc r) = true := by
        cases hc : incRaises ctx s (.inc r) with
        | true => rfl
        | false => simp [srcValue, srcAddr, hc, hv] at h
      simp only [incRaises, Bool.and_eq_true, beq_iff_eq, Src.inc.injEq, Bool.not_eq_true'] at hi
      obtain ⟨⟨rfl, hs⟩, ho⟩ := hi
      refine ⟨.unknown .oddSP, (s.note (.regRead .sp s.sp)).note (.memRead s.sp ctx.width v), ?_⟩
      simp only [readSource]
      rw [sourceAt_ok (by simpa [valueAt_note] using hv)]
      simp only [andThen_ok, autoIncrement, note_params, hs, Bool.false_eq_true, ↓reduceIte, incAmount, or_true]
      rw [writeSp_odd (by simpa using ho)]
      rfl

/-! ### Destination routines (40_pipeline.md R138–R142) -/

/-- A destination whose location is there is found: no register, no memory changes. -/
theorem destLoc_ok {ctx : Ctx} {s s1 : State} {src : Src} {dst : Dst} {l : Loc} (hq : Quiet s s1)
    (hreg : ∀ r, s1.readReg r = regAfterSrc ctx s src r) (h : dstLoc ctx s src dst = some l) :
    ∃ t, destLoc dst (dstExtAddr s src) s1 = .ok l t ∧ Quiet s1 t ∧ ∀ r, t.readReg r = s1.readReg r := by
  cases dst with
  | reg r =>
    simp only [dstLoc, Option.some.injEq] at h
    subst h
    exact ⟨s1, rfl, Quiet.refl s1, fun _ => rfl⟩
  | idx r =>
    by_cases hr : r = .cg
    · simp [dstLoc, hr] at h
    simp only [dstLoc, hr, ↓reduceIte, Option.map_eq_some_iff] at h
    obtain ⟨x, hx, rfl⟩ := h
    refine ⟨_, by simp [destLoc, hr, fetchWord_ok ((hq.wordAt _).trans hx), hreg]; rfl, ?_, fun q => by simp⟩
    exact (quiet_noteFetch _ _ _).trans (quiet_noteRead _ _ _)
  | sym =>
    simp only [dstLoc, Option.map_eq_some_iff] at h
    obtain ⟨x, hx, rfl⟩ := h
    exact ⟨_, by simp [destLoc, fetchWord_ok ((hq.wordAt _).trans hx)]; rfl, quiet_noteFetch _ _ _, fun q => by simp⟩
  | abs =>
    simp only [dstLoc, Option.map_eq_some_iff] at h
    obtain ⟨x, hx, rfl⟩ := h
    exact ⟨_, by simp [destLoc, fetchWord_ok ((hq.wordAt _).trans hx)]; rfl, quiet_noteFetch _ _ _, fun q => by simp⟩

/-- A destination whose location is not there raises. -/
theorem destLoc_none {ctx : Ctx} {s s1 : State} {src : Src} {dst : Dst} (hq : Quiet s s1)
    (h : dstLoc ctx s src dst = none) : ∃ e, destLoc dst (dstExtAddr s src) s1 = .raise e s1 := by
  cases dst with
  | reg r => simp [dstLoc] at h
  | idx r =>
    by_cases hr : r = .cg
    · exact ⟨_, by simp [destLoc, hr]; rfl⟩
    · simp only [dstLoc, hr, ↓reduceIte, Option.map_eq_none_iff] at h
      obtain ⟨e, he⟩ := fetchWord_none ((hq.wordAt _).trans h)
      exact ⟨e, by simp [destLoc, hr, he]⟩
  | sym =>
    simp only [dstLoc, Option.map_eq_none_iff] at h
    obtain ⟨e, he⟩ := fetchWord_none ((hq.wordAt _).trans h)
    exact ⟨e, by simp [destLoc, he]⟩
  | abs =>
    simp only [dstLoc, Option.map_eq_none_iff] at h
    obtain ⟨e, he⟩ := fetchWord_none ((hq.wordAt _).trans h)
    exact ⟨e, by simp [destLoc, he]⟩

/-- MOV reads no destination value. -/
theorem destRead_write (ctx : Ctx) (l : Loc) (s : State) : destRead ctx .write l s = .ok 0#16 s := rfl

/-- A destination value that can be read is read: no register, no memory changes. -/
theorem destRead_ok {ctx : Ctx} {s s1 : State} {src : Src} {use : DstUse} {l : Loc} {v : Word} (hq : Quiet s s1)
    (hreg : ∀ r, s1.readReg r = regAfterSrc ctx s src r) (hu : use ≠ .write) (h : dstValue ctx s src l = some v) :
    ∃ t, destRead ctx use l s1 = .ok v t ∧ Quiet s1 t ∧ ∀ r, t.readReg r = s1.readReg r := by
  have key : ∃ t, destRead ctx .readWrite l s1 = .ok v t ∧ Quiet s1 t ∧ ∀ r, t.readReg r = s1.readReg r := by
    cases l with
    | none =>
      simp only [dstValue, Option.some.injEq] at h
      subst h
      exact ⟨s1, rfl, Quiet.refl s1, fun _ => rfl⟩
    | reg r =>
      rw [dstValue_reg hq hreg] at h
      exact readOperandReg_ok h
    | mem ea =>
      refine ⟨_, by simp only [destRead]; exact memRead_ok ((hq.valueAt _ _).trans h), quiet_noteMem _ _ _ _, fun q => by simp⟩
  cases use with
  | write => exact absurd rfl hu
  | readWrite => exact key
  | read => exact key

/-- A destination value that cannot be read raises. -/
theorem destRead_none {ctx : Ctx} {s s1 : State} {src : Src} {use : DstUse} {l : Loc} (hq : Quiet s s1)
    (hreg : ∀ r, s1.readReg r = regAfterSrc ctx s src r) (hu : use ≠ .write) (h : dstValue ctx s src l = none) : ∃ e, destRead ctx use l s1 = .raise e s1 := by
  cases l with
  | none => simp [dstValue] at h
  | reg r =>
    rw [dstValue_reg hq hreg] at h
    obtain ⟨e, he⟩ := readOperandReg_none h
    cases use with
    | write => exact absurd rfl hu
    | readWrite => exact ⟨e, he⟩
    | read => exact ⟨e, he⟩
  | mem ea =>
    obtain ⟨e, he⟩ := memRead_none ((hq.valueAt _ _).trans h)
    cases use with
    | write => exact absurd rfl hu
    | readWrite => exact ⟨e, he⟩
    | read => exact ⟨e, he⟩

/-! ### Write-Back (40_pipeline.md R150–R157) -/

/-- What a destination write tells the rest of Write-Back. -/
def writtenOf (l : Loc) (v : Word) : Written :=
  match l with
  | .reg .pc => .pc v
  | .reg .sr => .sr
  | .none | .reg .sp | .reg .cg | .reg (.gp _) | .mem _ => .plain

/-- What a destination write leaves: the written register (PC waits for the end of Write-Back), the stored bytes, and everything else as it
was. -/
structure Wrote (s t : State) (w : Width) (l : Loc) (v : Word) : Prop where
  regs    : ∀ q, t.readReg q = if l = .reg q ∧ q ≠ .cg ∧ q ≠ .pc then v else s.readReg q
  bytes   : ∀ a, byteRead t a = byteAfter s w l.addr v a
  wf      : Memory.wf s.params s.mem → Memory.wf t.params t.mem
  params  : t.params = s.params
  watch   : t.watch = s.watch
  faulted : t.faulted = s.faulted
  draws   : t.draws = s.draws
  hits    : ∀ ranges, t.trace.any (hitsWatch ranges) =
    (s.trace.any (hitsWatch ranges) || (l.addr.map (storeHits ranges w)).getD false)

theorem wrote_nothing (s : State) (w : Width) (l : Loc) (v : Word) (hl : l.addr = none)
    (hr : ∀ q, l = .reg q → q = .cg ∨ q = .pc) : Wrote s s w l v := by
  refine ⟨fun q => ?_, fun a => ?_, id, rfl, rfl, rfl, rfl, fun r => ?_⟩
  · rw [if_neg]
    rintro ⟨h1, h2, h3⟩
    rcases hr q h1 with h | h
    · exact h2 h
    · exact h3 h
  · rw [hl]; rfl
  · rw [hl]; simp

theorem wrote_reg (s : State) (w : Width) (r : Reg) (v : Word) (h1 : r ≠ .cg) (h2 : r ≠ .pc) :
    Wrote s (writeReg r v s) w (.reg r) v := by
  refine ⟨fun q => ?_, fun a => ?_, ?_, by simp, by simp, by simp, by simp, fun ranges => by simp [Loc.addr]⟩
  · rw [readReg_writeReg]
    by_cases hq : q = r
    · subst hq; simp [h1, h2]
    · simp [hq, Ne.symm hq]
  · simp [Loc.addr, byteAfter]
  · intro h; simpa using h

theorem wrote_mem {s t : State} {w : Width} {ea v : Word} (h : Stored s t w ea v) : Wrote s t w (.mem ea) v := by
  refine ⟨fun q => by simp [h.regs], fun a => h.bytes a, h.wf, h.params, h.watch, h.faulted, h.draws, fun ranges => ?_⟩
  rw [h.hits]; rfl

/-- A result that may be written is written. -/
theorem writeLoc_ok {s : State} {m : Mnemonic} {w : Width} {l : Loc} {v : Word} (h : canWrite s m w v l) :
    ∃ t, writeLoc m w l v s = .ok (writtenOf l v) t ∧ Wrote s t w l v := by
  cases l with
  | none => exact ⟨s, rfl, wrote_nothing s w _ v rfl (by simp)⟩
  | reg r =>
    cases r with
    | pc =>
      simp only [canWrite, Bool.and_eq_true, beq_iff_eq, Bool.not_eq_true'] at h
      obtain ⟨rfl, ho⟩ := h
      exact ⟨s, by simp [writeLoc, checkPc, ho, writtenOf], wrote_nothing s _ _ v rfl (by simp)⟩
    | sp =>
      simp only [canWrite, Bool.not_eq_true'] at h
      exact ⟨_, by simp [writeLoc, writeSp_even h, writtenOf], wrote_reg s w .sp v (by simp) (by simp)⟩
    | sr =>
      simp only [canWrite, Bool.and_eq_true, beq_iff_eq, Bool.not_eq_true'] at h
      obtain ⟨⟨rfl, hm⟩, hb⟩ := h
      exact ⟨_, by simp only [writeLoc, writeSr, hm, hb, writtenOf]; rfl, wrote_reg s .word .sr v (by simp) (by simp)⟩
    | cg => exact ⟨s, rfl, wrote_nothing s w _ v rfl (by simp)⟩
    | gp n => exact ⟨_, rfl, wrote_reg s w (.gp n) v (by simp) (by simp)⟩
  | mem ea =>
    obtain ⟨t, ht, hs⟩ := memWrite_ok v h
    exact ⟨t, by simp [writeLoc, ht, writtenOf], wrote_mem hs⟩

/-- A result that may not be written raises and leaves the state as it was. -/
theorem writeLoc_not {s : State} {m : Mnemonic} {w : Width} {l : Loc} {v : Word} (h : canWrite s m w v l = false) :
    ∃ e, writeLoc m w l v s = .raise e s := by
  cases l with
  | none => simp [canWrite] at h
  | reg r =>
    cases r with
    | pc =>
      simp only [writeLoc, checkPc]
      split
      · exact ⟨_, rfl⟩
      · split
        · exact ⟨_, rfl⟩
        · cases w <;> simp_all [canWrite]
    | sp =>
      simp only [canWrite, Bool.not_eq_false'] at h
      exact ⟨_, by simp [writeLoc, writeSp_odd h]; rfl⟩
    | sr =>
      simp only [writeLoc, writeSr]
      split
      · exact ⟨_, rfl⟩
      · split
        · exact ⟨_, rfl⟩
        · split
          · exact ⟨_, rfl⟩
          · cases w <;> simp_all [canWrite]
    | cg => simp [canWrite] at h
    | gp n => simp [canWrite] at h
  | mem ea =>
    obtain ⟨e, he⟩ := memWrite_not v h
    exact ⟨e, by simp [writeLoc, he]⟩

/-- The end of Write-Back: PC, then the flag merge into SR unless SR itself was written; memory and the rest stay. -/
theorem writeBack_regs (pcNext : Word) (flags : Option Flags) (wr : Written) (s : State) (q : Reg) :
    (writeBack pcNext flags wr s).readReg q =
      match q with
      | .pc => finalPc pcNext wr
      | .sr => if wr = .sr then s.sr else (match flags with | some f => mergeFlags s.sr f | none => s.sr)
      | q => s.readReg q := by
  have h1 : ∀ q, (writeReg .pc (finalPc pcNext wr) s).readReg q = if q = .pc then finalPc pcNext wr else s.readReg q := by
    intro q; rw [readReg_writeReg]; simp
  have hsr : (writeReg .pc (finalPc pcNext wr) s).sr = s.sr := by simpa using h1 .sr
  have h2 : ∀ f q, (writeReg .sr (mergeFlags (writeReg .pc (finalPc pcNext wr) s).sr f)
      (writeReg .pc (finalPc pcNext wr) s)).readReg q =
        if q = .sr then mergeFlags s.sr f else if q = .pc then finalPc pcNext wr else s.readReg q := by
    intro f q; rw [readReg_writeReg, h1, hsr]; simp
  cases flags with
  | none => cases wr <;> cases q <;> simp [writeBack, mergeIntoSr, h1]
  | some f =>
    cases wr with
    | plain => cases q <;> simp [writeBack, mergeIntoSr, h2]
    | pc v => cases q <;> simp [writeBack, mergeIntoSr, h2]
    | sr => cases q <;> simp [writeBack, mergeIntoSr, h1]

theorem writeBack_quiet (pcNext : Word) (flags : Option Flags) (wr : Written) (s : State) :
    Quiet s (writeBack pcNext flags wr s) := by
  have h1 := quiet_writeReg s .pc (finalPc pcNext wr)
  cases flags with
  | none => cases wr <;> exact h1
  | some f =>
    cases wr with
    | sr => exact h1
    | plain => exact h1.trans (quiet_writeReg _ .sr _)
    | pc v => exact h1.trans (quiet_writeReg _ .sr _)

/-- The end of Write-Back in the trace: the PC write, and after it the flag merge's write of SR, unless there is none. -/
theorem writeBack_trace (pcNext : Word) (flags : Option Flags) (wr : Written) (s : State) :
    (writeBack pcNext flags wr s).trace = s.trace ++
      if flags.isSome && (wr != .sr) then
        [.regWrite .pc (writeBack pcNext flags wr s).pc, .regWrite .sr (writeBack pcNext flags wr s).sr]
      else [.regWrite .pc (writeBack pcNext flags wr s).pc] := by
  have merged : ∀ (q : Word) (f : Flags), (writeReg .sr (mergeFlags s.sr f) (writeReg .pc q s)).trace =
      s.trace ++ [.regWrite .pc q, .regWrite .sr (mergeFlags s.sr f)] := by
    intro q f
    show (s.trace ++ [_]) ++ [_] = _
    rw [List.append_assoc]; rfl
  cases flags with
  | none => cases wr <;> rfl
  | some f =>
    cases wr with
    | sr => rfl
    | plain => exact merged pcNext f
    | pc v => exact merged v f

end Sys2Proof.Machine
end

