-- ==== Sys2Proof/Laws/Runs.lean ====
section
/-! SUPPORT. What the common courses of the instruction families can do, once each: `runFmt1`, `runRmw`, `pushValue` and the end of a step. A
next state comes exactly from operands that can be read and a result that may be written. -/

namespace Sys2Proof.Machine

/-! ### The start of a step changes no operand -/

theorem quiet_outcome_start (i : Instr) (s : State) (ranges) : (startStep i s).trace.any (hitsWatch ranges) = false := by
  simp [hitsWatch]

theorem srcValue_startStep (i : Instr) (ctx : Ctx) (s : State) (src : Src) :
    srcValue ctx (startStep i s) src = srcValue ctx s src := by cases src <;> rfl

theorem srcLoc_startStep (i : Instr) (ctx : Ctx) (s : State) (src : Src) :
    srcLoc ctx (startStep i s) src = srcLoc ctx s src := by cases src <;> rfl

theorem regAfterSrc_startStep (i : Instr) (ctx : Ctx) (s : State) (src : Src) (r : Reg) :
    regAfterSrc ctx (startStep i s) src r = regAfterSrc ctx s src r := by cases r <;> rfl

theorem dstLoc_startStep (i : Instr) (ctx : Ctx) (s : State) (src : Src) (dst : Dst) :
    dstLoc ctx (startStep i s) src dst = dstLoc ctx s src dst := by cases dst <;> rfl

theorem dstValue_startStep (i : Instr) (ctx : Ctx) (s : State) (src : Src) (l : Loc) :
    dstValue ctx (startStep i s) src l = dstValue ctx s src l := by cases l <;> rfl

theorem canWrite_congr {s t : State} (h : t.params = s.params) (m : Mnemonic) (w : Width) (v : Word) (l : Loc) :
    canWrite t m w v l = canWrite s m w v l := by
  unfold canWrite canStore
  rw [h]

/-- The registers that the source routine leaves alone: PC, SR and R3 of a well-formed operand. -/
theorem regAfterSrc_special {src : Src} (hwf : src.wellFormed) (ctx : Ctx) (s : State) :
    regAfterSrc ctx s src .pc = s.pc ∧ regAfterSrc ctx s src .sr = s.sr ∧ regAfterSrc ctx s src .cg = 0#16 := by
  refine ⟨?_, ?_, ?_⟩ <;>
  · unfold regAfterSrc
    rw [if_neg]
    · rfl
    · rintro ⟨rfl, _⟩
      simp [Src.wellFormed] at hwf

/-! ### The end of a step -/

/-- Write-Back and retirement after a destination write: what the completed step leaves. -/
theorem completed_of_wrote {i : Instr} {ctx : Ctx} {s s1 s2 : State} {src : Src} {w : Width} {l : Loc} {v : Word}
    {flags : Option Flags} {cg : Bool} {n : Nat} (hwf : src.wellFormed) (hq : Quiet (startStep i s) s1)
    (hreg : ∀ r, s1.readReg r = regAfterSrc ctx s src r) (hw : Wrote (s1.useDraws n) s2 w l v) :
    Completed s (retire cg (writeBack ctx.pcNext flags (writtenOf l v) s2)) (regsAfter ctx s src l v flags) w l.addr v cg n := by
  obtain ⟨hpc, hsr, hcg⟩ := regAfterSrc_special hwf ctx s
  have hb := writeBack_quiet ctx.pcNext flags (writtenOf l v) s2
  refine ⟨fun r => ?_, fun a => ?_, ?_, ?_, ?_, ?_, ?_⟩
  · rw [readReg_retire, writeBack_regs]
    have h2 : ∀ q, s2.readReg q = if l = .reg q ∧ q ≠ .cg ∧ q ≠ .pc then v else regAfterSrc ctx s src q := by
      intro q; rw [hw.regs, readReg_useDraws, hreg]
    have hs2 : s2.sr = if l = .reg .sr then v else s.sr := by
      have := h2 .sr
      rw [hsr] at this
      simpa using this
    cases r with
    | pc =>
      show finalPc ctx.pcNext (writtenOf l v) = if l = .reg .pc then v else ctx.pcNext
      unfold writtenOf
      split <;> simp [finalPc]
    | sp => simpa [regsAfter] using h2 .sp
    | cg => rfl
    | gp m => simpa [regsAfter] using h2 (.gp m)
    | sr =>
      simp only [regsAfter]
      rw [hs2]
      by_cases hl : l = .reg .sr
      · subst hl; simp [writtenOf]
      · have : writtenOf l v ≠ .sr := by
          unfold writtenOf; split <;> simp_all
        cases flags <;> simp [hl, this]
  · rw [byteRead_retire, hb.byteRead, hw.bytes]
    have h1 : ∀ a, byteRead (s1.useDraws n) a = byteRead s a := fun a => by
      rw [byteRead_useDraws]; exact hq.byteRead a
    unfold byteAfter
    split <;> simp only [h1, useDraws_params, hq.params, startStep_params]
  · have hw' : (writeBack ctx.pcNext flags (writtenOf l v) s2).watch = s.watch := by
      rw [hb.watch, hw.watch, useDraws_watch, hq.watch, startStep_watch]
    rw [retire_outcome, hw', hb.hits, hw.hits, useDraws_trace, hq.hits, quiet_outcome_start]
    cases l with
    | none => simp [Loc.addr, outcomeAfter]
    | reg r => simp [Loc.addr, outcomeAfter]
    | mem ea => simp [Loc.addr, outcomeAfter, storeHits]
  · rw [retire_params, hb.params, hw.params, useDraws_params, hq.params, startStep_params]
  · rw [retire_watch, hb.watch, hw.watch, useDraws_watch, hq.watch, startStep_watch]
  · rw [retire_faulted, hb.faulted, hw.faulted, useDraws_faulted, hq.faulted, startStep_faulted]
  · rw [retire_draws, hb.draws, hw.draws, useDraws_draws, hq.draws, startStep_draws]

/-! ### fmt1 -/

/-- Where an fmt1 opcode writes: CMP and BIT nowhere. -/
def writtenLoc (use : DstUse) (l : Loc) : Loc :=
  match use with
  | .read => .none
  | .write | .readWrite => l

/-- The destination value that Execute takes is there: not needed by MOV, for which 0 stands. -/
def destGiven (ctx : Ctx) (s : State) (src : Src) (use : DstUse) (l : Loc) (b : Word) : Prop :=
  match use with
  | .write => b = 0#16
  | .readWrite | .read => dstValue ctx s src l = some b

theorem destRead_given {ctx : Ctx} {s s1 : State} {src : Src} {use : DstUse} {l : Loc} {b : Word} (hq : Quiet s s1)
    (hreg : ∀ r, s1.readReg r = regAfterSrc ctx s src r) (h : destGiven ctx s src use l b) :
    ∃ t, destRead ctx use l s1 = .ok b t ∧ Quiet s1 t ∧ ∀ r, t.readReg r = s1.readReg r := by
  cases use with
  | write => exact ⟨s1, by rw [destRead_write, show b = 0#16 from h], Quiet.refl s1, fun _ => rfl⟩
  | readWrite => exact destRead_ok hq hreg (by simp) h
  | read => exact destRead_ok hq hreg (by simp) h

theorem destWrite_ok {s : State} {m : Mnemonic} {w : Width} {use : DstUse} {l : Loc} {v : Word}
    (h : canWrite s m w v (writtenLoc use l)) :
    ∃ t, destWrite m w use l v s = .ok (writtenOf (writtenLoc use l) v) t ∧ Wrote s t w (writtenLoc use l) v := by
  cases use with
  | read => exact ⟨s, rfl, wrote_nothing s w _ v rfl (by simp [writtenLoc])⟩
  | write => exact writeLoc_ok h
  | readWrite => exact writeLoc_ok h

/-- An fmt1 instruction whose operands can be read and whose result may be written completes. -/
theorem runFmt1_completes {i : Instr} {m : Mnemonic} {use : DstUse} {alu : Alu} {w : Width} {src : Src} {dst : Dst} {s : State}
    {a b : Word} {l : Loc} (hwf : src.wellFormed) (ha : srcValue (fmt1Ctx s w src dst) s src = some a)
    (hl : dstLoc (fmt1Ctx s w src dst) s src dst = some l) (hb : destGiven (fmt1Ctx s w src dst) s src use l b)
    (hw : canWrite s m w (alu w a b (carryBit s.sr) s.draws).res (writtenLoc use l)) :
    ∃ t, runFmt1 i m use alu w src dst s = .next t ∧
      Completed s t
        (regsAfter (fmt1Ctx s w src dst) s src (writtenLoc use l) (alu w a b (carryBit s.sr) s.draws).res
          (alu w a b (carryBit s.sr) s.draws).flags)
        w (writtenLoc use l).addr (alu w a b (carryBit s.sr) s.draws).res (isConstant src)
        (alu w a b (carryBit s.sr) s.draws).draws := by
  obtain ⟨s1, h1, q1, r1⟩ := readSource_ok (s := startStep i s) hwf (by rw [srcValue_startStep]; exact ha)
  rw [srcLoc_startStep] at h1
  have r1' : ∀ r, s1.readReg r = regAfterSrc (fmt1Ctx s w src dst) s src r := fun r => by
    rw [r1, regAfterSrc_startStep]
  obtain ⟨s2, h2, q2, r2⟩ := destLoc_ok q1 r1 (by rw [dstLoc_startStep]; exact hl)
  have hb' : destGiven (fmt1Ctx s w src dst) (startStep i s) src use l b := by
    cases use <;> simpa [destGiven, dstValue_startStep] using hb
  obtain ⟨s3, h3, q3, r3⟩ := destRead_given (q1.trans q2) (fun r => (r2 r).trans (r1 r)) hb'
  have q13 := (q1.trans q2).trans q3
  obtain ⟨s4, h4, w4⟩ := destWrite_ok (s := s3.useDraws (alu w a b (carryBit s.sr) s.draws).draws) (m := m) (w := w)
    (use := use) (l := l) (v := (alu w a b (carryBit s.sr) s.draws).res)
    ((canWrite_congr (s := s) (by rw [useDraws_params, q13.params, startStep_params]) _ _ _ _).trans hw)
  refine ⟨_, ?_, completed_of_wrote hwf q13 (fun r => by rw [r3, r2, r1']) w4⟩
  simp only [runFmt1]
  rw [show s.pc + 2#16 = srcExtAddr (startStep i s) from rfl, h1, andThen_ok, h2, andThen_ok, h3, andThen_ok, h4, andThen_ok]
  rfl

/-- An fmt1 instruction that gives a next state is one whose operands can be read and whose result may be written. -/
theorem runFmt1_next {i : Instr} {m : Mnemonic} {use : DstUse} {alu : Alu} {w : Width} {src : Src} {dst : Dst} {s t : State}
    (hwf : src.wellFormed) (h : runFmt1 i m use alu w src dst s = .next t) :
    ∃ a b l, srcValue (fmt1Ctx s w src dst) s src = some a ∧ dstLoc (fmt1Ctx s w src dst) s src dst = some l ∧
      destGiven (fmt1Ctx s w src dst) s src use l b ∧
      Completed s t
        (regsAfter (fmt1Ctx s w src dst) s src (writtenLoc use l) (alu w a b (carryBit s.sr) s.draws).res
          (alu w a b (carryBit s.sr) s.draws).flags)
        w (writtenLoc use l).addr (alu w a b (carryBit s.sr) s.draws).res (isConstant src)
        (alu w a b (carryBit s.sr) s.draws).draws := by
  have hraise : ∀ {e : Raise} {u : State}, finishStep i s.pc (.raise e u) ≠ .next t := by intro e u h; cases h
  cases ha : srcValue (fmt1Ctx s w src dst) s src with
  | none =>
    obtain ⟨e, u, he⟩ := readSource_none (s := startStep i s) (by rw [srcValue_startStep]; exact ha)
    simp only [runFmt1] at h
    rw [show s.pc + 2#16 = srcExtAddr (startStep i s) from rfl, he] at h
    exact absurd h hraise
  | some a =>
    obtain ⟨s1, h1, q1, r1⟩ := readSource_ok (s := startStep i s) hwf (by rw [srcValue_startStep]; exact ha)
    cases hl : dstLoc (fmt1Ctx s w src dst) s src dst with
    | none =>
      obtain ⟨e, he⟩ := destLoc_none q1 (by rw [dstLoc_startStep]; exact hl)
      simp only [runFmt1] at h
      rw [show s.pc + 2#16 = srcExtAddr (startStep i s) from rfl, h1, andThen_ok, he] at h
      exact absurd h hraise
    | some l =>
      obtain ⟨s2, h2, q2, r2⟩ := destLoc_ok q1 r1 (by rw [dstLoc_startStep]; exact hl)
      have hb : ∃ b, destGiven (fmt1Ctx s w src dst) s src use l b := by
        by_cases hu : use = .write
        · subst hu; exact ⟨0#16, rfl⟩
        · cases hb : dstValue (fmt1Ctx s w src dst) s src l with
          | some b => exact ⟨b, by cases use <;> first | exact absurd rfl hu | exact hb⟩
          | none =>
            obtain ⟨e, he⟩ := destRead_none (q1.trans q2) (fun r => (r2 r).trans (r1 r)) hu (by rw [dstValue_startStep]; exact hb)
            simp only [runFmt1] at h
            rw [show s.pc + 2#16 = srcExtAddr (startStep i s) from rfl, h1, andThen_ok, h2, andThen_ok, he] at h
            exact absurd h hraise
      obtain ⟨b, hb⟩ := hb
      refine ⟨a, b, l, rfl, rfl, hb, ?_⟩
      by_cases hw : canWrite s m w (alu w a b (carryBit s.sr) s.draws).res (writtenLoc use l) = true
      · obtain ⟨u, hu, hc⟩ := runFmt1_completes (i := i) hwf ha hl hb hw
        rw [hu] at h
        cases h
        exact hc
      · exfalso
        have hb' : destGiven (fmt1Ctx s w src dst) (startStep i s) src use l b := by
          cases use <;> simpa [destGiven, dstValue_startStep] using hb
        obtain ⟨s3, h3, q3, r3⟩ := destRead_given (q1.trans q2) (fun r => (r2 r).trans (r1 r)) hb'
        have q13 := (q1.trans q2).trans q3
        have hn : ∃ e, destWrite m w use l (alu w a b (carryBit s.sr) s.draws).res
            (s3.useDraws (alu w a b (carryBit s.sr) s.draws).draws) =
              .raise e (s3.useDraws (alu w a b (carryBit s.sr) s.draws).draws) := by
          have hw' := hw
          rw [Bool.not_eq_true, ← canWrite_congr (t := s3.useDraws (alu w a b (carryBit s.sr) s.draws).draws)
            (by rw [useDraws_params, q13.params, startStep_params])] at hw'
          cases use with
          | read => simp [writtenLoc, canWrite] at hw
          | write => exact writeLoc_not hw'
          | readWrite => exact writeLoc_not hw'
        obtain ⟨e, he⟩ := hn
        simp only [runFmt1] at h
        rw [show s.pc + 2#16 = srcExtAddr (startStep i s) from rfl, h1, andThen_ok, h2, andThen_ok, h3, andThen_ok, he] at h
        exact hraise h

/-! ### Read-modify-write fmt2 -/

/-- A read-modify-write instruction whose operand can be read and whose result may be written completes. -/
theorem runRmw_completes {i : Instr} {m : Mnemonic} {alu : Alu} {w : Width} {src : Src} {s : State} {a : Word}
    (hwf : src.wellFormed) (hn : hasNoLocation src = false) (ha : srcValue (fmt2Ctx s w src false) s src = some a)
    (hw : canWrite s m w (alu w a 0#16 (carryBit s.sr) s.draws).res (srcLoc (fmt2Ctx s w src false) s src)) :
    ∃ t, runRmw i m alu w src s = .next t ∧
      Completed s t
        (regsAfter (fmt2Ctx s w src false) s src (srcLoc (fmt2Ctx s w src false) s src)
          (alu w a 0#16 (carryBit s.sr) s.draws).res (alu w a 0#16 (carryBit s.sr) s.draws).flags)
        w (srcLoc (fmt2Ctx s w src false) s src).addr (alu w a 0#16 (carryBit s.sr) s.draws).res (isConstant src)
        (alu w a 0#16 (carryBit s.sr) s.draws).draws := by
  obtain ⟨s1, h1, q1, r1⟩ := readSource_ok (s := startStep i s) hwf (by rw [srcValue_startStep]; exact ha)
  rw [srcLoc_startStep] at h1
  obtain ⟨s2, h2, w2⟩ := writeLoc_ok (s := s1.useDraws (alu w a 0#16 (carryBit s.sr) s.draws).draws) (m := m) (w := w)
    (l := srcLoc (fmt2Ctx s w src false) s src) (v := (alu w a 0#16 (carryBit s.sr) s.draws).res)
    ((canWrite_congr (s := s) (by rw [useDraws_params, q1.params, startStep_params]) _ _ _ _).trans hw)
  refine ⟨_, ?_, completed_of_wrote hwf q1 (fun r => by rw [r1, regAfterSrc_startStep]) w2⟩
  simp only [runRmw, hn, Bool.false_eq_true, ↓reduceIte]
  rw [show s.pc + 2#16 = srcExtAddr (startStep i s) from rfl, h1, andThen_ok, h2, andThen_ok]
  rfl

/-- A read-modify-write instruction that gives a next state is one whose operand has a location, can be read, and whose result may be written. -/
theorem runRmw_next {i : Instr} {m : Mnemonic} {alu : Alu} {w : Width} {src : Src} {s t : State} (hwf : src.wellFormed)
    (h : runRmw i m alu w src s = .next t) :
    hasNoLocation src = false ∧ ∃ a, srcValue (fmt2Ctx s w src false) s src = some a ∧
      Completed s t
        (regsAfter (fmt2Ctx s w src false) s src (srcLoc (fmt2Ctx s w src false) s src)
          (alu w a 0#16 (carryBit s.sr) s.draws).res (alu w a 0#16 (carryBit s.sr) s.draws).flags)
        w (srcLoc (fmt2Ctx s w src false) s src).addr (alu w a 0#16 (carryBit s.sr) s.draws).res (isConstant src)
        (alu w a 0#16 (carryBit s.sr) s.draws).draws := by
  have hraise : ∀ {e : Raise} {u : State}, finishStep i s.pc (.raise e u) ≠ .next t := by intro e u h; cases h
  by_cases hn : hasNoLocation src = true
  · simp only [runRmw, hn, ↓reduceIte] at h
    exact absurd h hraise
  rw [Bool.not_eq_true] at hn
  refine ⟨hn, ?_⟩
  cases ha : srcValue (fmt2Ctx s w src false) s src with
  | none =>
    obtain ⟨e, u, he⟩ := readSource_none (s := startStep i s) (by rw [srcValue_startStep]; exact ha)
    simp only [runRmw, hn, Bool.false_eq_true, ↓reduceIte] at h
    rw [show s.pc + 2#16 = srcExtAddr (startStep i s) from rfl, he] at h
    exact absurd h hraise
  | some a =>
    refine ⟨a, rfl, ?_⟩
    by_cases hw : canWrite s m w (alu w a 0#16 (carryBit s.sr) s.draws).res (srcLoc (fmt2Ctx s w src false) s src) = true
    · obtain ⟨u, hu, hc⟩ := runRmw_completes (i := i) hwf hn ha hw
      rw [hu] at h
      cases h
      exact hc
    · exfalso
      obtain ⟨s1, h1, q1, r1⟩ := readSource_ok (s := startStep i s) hwf (by rw [srcValue_startStep]; exact ha)
      rw [srcLoc_startStep] at h1
      rw [Bool.not_eq_true, ← canWrite_congr (t := s1.useDraws (alu w a 0#16 (carryBit s.sr) s.draws).draws)
        (by rw [useDraws_params, q1.params, startStep_params])] at hw
      obtain ⟨e, he⟩ := writeLoc_not hw
      simp only [runRmw, hn, Bool.false_eq_true, ↓reduceIte] at h
      rw [show s.pc + 2#16 = srcExtAddr (startStep i s) from rfl, h1, andThen_ok, he] at h
      exact hraise h

/-! ### The stack write -/

/-- What a push leaves: SP down by 2 and the value stored there, every other register as it was. -/
structure Pushed (s t : State) (w : Width) (v : Word) : Prop where
  regs    : ∀ q, t.readReg q = if q = .sp then s.sp - 2#16 else s.readReg q
  bytes   : ∀ a, byteRead t a = byteAfter s w (some (s.sp - 2#16)) v a
  wf      : Memory.wf s.params s.mem → Memory.wf t.params t.mem
  params  : t.params = s.params
  watch   : t.watch = s.watch
  faulted : t.faulted = s.faulted
  draws   : t.draws = s.draws
  hits    : ∀ ranges, t.trace.any (hitsWatch ranges) = (s.trace.any (hitsWatch ranges) || storeHits ranges w (s.sp - 2#16))

/-- A push completes where the new SP is even and addresses memory. -/
theorem pushValue_ok {s : State} {w : Width} (v : Word) (ho : isOdd (s.sp - 2#16) = false) (hc : canStore s w (s.sp - 2#16)) :
    ∃ t, pushValue w v s = .ok () t ∧ Pushed s t w v := by
  let s1 := writeReg .sp (s.sp - 2#16) (s.note (.regRead .sp s.sp))
  have q1 : Quiet s s1 := (quiet_noteRead s .sp s.sp).trans (quiet_writeReg _ .sp _)
  obtain ⟨t, ht, hs⟩ := memWrite_ok (s := s1) v (by rw [q1.canStore]; exact hc)
  refine ⟨t, ?_, ?_, ?_, ?_, ?_, ?_, ?_, ?_, ?_⟩
  · simp only [pushValue, writeSp_even ho, andThen_ok]
    exact ht
  · intro q
    rw [hs.regs, readReg_writeReg, readReg_note]
    simp
  · intro a
    rw [hs.bytes]
    unfold byteAfter
    simp only [q1.byteRead, q1.params]
  · intro h
    exact hs.wf (by rw [q1.mem, q1.params]; exact h)
  · rw [hs.params, q1.params]
  · rw [hs.watch, q1.watch]
  · rw [hs.faulted, q1.faulted]
  · rw [hs.draws, q1.draws]
  · intro ranges
    rw [hs.hits, q1.hits]

/-- A push that does not complete raises. -/
theorem pushValue_not {s : State} {w : Width} (v : Word) (h : (!isOdd (s.sp - 2#16) && canStore s w (s.sp - 2#16)) = false) :
    ∃ e t, pushValue w v s = .raise e t := by
  by_cases ho : isOdd (s.sp - 2#16) = true
  · exact ⟨_, _, by simp only [pushValue, writeSp_odd ho]; rfl⟩
  · rw [Bool.not_eq_true] at ho
    let s1 := writeReg .sp (s.sp - 2#16) (s.note (.regRead .sp s.sp))
    have q1 : Quiet s s1 := (quiet_noteRead s .sp s.sp).trans (quiet_writeReg _ .sp _)
    obtain ⟨e, he⟩ := memWrite_not (s := s1) v (by rw [q1.canStore]; simpa [ho] using h)
    exact ⟨e, s1, by simp only [pushValue, writeSp_even ho, andThen_ok]; exact he⟩

end Sys2Proof.Machine
end

