-- ==== Sys2Proof/Laws/Keeps.lean ====
section
/-! SUPPORT. What every routine of a step keeps, and what a step of a core that is not faulted is. -/

namespace Sys2Proof.Machine

/-- A step of a core that is not faulted, in a configuration that is not refused. -/
theorem step_ready {s : State} (hc : wellFormedParams s.params = true) (hf : s.faulted = none) :
    step s = match fetchDecode s with
      | .halted t => .next t
      | .stopped f => .fault f
      | .instr i => exec i s := by
  unfold step
  rw [if_pos hc]
  split
  · rename_i h; rw [hf] at h; cases h
  · rfl

theorem fmt1_source_wellFormed {w src dst} (h : (Instr.mov w src dst).wellFormed) : src.wellFormed := by
  simp only [Instr.wellFormed, Bool.and_eq_true] at h; exact h.1

/-- What every state inside a step keeps of the state at its start: PC (until the write-back), configuration, watched ranges, the canonical form of
memory, an even SP, a legal SR. -/
structure Keeps (s u : State) : Prop where
  pc : u.pc = s.pc
  params : u.params = s.params
  watch : u.watch = s.watch
  wf : Memory.wf s.params s.mem → Memory.wf u.params u.mem
  sp : isOdd s.sp = false → isOdd u.sp = false
  sr : srLegal s → srLegal u

theorem Keeps.refl (s : State) : Keeps s s := ⟨rfl, rfl, rfl, id, id, id⟩
theorem Keeps.trans {s t u : State} (h : Keeps s t) (k : Keeps t u) : Keeps s u :=
  ⟨k.pc.trans h.pc, k.params.trans h.params, k.watch.trans h.watch, fun x => k.wf (h.wf x), fun x => k.sp (h.sp x), fun x => k.sr (h.sr x)⟩

/-- A routine keeps this in every result, and a `MemFail` it raises is of an unmapped address. -/
def KeepsIn {α : Type} (s : State) (r : Res α) : Prop :=
  match r with
  | .ok _ u => Keeps s u
  | .raise e u => Keeps s u ∧ ∀ a, e = .memFail a → isMapped s.params a = false

theorem keepsIn_bind {α β} {s : State} {r : Res α} {f : α → State → Res β} (h : KeepsIn s r) (hf : ∀ a u, r = .ok a u → Keeps s u → KeepsIn u (f a u)) :
    KeepsIn s (r.andThen f) := by
  cases r with
  | ok a u =>
    have h1 : Keeps s u := h
    have := hf a u rfl h1
    rw [andThen_ok]
    revert this
    cases f a u with
    | ok b v => exact fun k => h1.trans k
    | raise e v => exact fun k => ⟨h1.trans k.1, fun a ha => by rw [← h1.params]; exact k.2 a ha⟩
  | raise e u => exact h

theorem keeps_note (s : State) (e) : Keeps s (s.note e) := ⟨rfl, rfl, rfl, id, id, id⟩
theorem keepsIn_note {α} {s : State} {e} {r : Res α} (h : KeepsIn (s.note e) r) : KeepsIn s r := by
  cases r with
  | ok a u => exact (keeps_note s e).trans h
  | raise e u => exact ⟨(keeps_note s _).trans h.1, h.2⟩

theorem loadValue_memFail {s w a e} (h : loadValue s w a = .error e) : ∀ k, e = .memFail k → isMapped s.params k = false := by
  have hb : ∀ k, byteRead s k = none → isMapped s.params k = false := by
    intro k hk; rw [← byteRead_isSome, hk]; rfl
  intro k hk; subst hk
  unfold loadValue at h
  split at h
  · split at h
    · cases h
    · cases h; exact hb _ (by assumption)
  · split at h
    · cases h
    · split at h
      · cases h; exact hb _ (by assumption)
      · split at h
        · cases h; exact hb _ (by assumption)
        · cases h

theorem keepsIn_memRead {w a s} : KeepsIn s (memRead w a s) := by
  unfold memRead
  split
  · exact keeps_note _ _
  · rename_i e he; exact ⟨Keeps.refl _, loadValue_memFail he⟩
theorem keepsIn_fetchWord {a s} : KeepsIn s (fetchWord a s) := by
  unfold fetchWord
  split
  · exact keeps_note _ _
  · rename_i e he; exact ⟨Keeps.refl _, loadValue_memFail he⟩

theorem keeps_putByte (s : State) (a b) : Keeps s (s.putByte a b) := ⟨rfl, rfl, rfl, wf_putByte s a b, id, id⟩

theorem keepsIn_memWrite {w a v s} : KeepsIn s (memWrite w a v s) := by
  unfold memWrite
  have key : match storeValue s w a v with | .ok t => Keeps s t | .error e => ∀ k, e = .memFail k → isMapped s.params k = false := by
    unfold storeValue
    cases w
    · simp only []
      by_cases h : isMapped s.params a = true
      · rw [if_pos h]; exact keeps_putByte _ _ _
      · rw [if_neg h]; intro k hk; cases hk; simpa using h
    · simp only []
      by_cases h0 : isOdd a = true
      · rw [if_pos h0]; intro k hk; cases hk
      · rw [if_neg h0]
        by_cases h1 : isMapped s.params a = true
        · by_cases h2 : isMapped s.params (a + 1#16) = true
          · simp only [h1, h2, Bool.not_true, Bool.false_eq_true, if_false]
            exact (keeps_putByte _ _ _).trans (keeps_putByte _ _ _)
          · simp only [h1, h2, Bool.not_true, Bool.false_eq_true, if_false, Bool.not_false, if_true]
            intro k hk; cases hk; simpa using h2
        · simp only [h1, Bool.not_false, if_true]
          intro k hk; cases hk; simpa using h1
  revert key
  cases storeValue s w a v with
  | ok t => exact fun k => k.trans (keeps_note _ _)
  | error e => exact fun k => ⟨Keeps.refl _, k⟩

theorem keeps_writeReg {s : State} {r : Reg} {v : Word} (h1 : r ≠ .pc) (h2 : r = .sp → isOdd v = false) (h3 : r = .sr → hasUnimplementedBits s.params v = false) :
    Keeps s (writeReg r v s) := by
  cases r with
  | pc => exact absurd rfl h1
  | cg => exact Keeps.refl s
  | gp n => exact ⟨rfl, rfl, rfl, id, id, id⟩
  | sp => exact ⟨rfl, rfl, rfl, id, fun _ => h2 rfl, id⟩
  | sr =>
    refine ⟨rfl, rfl, rfl, id, id, fun _ => ?_⟩
    have := h3 rfl
    simp only [hasUnimplementedBits, bne_eq_false_iff_eq] at this
    show v &&& ~~~(s.params.srMask ||| 0x0107#16) = 0#16
    have e : v &&& ~~~(s.params.srMask ||| 0x0107#16) = (v &&& ~~~s.params.srMask) &&& ~~~0x0107#16 := by
      rw [BitVec.not_or, BitVec.and_assoc]
    rw [e, this, BitVec.zero_and]

theorem keepsIn_writeSp {v s} : KeepsIn s (writeSp v s) := by
  unfold writeSp
  by_cases h : isOdd v = true
  · rw [if_pos h]; exact ⟨Keeps.refl _, fun _ h => by cases h⟩
  · rw [if_neg h]; exact keeps_writeReg (by simp) (fun _ => by simpa using h) (by simp)

theorem keepsIn_checkPc {w v s} : KeepsIn s (checkPc w v s) := by
  unfold checkPc
  split
  · exact ⟨Keeps.refl _, fun _ h => by cases h⟩
  · split
    · exact ⟨Keeps.refl _, fun _ h => by cases h⟩
    · exact Keeps.refl _

theorem keepsIn_sourceAt {ctx ea c s} : KeepsIn s (sourceAt ctx ea c s) := keepsIn_bind keepsIn_memRead fun _ _ _ _ => Keeps.refl _

theorem keepsIn_readOperandReg {ctx r s} : KeepsIn s (readOperandReg ctx r s) := by
  unfold readOperandReg
  split
  · exact ⟨Keeps.refl _, fun _ h => by cases h⟩
  · exact keeps_note _ _

theorem keepsIn_readSource {ctx src c s} (hwf : src.wellFormed) : KeepsIn s (readSource ctx src c s) := by
  cases src with
  | reg r => exact keepsIn_bind keepsIn_readOperandReg fun _ _ _ _ => Keeps.refl _
  | idx r => exact keepsIn_bind keepsIn_fetchWord fun _ _ _ _ => keepsIn_note keepsIn_sourceAt
  | sym => exact keepsIn_bind keepsIn_fetchWord fun _ _ _ _ => keepsIn_sourceAt
  | abs => exact keepsIn_bind keepsIn_fetchWord fun _ _ _ _ => keepsIn_sourceAt
  | ind r =>
    simp only [readSource]
    split
    · exact ⟨Keeps.refl _, fun _ h => by cases h⟩
    · exact keepsIn_note keepsIn_sourceAt
  | inc r =>
    refine keepsIn_bind (keepsIn_note keepsIn_sourceAt) fun _ u _ _ => keepsIn_bind ?_ fun _ _ _ _ => Keeps.refl _
    have hr : r ≠ .pc ∧ r ≠ .sr := by
      simp only [Src.wellFormed, Bool.and_eq_true, bne_iff_ne] at hwf
      exact ⟨hwf.1.1, hwf.1.2⟩
    unfold autoIncrement
    split
    · exact Keeps.refl _
    · simp only []
      split
      · exact keepsIn_writeSp
      · exact keeps_writeReg hr.1 (fun h => by contradiction) (fun h => absurd h hr.2)
  | imm => exact keepsIn_bind keepsIn_fetchWord fun _ _ _ _ => Keeps.refl _
  | cg0 | cg1 | cg2 | cgm1 | cg4 | cg8 => exact Keeps.refl _

theorem keepsIn_destLoc {dst c s} : KeepsIn s (destLoc dst c s) := by
  cases dst with
  | reg r => exact Keeps.refl _
  | idx r =>
    simp only [destLoc]
    split
    · exact ⟨Keeps.refl _, fun _ h => by cases h⟩
    · exact keepsIn_bind keepsIn_fetchWord fun _ _ _ _ => keeps_note _ _
  | sym => exact keepsIn_bind keepsIn_fetchWord fun _ _ _ _ => Keeps.refl _
  | abs => exact keepsIn_bind keepsIn_fetchWord fun _ _ _ _ => Keeps.refl _

theorem keepsIn_destRead {ctx use l s} : KeepsIn s (destRead ctx use l s) := by
  have key : KeepsIn s (destRead ctx .read l s) := by
    cases l with
    | none => exact Keeps.refl _
    | reg r => exact keepsIn_readOperandReg
    | mem ea => exact keepsIn_memRead
  cases use
  · exact Keeps.refl _
  · exact key
  · exact key

theorem keepsIn_writeLoc {m w l v s} : KeepsIn s (writeLoc m w l v s) := by
  cases l with
  | none => exact Keeps.refl _
  | reg r =>
    cases r with
    | pc => exact keepsIn_checkPc
    | sp => exact keepsIn_bind keepsIn_writeSp fun _ _ _ _ => Keeps.refl _
    | cg => exact Keeps.refl _
    | gp n => exact keeps_writeReg (by simp) (by simp) (by simp)
    | sr =>
      simp only [writeLoc, writeSr]
      split
      · exact ⟨Keeps.refl _, fun _ h => by cases h⟩
      · split
        · exact ⟨Keeps.refl _, fun _ h => by cases h⟩
        · split
          · exact ⟨Keeps.refl _, fun _ h => by cases h⟩
          · exact keeps_writeReg (by simp) (by simp) (fun _ => by simp_all)
  | mem ea => exact keepsIn_bind keepsIn_memWrite fun _ _ _ _ => Keeps.refl _

theorem keepsIn_destWrite {m w use l v s} : KeepsIn s (destWrite m w use l v s) := by
  cases use
  · exact keepsIn_writeLoc
  · exact keepsIn_writeLoc
  · exact Keeps.refl _

theorem keepsIn_pushValue {w v s} : KeepsIn s (pushValue w v s) :=
  keepsIn_bind (keepsIn_note keepsIn_writeSp) fun _ _ _ _ => keepsIn_memWrite

theorem keepsIn_popSr {v s} : KeepsIn s (popSr v s) := by
  unfold popSr
  split
  · exact ⟨Keeps.refl _, fun _ h => by cases h⟩
  · exact keeps_writeReg (by simp) (by simp) (fun _ => by simp_all)

/-- How a routine of a whole instruction ends: with the write-back of PC and flags on a state that keeps all this, the new PC as even as the old one or
checked to be even; or with a raise on such a state. -/
def EndsWell (s : State) (r : Res Bool) : Prop :=
  match r with
  | .ok _ u => ∃ v pcf flags wr, u = writeBack pcf flags wr v ∧ Keeps s v ∧ isOdd pcf = isOdd s.pc ∧ (∀ x, wr = .pc x → isOdd x = false)
  | .raise e u => Keeps s u ∧ ∀ a, e = .memFail a → isMapped s.params a = false

theorem endsWell_bind {α} {s : State} {r : Res α} {f : α → State → Res Bool} (h : KeepsIn s r) (hf : ∀ a u, r = .ok a u → Keeps s u → EndsWell u (f a u)) :
    EndsWell s (r.andThen f) := by
  cases r with
  | ok a u =>
    have h1 : Keeps s u := h
    have := hf a u rfl h1
    rw [andThen_ok]
    revert this
    cases f a u with
    | ok b v =>
      rintro ⟨x, pcf, flags, wr, k1, k2, k3, k4⟩
      exact ⟨x, pcf, flags, wr, k1, h1.trans k2, by rw [k3, h1.pc], k4⟩
    | raise e v => exact fun k => ⟨h1.trans k.1, fun a ha => by rw [← h1.params]; exact k.2 a ha⟩
  | raise e u => exact h

theorem writeLoc_pc {m w l v s wr t} (h : writeLoc m w l v s = .ok wr t) : ∀ x, wr = .pc x → isOdd x = false := by
  intro x hx; subst hx
  cases l with
  | none => cases h
  | reg r =>
    cases r with
    | pc => simp only [writeLoc, checkPc] at h; split at h
            · cases h
            · split at h
              · cases h
              · cases h; simp_all
    | sp => obtain ⟨_, _, _, h2⟩ := andThen_eq_ok h; cases h2
    | cg => cases h
    | gp n => cases h
    | sr =>
      simp only [writeLoc, writeSr] at h
      split at h
      · cases h
      · split at h
        · cases h
        · split at h <;> cases h
  | mem ea => obtain ⟨_, _, _, h2⟩ := andThen_eq_ok h; cases h2

theorem odd_add_even (a : Word) (n : Nat) : isOdd (a + BitVec.ofNat 16 (2 * n)) = isOdd a := by
  unfold isOdd
  rw [BitVec.toNat_add, BitVec.toNat_ofNat]
  congr 1; omega

theorem endsWell_start {i : Instr} {s : State} {r : Res Bool} (h : EndsWell (startStep i s) r) : EndsWell s r := by
  have : Keeps s (startStep i s) := ⟨rfl, rfl, rfl, id, id, id⟩
  revert h
  cases r with
  | ok b v =>
    rintro ⟨x, pcf, flags, wr, k1, k2, k3, k4⟩
    exact ⟨x, pcf, flags, wr, k1, this.trans k2, k3, k4⟩
  | raise e v => exact fun k => ⟨this.trans k.1, k.2⟩

/-- What an instruction can do, said once: it ends as `EndsWell` says. -/
theorem exec_endsWell (i : Instr) (s : State) (hwf : i.wellFormed) : ∃ r, exec i s = finishStep i s.pc r ∧ EndsWell s r := by
  have hf1 : ∀ (m use alu w src dst), src.wellFormed → ∃ r, runFmt1 i m use alu w src dst s = finishStep i s.pc r ∧ EndsWell s r := by
    intro m use alu w src dst hs
    refine ⟨_, rfl, endsWell_start (i := i) ?_⟩
    refine endsWell_bind (keepsIn_readSource hs) fun a s1 _ m1 => endsWell_bind keepsIn_destLoc fun l s2 _ m2 => endsWell_bind keepsIn_destRead fun d s3 _ m3 => ?_
    have hu : ∀ n, Keeps s3 (s3.useDraws n) := fun n => ⟨rfl, rfl, rfl, id, id, id⟩
    have : ∀ n res fl, EndsWell (s3.useDraws n) ((destWrite m w use l res (s3.useDraws n)).andThen fun wr s4 =>
        .ok (isConstant src) (writeBack (fmt1Ctx s w src dst).pcNext fl wr s4)) := by
      intro n res fl
      refine endsWell_bind keepsIn_destWrite fun wr s4 h4 m4 => ⟨_, _, _, _, rfl, Keeps.refl _, ?_, ?_⟩
      · rw [m4.pc, (hu n).pc, m3.pc, m2.pc, m1.pc]
        exact odd_add_even _ _
      · cases use with
        | read => cases h4; simp
        | write => exact writeLoc_pc h4
        | readWrite => exact writeLoc_pc h4
    have k := this (alu w a.value d (carryBit s.sr) s.draws).draws (alu w a.value d (carryBit s.sr) s.draws).res (alu w a.value d (carryBit s.sr) s.draws).flags
    revert k
    simp only []
    generalize (destWrite m w use l _ _).andThen _ = r
    cases r with
    | ok b v =>
      rintro ⟨x, pcf, flags, wr, k1, k2, k3, k4⟩
      exact ⟨x, pcf, flags, wr, k1, (hu _).trans k2, k3, k4⟩
    | raise e v => exact fun k => ⟨(hu _).trans k.1, k.2⟩
  have hrm : ∀ (m alu w src), src.wellFormed → ∃ r, runRmw i m alu w src s = finishStep i s.pc r ∧ EndsWell s r := by
    intro m alu w src hs
    refine ⟨_, rfl, ?_⟩
    split
    · exact ⟨⟨rfl, rfl, rfl, id, id, id⟩, fun _ h => by cases h⟩
    refine endsWell_start (i := i) ?_
    refine endsWell_bind (keepsIn_readSource hs) fun a s1 _ m1 => ?_
    have hu : ∀ n, Keeps s1 (s1.useDraws n) := fun n => ⟨rfl, rfl, rfl, id, id, id⟩
    have : ∀ n res fl, EndsWell (s1.useDraws n) ((writeLoc m w a.loc res (s1.useDraws n)).andThen fun wr s4 =>
        .ok (isConstant src) (writeBack (fmt2Ctx s w src false).pcNext fl wr s4)) := by
      intro n res fl
      refine endsWell_bind keepsIn_writeLoc fun wr s4 h4 m4 => ⟨_, _, _, _, rfl, Keeps.refl _, ?_, writeLoc_pc h4⟩
      rw [m4.pc, (hu n).pc, m1.pc]
      exact odd_add_even _ _
    have k := this (alu w a.value 0#16 (carryBit s.sr) s.draws).draws (alu w a.value 0#16 (carryBit s.sr) s.draws).res (alu w a.value 0#16 (carryBit s.sr) s.draws).flags
    revert k
    simp only []
    generalize (writeLoc m w a.loc _ _).andThen _ = r
    cases r with
    | ok b v =>
      rintro ⟨x, pcf, flags, wr, k1, k2, k3, k4⟩
      exact ⟨x, pcf, flags, wr, k1, (hu _).trans k2, k3, k4⟩
    | raise e v => exact fun k => ⟨(hu _).trans k.1, k.2⟩
  have hstub : i.wellFormed → exec i s = runStub i s → ∃ r, exec i s = finishStep i s.pc r ∧ EndsWell s r := by
    intro _ h
    exact ⟨_, h, ⟨⟨rfl, rfl, rfl, id, id, id⟩, fun _ h => by cases h⟩⟩
  have hj : ∀ (cond off), exec i s = runJump i cond off s → ∃ r, exec i s = finishStep i s.pc r ∧ EndsWell s r := by
    intro cond off h
    rw [h]
    refine ⟨.ok false (writeBack (if cond s.sr then jumpTarget s.pc off else s.pc + 2#16) none .plain (startStep i s)), rfl, startStep i s, _, none, .plain, rfl, ⟨rfl, rfl, rfl, id, id, id⟩, ?_, by simp⟩
    unfold jumpTarget
    have h2 : ∀ x : Word, isOdd (s.pc + 2#16 + 2#16 * x) = isOdd s.pc := by
      intro x; unfold isOdd
      rw [BitVec.toNat_add, BitVec.toNat_add, BitVec.toNat_mul]; congr 1
      have : (2#16).toNat = 2 := rfl
      rw [this]; omega
    split
    · exact h2 _
    · exact odd_add_even _ 1
  cases i with
  | mov w src dst => exact hf1 _ _ _ w src dst (fmt1_source_wellFormed (w := w) hwf)
  | add w src dst => exact hf1 _ _ _ w src dst (fmt1_source_wellFormed (w := w) hwf)
  | addc w src dst => exact hf1 _ _ _ w src dst (fmt1_source_wellFormed (w := w) hwf)
  | subc w src dst => exact hf1 _ _ _ w src dst (fmt1_source_wellFormed (w := w) hwf)
  | sub w src dst => exact hf1 _ _ _ w src dst (fmt1_source_wellFormed (w := w) hwf)
  | cmp w src dst => exact hf1 _ _ _ w src dst (fmt1_source_wellFormed (w := w) hwf)
  | dadd w src dst => exact hf1 _ _ _ w src dst (fmt1_source_wellFormed (w := w) hwf)
  | bit w src dst => exact hf1 _ _ _ w src dst (fmt1_source_wellFormed (w := w) hwf)
  | bic w src dst => exact hf1 _ _ _ w src dst (fmt1_source_wellFormed (w := w) hwf)
  | bis w src dst => exact hf1 _ _ _ w src dst (fmt1_source_wellFormed (w := w) hwf)
  | xor w src dst => exact hf1 _ _ _ w src dst (fmt1_source_wellFormed (w := w) hwf)
  | and w src dst => exact hf1 _ _ _ w src dst (fmt1_source_wellFormed (w := w) hwf)
  | rrc w src => exact hrm _ _ w src hwf
  | swpb src => exact hrm _ _ .word src hwf
  | rra w src => exact hrm _ _ w src hwf
  | sxt src => exact hrm _ _ .word src hwf
  | push w src =>
    refine ⟨_, rfl, endsWell_start (i := .push w src) ?_⟩
    refine endsWell_bind (keepsIn_readSource hwf) fun a s1 _ m1 => endsWell_bind keepsIn_pushValue fun _ s2 _ m2 => ⟨_, _, _, _, rfl, Keeps.refl _, ?_, by simp⟩
    rw [m2.pc, m1.pc]; exact odd_add_even _ _
  | call src =>
    refine ⟨_, rfl, endsWell_start (i := .call src) ?_⟩
    refine endsWell_bind (keepsIn_readSource hwf) fun a s1 _ m1 => endsWell_bind keepsIn_pushValue fun _ s2 _ m2 => endsWell_bind keepsIn_checkPc fun wr s3 h3 m3 => ⟨_, _, _, _, rfl, Keeps.refl _, ?_, ?_⟩
    · rw [m3.pc, m2.pc, m1.pc]; exact odd_add_even _ _
    · exact writeLoc_pc (m := .call) (l := .reg .pc) h3
  | reti =>
    refine ⟨_, rfl, endsWell_start (i := .reti) ?_⟩
    refine endsWell_bind (keepsIn_note keepsIn_memRead) fun srv s1 _ m1 => endsWell_bind keepsIn_memRead fun pcv s2 _ m2 => endsWell_bind keepsIn_popSr fun _ s3 _ m3 =>
      endsWell_bind keepsIn_writeSp fun _ s4 _ m4 => endsWell_bind keepsIn_checkPc fun wr s5 h5 m5 => ⟨_, _, _, _, rfl, Keeps.refl _, ?_, ?_⟩
    · rw [m5.pc, m4.pc, m3.pc, m2.pc, m1.pc]; exact odd_add_even _ 1
    · exact writeLoc_pc (m := .call) (l := .reg .pc) h5
  | jne off => exact hj _ off rfl
  | jeq off => exact hj _ off rfl
  | jnc off => exact hj _ off rfl
  | jc off => exact hj _ off rfl
  | jn off => exact hj _ off rfl
  | jge off => exact hj _ off rfl
  | jl off => exact hj _ off rfl
  | jmp off => exact hj _ off rfl
  | ext x => exact hstub rfl rfl
  | pushmA x => exact hstub rfl rfl
  | pushmW x => exact hstub rfl rfl
  | popmA x => exact hstub rfl rfl
  | popmW x => exact hstub rfl rfl
  | rrcm n aw r => exact hstub rfl rfl
  | rram n aw r => exact hstub rfl rfl
  | rlam n aw r => exact hstub rfl rfl
  | rrum n aw r => exact hstub rfl rfl

end Sys2Proof.Machine
end

