-- ==== Sys2Proof/Laws/PerInstr.lean ====
section
/-! SUPPORT. One law per instruction: its opcode word lies in the row that the opcode table (spec/opcode_table.json) gives its mnemonic. -/

namespace Sys2Proof.Laws.TableRow

open Sys2Proof

/-- The row of the opcode table: the fixed bits' mask and their value. -/
structure Row where
  mask  : Word
  value : Word
deriving DecidableEq, Repr

/-- The rows, as spec/opcode_table.json gives them. -/
def rowOf : Instr → Row
  | .mov _ _ _ => ⟨0xF000#16, 0x4000#16⟩
  | .add _ _ _ => ⟨0xF000#16, 0x5000#16⟩
  | .addc _ _ _ => ⟨0xF000#16, 0x6000#16⟩
  | .subc _ _ _ => ⟨0xF000#16, 0x7000#16⟩
  | .sub _ _ _ => ⟨0xF000#16, 0x8000#16⟩
  | .cmp _ _ _ => ⟨0xF000#16, 0x9000#16⟩
  | .dadd _ _ _ => ⟨0xF000#16, 0xA000#16⟩
  | .bit _ _ _ => ⟨0xF000#16, 0xB000#16⟩
  | .bic _ _ _ => ⟨0xF000#16, 0xC000#16⟩
  | .bis _ _ _ => ⟨0xF000#16, 0xD000#16⟩
  | .xor _ _ _ => ⟨0xF000#16, 0xE000#16⟩
  | .and _ _ _ => ⟨0xF000#16, 0xF000#16⟩
  | .rrc _ _ => ⟨0xFF80#16, 0x1000#16⟩
  | .swpb _ => ⟨0xFFC0#16, 0x1080#16⟩
  | .rra _ _ => ⟨0xFF80#16, 0x1100#16⟩
  | .sxt _ => ⟨0xFFC0#16, 0x1180#16⟩
  | .push _ _ => ⟨0xFF80#16, 0x1200#16⟩
  | .call _ => ⟨0xFFC0#16, 0x1280#16⟩
  | .reti => ⟨0xFFFF#16, 0x1300#16⟩
  | .jne _ => ⟨0xFC00#16, 0x2000#16⟩
  | .jeq _ => ⟨0xFC00#16, 0x2400#16⟩
  | .jnc _ => ⟨0xFC00#16, 0x2800#16⟩
  | .jc _ => ⟨0xFC00#16, 0x2C00#16⟩
  | .jn _ => ⟨0xFC00#16, 0x3000#16⟩
  | .jge _ => ⟨0xFC00#16, 0x3400#16⟩
  | .jl _ => ⟨0xFC00#16, 0x3800#16⟩
  | .jmp _ => ⟨0xFC00#16, 0x3C00#16⟩
  | .ext _ => ⟨0xF800#16, 0x1800#16⟩
  | .rrcm _ _ _ => ⟨0xF3E0#16, 0x0040#16⟩
  | .rram _ _ _ => ⟨0xF3E0#16, 0x0140#16⟩
  | .rlam _ _ _ => ⟨0xF3E0#16, 0x0240#16⟩
  | .rrum _ _ _ => ⟨0xF3E0#16, 0x0340#16⟩
  | .pushmA _ => ⟨0xFF00#16, 0x1400#16⟩
  | .pushmW _ => ⟨0xFF00#16, 0x1500#16⟩
  | .popmA _ => ⟨0xFF00#16, 0x1600#16⟩
  | .popmW _ => ⟨0xFF00#16, 0x1700#16⟩

/-- The opcode word of an instruction has the fixed bits of its row. -/
def Statement (i : Instr) : Prop := i.opcodeWord &&& (rowOf i).mask = (rowOf i).value

/-- The bits of a word above its low `k`: the mask of a row whose operand bits are the low ones. -/
theorem high_bits {w v mask : Word} {k x : Nat} (hm : mask = ~~~(BitVec.ofNat 16 (2 ^ k - 1))) (hk : k ≤ 16) (hx : x < 2 ^ k)
    (hw : w = BitVec.ofNat 16 (v.toNat + x)) (hv : v.toNat % 2 ^ k = 0) : w &&& mask = v := by
  subst hm hw
  apply BitVec.eq_of_getLsbD_eq
  intro j hj
  have hp : 2 ^ k ≤ 2 ^ 16 := Nat.pow_le_pow_right (by decide) hk
  obtain ⟨q, hq⟩ := Nat.dvd_of_mod_eq_zero hv
  rw [BitVec.getLsbD_and, BitVec.getLsbD_not, BitVec.getLsbD_ofNat, BitVec.getLsbD_ofNat, Nat.testBit_two_pow_sub_one]
  have e : v.getLsbD j = v.toNat.testBit j := rfl
  rw [e, hq, Nat.two_pow_add_eq_or_of_lt hx, Nat.testBit_or, Nat.testBit_two_pow_mul]
  by_cases h : j < k
  · simp [h, hj, Nat.not_le.2 h]
  · have h2 : k ≤ j := Nat.le_of_not_lt h
    have h3 : x.testBit j = false := Nat.testBit_lt_two_pow (Nat.lt_of_lt_of_le hx (Nat.pow_le_pow_right (by decide) h2))
    simp [h, hj, h2, h3]

theorem fmt1_row (op : Nat) (h : op < 16) (w : Width) (src : Src) (dst : Dst) :
    fmt1Word op w src dst &&& 0xF000#16 = BitVec.ofNat 16 (op * 4096) := by
  obtain ⟨f1, f2⟩ := src_fields_lt src
  obtain ⟨f3, f4⟩ := dst_fields_lt dst
  have f5 := bw_lt w
  refine high_bits (v := BitVec.ofNat 16 (op * 4096)) (mask := 0xF000#16) (k := 12)
    (x := src.regField * 256 + dst.adBit * 128 + w.bw * 64 + src.asBits * 16 + dst.regField)
    (by decide) (by decide) (by omega) ?_ ?_
  · rw [BitVec.toNat_ofNat, Nat.mod_eq_of_lt (by omega)]; unfold fmt1Word; exact congrArg (BitVec.ofNat 16) (by omega)
  · rw [BitVec.toNat_ofNat]; omega

theorem fmt2_row (op : Nat) (h : op < 8) (w : Width) (src : Src) :
    fmt2Word op w src &&& 0xFF80#16 = BitVec.ofNat 16 (0x1000 + op * 128) := by
  obtain ⟨f1, f2⟩ := src_fields_lt src
  have f5 := bw_lt w
  refine high_bits (k := 7) (x := w.bw * 64 + src.asBits * 16 + src.regField) (by decide) (by decide) (by omega) ?_ ?_
  · rw [BitVec.toNat_ofNat, Nat.mod_eq_of_lt (by omega)]; unfold fmt2Word; congr 1; omega
  · rw [BitVec.toNat_ofNat]; omega

theorem fmt2Word_row (op : Nat) (h : op < 8) (src : Src) :
    fmt2Word op .word src &&& 0xFFC0#16 = BitVec.ofNat 16 (0x1000 + op * 128) := by
  obtain ⟨f1, f2⟩ := src_fields_lt src
  refine high_bits (k := 6) (x := src.asBits * 16 + src.regField) (by decide) (by decide) (by omega) ?_ ?_
  · rw [BitVec.toNat_ofNat, Nat.mod_eq_of_lt (by omega)]; unfold fmt2Word; congr 1; simp only [Width.bw]; omega
  · rw [BitVec.toNat_ofNat]; omega

theorem jump_row (c : Nat) (h : c < 8) (off : BitVec 10) : jumpWord c off &&& 0xFC00#16 = BitVec.ofNat 16 (0x2000 + c * 1024) := by
  have := off.isLt
  refine high_bits (k := 10) (x := off.toNat) (by decide) (by decide) (by omega) ?_ ?_
  · rw [BitVec.toNat_ofNat, Nat.mod_eq_of_lt (by omega)]; rfl
  · rw [BitVec.toNat_ofNat]; omega

theorem multiple_row (k : Nat) (h : k < 4) (x : BitVec 8) :
    BitVec.ofNat 16 (0x1400 + k * 256 + x.toNat) &&& 0xFF00#16 = BitVec.ofNat 16 (0x1400 + k * 256) := by
  have := x.isLt
  refine high_bits (k := 8) (x := x.toNat) (by decide) (by decide) (by omega) ?_ ?_
  · rw [BitVec.toNat_ofNat, Nat.mod_eq_of_lt (by omega)]
  · rw [BitVec.toNat_ofNat]; omega

theorem rotate_row (kk : Nat) (h : kk < 4) (n : BitVec 2) (aw : BitVec 1) (r : BitVec 4) :
    rotateWord kk n aw r &&& 0xF3E0#16 = BitVec.ofNat 16 (kk * 256 + 0x40) := by
  revert n aw r
  interval_cases kk <;> decide

theorem mov (w : Width) (src : Src) (dst : Dst) : Statement (.mov w src dst) := fmt1_row 4 (by decide) w src dst
theorem add (w : Width) (src : Src) (dst : Dst) : Statement (.add w src dst) := fmt1_row 5 (by decide) w src dst
theorem addc (w : Width) (src : Src) (dst : Dst) : Statement (.addc w src dst) := fmt1_row 6 (by decide) w src dst
theorem subc (w : Width) (src : Src) (dst : Dst) : Statement (.subc w src dst) := fmt1_row 7 (by decide) w src dst
theorem sub (w : Width) (src : Src) (dst : Dst) : Statement (.sub w src dst) := fmt1_row 8 (by decide) w src dst
theorem cmp (w : Width) (src : Src) (dst : Dst) : Statement (.cmp w src dst) := fmt1_row 9 (by decide) w src dst
theorem dadd (w : Width) (src : Src) (dst : Dst) : Statement (.dadd w src dst) := fmt1_row 10 (by decide) w src dst
theorem bit (w : Width) (src : Src) (dst : Dst) : Statement (.bit w src dst) := fmt1_row 11 (by decide) w src dst
theorem bic (w : Width) (src : Src) (dst : Dst) : Statement (.bic w src dst) := fmt1_row 12 (by decide) w src dst
theorem bis (w : Width) (src : Src) (dst : Dst) : Statement (.bis w src dst) := fmt1_row 13 (by decide) w src dst
theorem xor (w : Width) (src : Src) (dst : Dst) : Statement (.xor w src dst) := fmt1_row 14 (by decide) w src dst
theorem and (w : Width) (src : Src) (dst : Dst) : Statement (.and w src dst) := fmt1_row 15 (by decide) w src dst
theorem rrc (w : Width) (src : Src) : Statement (.rrc w src) := fmt2_row 0 (by decide) w src
theorem swpb (src : Src) : Statement (.swpb src) := fmt2Word_row 1 (by decide) src
theorem rra (w : Width) (src : Src) : Statement (.rra w src) := fmt2_row 2 (by decide) w src
theorem sxt (src : Src) : Statement (.sxt src) := fmt2Word_row 3 (by decide) src
theorem push (w : Width) (src : Src) : Statement (.push w src) := fmt2_row 4 (by decide) w src
theorem call (src : Src) : Statement (.call src) := fmt2Word_row 5 (by decide) src
theorem reti : Statement .reti := rfl
theorem jne (off : BitVec 10) : Statement (.jne off) := jump_row 0 (by decide) off
theorem jeq (off : BitVec 10) : Statement (.jeq off) := jump_row 1 (by decide) off
theorem jnc (off : BitVec 10) : Statement (.jnc off) := jump_row 2 (by decide) off
theorem jc (off : BitVec 10) : Statement (.jc off) := jump_row 3 (by decide) off
theorem jn (off : BitVec 10) : Statement (.jn off) := jump_row 4 (by decide) off
theorem jge (off : BitVec 10) : Statement (.jge off) := jump_row 5 (by decide) off
theorem jl (off : BitVec 10) : Statement (.jl off) := jump_row 6 (by decide) off
theorem jmp (off : BitVec 10) : Statement (.jmp off) := jump_row 7 (by decide) off
theorem ext (x : BitVec 11) : Statement (.ext x) := high_bits (v := 0x1800#16) (k := 11) (x := x.toNat) (show 0xF800#16 = _ by decide) (by decide) x.isLt rfl (by decide)
theorem rrcm (n : BitVec 2) (aw : BitVec 1) (r : BitVec 4) : Statement (.rrcm n aw r) := rotate_row 0 (by decide) n aw r
theorem rram (n : BitVec 2) (aw : BitVec 1) (r : BitVec 4) : Statement (.rram n aw r) := rotate_row 1 (by decide) n aw r
theorem rlam (n : BitVec 2) (aw : BitVec 1) (r : BitVec 4) : Statement (.rlam n aw r) := rotate_row 2 (by decide) n aw r
theorem rrum (n : BitVec 2) (aw : BitVec 1) (r : BitVec 4) : Statement (.rrum n aw r) := rotate_row 3 (by decide) n aw r
theorem pushmA (x : BitVec 8) : Statement (.pushmA x) := multiple_row 0 (by decide) x
theorem pushmW (x : BitVec 8) : Statement (.pushmW x) := multiple_row 1 (by decide) x
theorem popmA (x : BitVec 8) : Statement (.popmA x) := multiple_row 2 (by decide) x
theorem popmW (x : BitVec 8) : Statement (.popmW x) := multiple_row 3 (by decide) x

end Sys2Proof.Laws.TableRow
end

