-- ==== Sys2Proof/Machine/Emulated.lean ====
section
/-! DEFINITION. The emulated instructions as other names of core instructions (spec 30_encoding.md R114), the constant modes an assembler
chooses for `#N` (R113), and the offset it writes for a jump (R115). Nothing in the machine uses these: each executes as its expansion. -/

namespace Sys2Proof.Machine

/-- The source mode that the fields of a destination select, for RLA and RLC, whose two operands are written alike: the destination's mode, but for
R3, which as a source is a constant (R88). -/
def sourceOfDest (dst : Dst) : Src := Src.ofFields dst.adBit dst.regField

def emulatedAdc (w : Width) (dst : Dst) : Instr := .addc w .cg0 dst
def emulatedBr (src : Src) : Instr := .mov .word src (.reg .pc)
def emulatedClr (w : Width) (dst : Dst) : Instr := .mov w .cg0 dst
def emulatedClrc : Instr := .bic .word .cg1 (.reg .sr)
def emulatedClrn : Instr := .bic .word .cg4 (.reg .sr)
def emulatedClrz : Instr := .bic .word .cg2 (.reg .sr)
def emulatedDadc (w : Width) (dst : Dst) : Instr := .dadd w .cg0 dst
def emulatedDec (w : Width) (dst : Dst) : Instr := .sub w .cg1 dst
def emulatedDecd (w : Width) (dst : Dst) : Instr := .sub w .cg2 dst
def emulatedDint : Instr := .bic .word .cg8 (.reg .sr)
def emulatedEint : Instr := .bis .word .cg8 (.reg .sr)
def emulatedInc (w : Width) (dst : Dst) : Instr := .add w .cg1 dst
def emulatedIncd (w : Width) (dst : Dst) : Instr := .add w .cg2 dst
def emulatedInv (w : Width) (dst : Dst) : Instr := .xor w .cgm1 dst
def emulatedNop : Instr := .mov .word .cg0 (.reg .cg)
def emulatedPop (w : Width) (dst : Dst) : Instr := .mov w (.inc .sp) dst
def emulatedRet : Instr := .mov .word (.inc .sp) (.reg .pc)
def emulatedRla (w : Width) (dst : Dst) : Instr := .add w (sourceOfDest dst) dst
def emulatedRlc (w : Width) (dst : Dst) : Instr := .addc w (sourceOfDest dst) dst
def emulatedSbc (w : Width) (dst : Dst) : Instr := .subc w .cg0 dst
def emulatedSetc : Instr := .bis .word .cg1 (.reg .sr)
def emulatedSetn : Instr := .bis .word .cg4 (.reg .sr)
def emulatedSetz : Instr := .bis .word .cg2 (.reg .sr)
def emulatedTst (w : Width) (dst : Dst) : Instr := .cmp w .cg0 dst

/-- The source mode an assembler writes for `#N`, and its extension word if the mode has one (R113). -/
def assembleImmediate (w : Width) (n : Word) : Src × Option Word :=
  let v := match w with
    | .byte => n &&& 0x00FF#16
    | .word => n
  let minusOne := match w with
    | .byte => 0x00FF#16
    | .word => 0xFFFF#16
  if v = 0#16 then (.cg0, none)
  else if v = 1#16 then (.cg1, none)
  else if v = 2#16 then (.cg2, none)
  else if v = 4#16 then (.cg4, none)
  else if v = 8#16 then (.cg8, none)
  else if v = minusOne then (.cgm1, none)
  else (.imm, some n)

/-- The offset of a jump at `a` to `label` (R115): none where the label is odd or out of range. -/
def assembleJumpOffset (a label : Word) : Option (BitVec 10) :=
  let d := (label - (a + 2#16)).toInt
  if d % 2 = 0 ∧ -1024 ≤ d ∧ d ≤ 1022 then some (BitVec.ofInt 10 (d / 2)) else none

end Sys2Proof.Machine
end

