-- ==== Sys2Proof/Tests/Slice0.lean ====
section
/-! SUPPORT. The model's own tests: well-formedness, decoding from words written out of the spec's encodings, the spec's own vectors (spec
95_test_vectors.md), each one step, and a witness for each statement with hypotheses. -/

namespace Sys2Proof.Tests

open Sys2Proof Sys2Proof.Machine Sys2Proof.Claims

/-! ### Small states -/

def r4 : Reg := .gp 0
def r5 : Reg := .gp 1

/-- A word stored, low byte first. -/
def poke (s : State) (c : Word × Word) : State := (s.putByte c.1 (lowByte c.2)).putByte (c.1 + 1#16) (highByte c.2)

/-- Words stored one after another. -/
def pokeFrom : Word → List Word → State → State
  | _, [], s => s
  | a, w :: ws, s => pokeFrom (a + 2#16) ws (poke s (a, w))

/-- The state of a vector: its words at 0x4400, where PC is, its registers and its words of memory, the rest as at reset. -/
def start (words : List Word) (regs : List (Reg × Word)) (cells : List (Word × Word)) : State :=
  pokeFrom 0x4400#16 words (cells.foldl poke (regs.foldl (fun s r => s.setReg r.1 r.2) { State.reset with pc := 0x4400#16 }))

/-- One step completes, and the registers and words of memory are as the vector says. -/
def gives (s : State) (regs : List (Reg × Word)) (cells : List (Word × Word)) : Bool :=
  match step s with
  | .next t => (regs.all fun r => t.readReg r.1 == r.2) && cells.all fun c => wordAt t c.1 == some c.2
  | .fault _ | .refused _ => false

/-- One step stops with a report, at the PC it started at, with the registers as the vector says. -/
def stops (s : State) (report : FaultReport) (regs : List (Reg × Word)) : Bool :=
  match step s with
  | .fault f => f.report == report && f.after.pc == s.pc && regs.all fun r => f.after.readReg r.1 == r.2
  | .next _ | .refused _ => false

/-- The trace of one step. -/
def traceOf (s : State) : List TraceEntry :=
  match step s with
  | .next t => t.trace
  | .fault f => f.after.trace
  | .refused _ => []

/-- The outcome of one step that is no fault. -/
def outcomeOf (s : State) : Option StepOutcome :=
  match step s with
  | .next t => t.outcome
  | .fault _ | .refused _ => none

/-- `MMIO_POLICY = Default`, `MMIO_DEFAULT_BYTE = 0x5A`. -/
def defaultPolicy (s : State) : State := { s with params := { s.params with policy := .default, mmioDefault := 0x5A#8 } }

/-- One handler, at 0x0200: it reads as 0x77 whatever it stores, stores 0x11 whatever comes in, and starts with 0x22. -/
def device : MmioHandler := { addr := 0x0200#16, read := Vector.replicate 256 0x77#8, write := Vector.replicate 256 0x11#8, init := 0x22#8 }

def withDevice (s : State) : State := { s with params := { s.params with handlers := [device] } }

/-! ### Well-formedness: an ill-formed term for each check (30_encoding.md R104) -/

theorem test_wf_reg_excludes_r3 : (Instr.add .word (.reg .cg) (.reg r5)).wellFormed = false := by decide
theorem test_wf_idx_excludes_r0_r2_r3 : [Reg.pc, .sr, .cg].all (fun r => !(Instr.push .word (.idx r)).wellFormed) := by decide
theorem test_wf_ind_excludes_r2_r3 : [Reg.sr, .cg].all (fun r => !(Instr.call (.ind r)).wellFormed) := by decide
theorem test_wf_inc_excludes_r0_r2_r3 : [Reg.pc, .sr, .cg].all (fun r => !(Instr.rrc .byte (.inc r)).wellFormed) := by decide
theorem test_wf_dest_idx_excludes_r0_r2 : [Reg.pc, .sr].all (fun r => !(Instr.mov .word .imm (.idx r)).wellFormed) := by decide
theorem test_wf_dest_idx_r3_accepted : (Instr.mov .word .imm (.idx .cg)).wellFormed := by decide
theorem test_wf_params_reset : wellFormedParams State.reset.params := by decide
theorem test_wf_params_ram_past_end : wellFormedParams { defaultParams with ramBase := 0xFF00, ramSize := 0x101, nvmSize := 0 } = false := by decide
theorem test_wf_params_nvm_past_end : wellFormedParams { defaultParams with nvmSize := 0xBC01 } = false := by decide
theorem test_wf_params_overlap : wellFormedParams { defaultParams with ramSize := 0x2801 } = false := by decide
theorem test_wf_params_adjacent_allowed : wellFormedParams { defaultParams with ramSize := 0x2800 } := by decide
theorem test_wf_params_handler_in_ram : wellFormedParams { defaultParams with handlers := [{ device with addr := 0x1C00#16 }] } = false := by decide
theorem test_wf_params_handler_in_nvm : wellFormedParams { defaultParams with handlers := [{ device with addr := 0xFFFF#16 }] } = false := by decide
theorem test_wf_params_handler_twice : wellFormedParams { defaultParams with handlers := [device, device] } = false := by decide

/-! ### Decoding: words written out bit by bit from the encodings of 30_encoding.md R82–R87 and 44_unsupported.md R231–R234 -/

/-- `0100 0101 1 1 01 0110` -/
theorem test_decode_mov : decodeWord 0b0100_0101_1101_0110#16 = .instr (.mov .byte (.idx (.gp 1)) (.idx (.gp 2))) := by decide
/-- `0101 0100 0 0 00 0101` -/
theorem test_decode_add : decodeWord 0b0101_0100_0000_0101#16 = .instr (.add .word (.reg r4) (.reg r5)) := by decide
/-- `0110 1111 0 1 11 0001` -/
theorem test_decode_addc : decodeWord 0b0110_1111_0111_0001#16 = .instr (.addc .byte (.inc (.gp 11)) (.reg .sp)) := by decide
/-- `0111 0011 1 0 01 0010` -/
theorem test_decode_subc : decodeWord 0b0111_0011_1001_0010#16 = .instr (.subc .word .cg1 .abs) := by decide
/-- `1000 0000 1 0 01 0000` -/
theorem test_decode_sub : decodeWord 0b1000_0000_1001_0000#16 = .instr (.sub .word .sym .sym) := by decide
/-- `1001 0010 0 1 10 0101` -/
theorem test_decode_cmp : decodeWord 0b1001_0010_0110_0101#16 = .instr (.cmp .byte .cg4 (.reg r5)) := by decide
/-- `1010 0010 1 0 01 0100` -/
theorem test_decode_dadd : decodeWord 0b1010_0010_1001_0100#16 = .instr (.dadd .word .abs (.idx r4)) := by decide
/-- `1011 0001 0 0 10 0011` -/
theorem test_decode_bit : decodeWord 0b1011_0001_0010_0011#16 = .instr (.bit .word (.ind .sp) (.reg .cg)) := by decide
/-- `1100 0011 0 1 11 0010` -/
theorem test_decode_bic : decodeWord 0b1100_0011_0111_0010#16 = .instr (.bic .byte .cgm1 (.reg .sr)) := by decide
/-- `1101 0010 0 0 11 0010` -/
theorem test_decode_bis : decodeWord 0b1101_0010_0011_0010#16 = .instr (.bis .word .cg8 (.reg .sr)) := by decide
/-- `1110 0000 0 0 11 0101` -/
theorem test_decode_xor : decodeWord 0b1110_0000_0011_0101#16 = .instr (.xor .word .imm (.reg r5)) := by decide
/-- `1111 0000 1 1 10 0011` -/
theorem test_decode_and : decodeWord 0b1111_0000_1110_0011#16 = .instr (.and .byte (.ind .pc) (.idx .cg)) := by decide
/-- `000100 000 1 01 0100` -/
theorem test_decode_rrc : decodeWord 0b0001_0000_0101_0100#16 = .instr (.rrc .byte (.idx r4)) := by decide
/-- `000100 001 0 00 0101` -/
theorem test_decode_swpb : decodeWord 0b0001_0000_1000_0101#16 = .instr (.swpb (.reg r5)) := by decide
/-- `000100 010 0 11 1111` -/
theorem test_decode_rra : decodeWord 0b0001_0001_0011_1111#16 = .instr (.rra .word (.inc (.gp 11))) := by decide
/-- `000100 011 0 10 0100` -/
theorem test_decode_sxt : decodeWord 0b0001_0001_1010_0100#16 = .instr (.sxt (.ind r4)) := by decide
/-- `000100 100 1 11 0010` -/
theorem test_decode_push : decodeWord 0b0001_0010_0111_0010#16 = .instr (.push .byte .cg8) := by decide
/-- `000100 101 0 01 0010` -/
theorem test_decode_call : decodeWord 0b0001_0010_1001_0010#16 = .instr (.call .abs) := by decide
/-- `000100 110 0 00 0000` -/
theorem test_decode_reti : decodeWord 0b0001_0011_0000_0000#16 = .instr (.reti) := by decide
/-- `001 000 1000000000` -/
theorem test_decode_jne : decodeWord 0b0010_0010_0000_0000#16 = .instr (.jne 0x200#10) := by decide
/-- `001 001 0000000001` -/
theorem test_decode_jeq : decodeWord 0b0010_0100_0000_0001#16 = .instr (.jeq 0x001#10) := by decide
/-- `001 010 0000000101` -/
theorem test_decode_jnc : decodeWord 0b0010_1000_0000_0101#16 = .instr (.jnc 0x005#10) := by decide
/-- `001 011 0111111111` -/
theorem test_decode_jc : decodeWord 0b0010_1101_1111_1111#16 = .instr (.jc 0x1FF#10) := by decide
/-- `001 100 1111111111` -/
theorem test_decode_jn : decodeWord 0b0011_0011_1111_1111#16 = .instr (.jn 0x3FF#10) := by decide
/-- `001 101 0000000000` -/
theorem test_decode_jge : decodeWord 0b0011_0100_0000_0000#16 = .instr (.jge 0x000#10) := by decide
/-- `001 110 1111111110` -/
theorem test_decode_jl : decodeWord 0b0011_1011_1111_1110#16 = .instr (.jl 0x3FE#10) := by decide
/-- `001 111 0000000101` -/
theorem test_decode_jmp : decodeWord 0b0011_1100_0000_0101#16 = .instr (.jmp 0x005#10) := by decide
/-- `00011 10110111011` -/
theorem test_decode_ext : decodeWord 0b0001_1101_1011_1011#16 = .instr (.ext 0x5BB#11) := by decide
/-- `00010100 00110100` -/
theorem test_decode_pushmA : decodeWord 0b0001_0100_0011_0100#16 = .instr (.pushmA 0x34#8) := by decide
/-- `00010101 00110100` -/
theorem test_decode_pushmW : decodeWord 0b0001_0101_0011_0100#16 = .instr (.pushmW 0x34#8) := by decide
/-- `00010110 11111111` -/
theorem test_decode_popmA : decodeWord 0b0001_0110_1111_1111#16 = .instr (.popmA 0xFF#8) := by decide
/-- `00010111 00000001` -/
theorem test_decode_popmW : decodeWord 0b0001_0111_0000_0001#16 = .instr (.popmW 0x01#8) := by decide
/-- `0000 11 00 010 1 1111` -/
theorem test_decode_rrcm : decodeWord 0b0000_1100_0101_1111#16 = .instr (.rrcm 3#2 1#1 15#4) := by decide
/-- `0000 01 01 010 0 0100` -/
theorem test_decode_rram : decodeWord 0b0000_0101_0100_0100#16 = .instr (.rram 1#2 0#1 4#4) := by decide
/-- `0000 00 10 010 1 0000` -/
theorem test_decode_rlam : decodeWord 0b0000_0010_0101_0000#16 = .instr (.rlam 0#2 1#1 0#4) := by decide
/-- `0000 00 11 010 1 0100` -/
theorem test_decode_rrum : decodeWord 0b0000_0011_0101_0100#16 = .instr (.rrum 0#2 1#1 4#4) := by decide

/-- All sixteen (as, register) choices that R88 singles out, and the generic modes beside them. -/
theorem test_source_modes : ([(0, 3), (1, 0), (1, 2), (1, 3), (2, 2), (2, 3), (3, 0), (3, 2), (3, 3), (0, 0), (0, 2), (2, 0), (1, 1), (3, 1)].map
    fun p : Nat × Nat => Src.ofFields p.1 p.2) =
  [.cg0, .sym, .abs, .cg1, .cg4, .cg2, .imm, .cg8, .cgm1, .reg .pc, .reg .sr, .ind .pc, .idx .sp, .inc .sp] := by decide

/-- D-1 to D-5 and the edges of each class (30_encoding.md R105). -/
theorem test_no_match_edges :
    ([0x0000#16, 0x0FFF#16, 0x10C0#16, 0x10FF#16, 0x11C0#16, 0x11FF#16, 0x12C0#16, 0x12FF#16, 0x1301#16, 0x1340#16, 0x13FF#16].map decodeWord) =
  [.noMatch .lowSpace, .noMatch .lowSpace, .noMatch .byteForm, .noMatch .byteForm, .noMatch .byteForm, .noMatch .byteForm, .noMatch .byteForm,
   .noMatch .byteForm, .noMatch .retiSpace, .noMatch .retiSpace, .noMatch .retiSpace] := by decide

/-- The table's numbering: bit 0 is the first word's, and the word is read low byte first. -/
theorem test_table_word : decodeTableWord 16 0x5405 = some (.add .word (.reg r4) (.reg r5)) := by decide
theorem test_bytes_low_first : decodeBytes [0x05#8, 0x54#8, 0xAA#8] = (.instr (.add .word (.reg r4) (.reg r5)), [0xAA#8]) := by decide

/-! ### The spec's vectors (95_test_vectors.md §1 and §2) -/

/-- F1 -/
theorem test_add_overflow : gives (start [0x5315#16] [(r5, 0x7FFF#16)] [])
    [(.pc, 0x4402#16), (r5, 0x8000#16), (.sr, 0x0104#16)] [] := by decide
/-- F3 -/
theorem test_add_byte_clears_high : gives (start [0x5355#16] [(r5, 0x127F#16)] [])
    [(.pc, 0x4402#16), (r5, 0x0080#16), (.sr, 0x0104#16)] [] := by decide
/-- F5 -/
theorem test_addc_carry_in : gives (start [0x6405#16] [(r4, 0x0000#16), (r5, 0x7FFF#16), (.sr, 0x0001#16)] [])
    [(.pc, 0x4402#16), (r5, 0x8000#16), (.sr, 0x0104#16)] [] := by decide
/-- F6 -/
theorem test_addc_byte : gives (start [0x6445#16] [(r4, 0x00FF#16), (r5, 0x00FF#16), (.sr, 0x0001#16)] [])
    [(.pc, 0x4402#16), (r5, 0x00FF#16), (.sr, 0x0005#16)] [] := by decide
/-- F7 -/
theorem test_subc_carry : gives (start [0x7405#16] [(r4, 0x0003#16), (r5, 0x0005#16), (.sr, 0x0001#16)] [])
    [(.pc, 0x4402#16), (r5, 0x0002#16), (.sr, 0x0001#16)] [] := by decide
/-- F8 -/
theorem test_subc_borrow : gives (start [0x7405#16] [(r4, 0x0000#16), (r5, 0x0000#16), (.sr, 0x0000#16)] [])
    [(.pc, 0x4402#16), (r5, 0xFFFF#16), (.sr, 0x0004#16)] [] := by decide
/-- F9 -/
theorem test_sub_borrow : gives (start [0x8315#16] [(r5, 0x0000#16)] [])
    [(.pc, 0x4402#16), (r5, 0xFFFF#16), (.sr, 0x0004#16)] [] := by decide
/-- F11 -/
theorem test_sub_byte_overflow : gives (start [0x8355#16] [(r5, 0x0080#16)] [])
    [(.pc, 0x4402#16), (r5, 0x007F#16), (.sr, 0x0101#16)] [] := by decide
/-- F13 -/
theorem test_cmp_overflow : gives (start [0x9315#16] [(r5, 0x8000#16)] [])
    [(.pc, 0x4402#16), (r5, 0x8000#16), (.sr, 0x0101#16)] [] := by decide
/-- F29 -/
theorem test_cmp_sr_merges_only : gives (start [0x9312#16] [(.sr, 0x0001#16)] [])
    [(.pc, 0x4402#16), (.sr, 0x0003#16)] [] := by decide
/-- F20 -/
theorem test_bit_zero : gives (start [0xB405#16] [(r4, 0x00F0#16), (r5, 0x0F0F#16)] [])
    [(.pc, 0x4402#16), (r5, 0x0F0F#16), (.sr, 0x0002#16)] [] := by decide
/-- F21 -/
theorem test_bit_byte : gives (start [0xB445#16] [(r4, 0x0080#16), (r5, 0x0180#16)] [])
    [(.pc, 0x4402#16), (r5, 0x0180#16), (.sr, 0x0005#16)] [] := by decide
/-- F22 -/
theorem test_bic_byte : gives (start [0xC445#16] [(r4, 0x000F#16), (r5, 0xABFF#16)] [])
    [(.pc, 0x4402#16), (r5, 0x00F0#16), (.sr, 0x0000#16)] [] := by decide
/-- F28 -/
theorem test_bic_clears_carry : gives (start [0xC312#16] [(.sr, 0x0103#16)] [])
    [(.pc, 0x4402#16), (.sr, 0x0102#16)] [] := by decide
/-- F23 -/
theorem test_bis_sets_gie : gives (start [0xD232#16] [(.sr, 0x0001#16)] [])
    [(.pc, 0x4402#16), (.sr, 0x0009#16)] [] := by decide
/-- F24 -/
theorem test_xor_both_negative : gives (start [0xE405#16] [(r4, 0x8000#16), (r5, 0x8000#16)] [])
    [(.pc, 0x4402#16), (r5, 0x0000#16), (.sr, 0x0102#16)] [] := by decide
/-- F25 -/
theorem test_xor_minus_one : gives (start [0xE335#16] [(r5, 0x00FF#16)] [])
    [(.pc, 0x4402#16), (r5, 0xFF00#16), (.sr, 0x0005#16)] [] := by decide
/-- F26 -/
theorem test_and_negative : gives (start [0xF405#16] [(r4, 0xFFFF#16), (r5, 0x8000#16)] [])
    [(.pc, 0x4402#16), (r5, 0x8000#16), (.sr, 0x0005#16)] [] := by decide
/-- F27 -/
theorem test_and_memory : gives (start [0xF4A5#16, 0x0000#16] [(r4, 0x1C00#16), (r5, 0x1C02#16)] [(0x1C00#16, 0xF00F#16), (0x1C02#16, 0xFFFF#16)])
    [(.pc, 0x4404#16), (.sr, 0x0005#16)] [(0x1C02#16, 0xF00F#16)] := by decide
/-- M2 -/
theorem test_mov_pc_to_memory : gives (start [0x4082#16, 0x1C00#16] [] [])
    [(.pc, 0x4404#16)] [(0x1C00#16, 0x4404#16)] := by decide
/-- M3 -/
theorem test_add_to_pc : gives (start [0x5220#16] [] [])
    [(.pc, 0x4406#16), (.sr, 0x0000#16)] [] := by decide
/-- M8 -/
theorem test_mov_byte_minus_one : gives (start [0x4375#16] [(r5, 0x1234#16)] [])
    [(.pc, 0x4402#16), (r5, 0x00FF#16)] [] := by decide
/-- M13 -/
theorem test_source_index_wraps : gives (start [0x4415#16, 0xFFFE#16] [(r4, 0x1C02#16)] [(0x1C00#16, 0x1122#16)])
    [(.pc, 0x4404#16), (r5, 0x1122#16)] [] := by decide
/-- M14 -/
theorem test_source_symbolic : gives (start [0x4015#16, 0xD7FE#16] [] [(0x1C00#16, 0xABCD#16)])
    [(.pc, 0x4404#16), (r5, 0xABCD#16)] [] := by decide
/-- M18 -/
theorem test_increment_overwritten : gives (start [0x4535#16] [(r5, 0x1C00#16)] [(0x1C00#16, 0xABCD#16)])
    [(.pc, 0x4402#16), (r5, 0xABCD#16)] [] := by decide
/-- M19 -/
theorem test_increment_then_destination : gives (start [0x55B5#16, 0x0000#16] [(r5, 0x1C00#16)] [(0x1C00#16, 0x0001#16), (0x1C02#16, 0x0010#16)])
    [(.pc, 0x4404#16), (r5, 0x1C02#16), (.sr, 0x0000#16)] [(0x1C02#16, 0x0011#16)] := by decide
/-- M21 -/
theorem test_destination_symbolic : gives (start [0x4480#16, 0xD7FE#16] [(r4, 0xBEEF#16)] [])
    [(.pc, 0x4404#16)] [(0x1C00#16, 0xBEEF#16)] := by decide
/-- M22 -/
theorem test_two_extension_words : gives (start [0x4495#16, 0x0002#16, 0x0004#16] [(r4, 0x1C00#16), (r5, 0x1C00#16)] [(0x1C02#16, 0x2211#16)])
    [(.pc, 0x4406#16)] [(0x1C04#16, 0x2211#16)] := by decide
/-- M23 -/
theorem test_byte_at_odd_address : gives (start [0x44C2#16, 0x1C01#16] [(r4, 0x00AA#16)] [])
    [(.pc, 0x4404#16)] [(0x1C00#16, 0xAA00#16)] := by decide
/-- M24 -/
theorem test_write_to_r3_discarded : gives (start [0x4403#16] [(r4, 0x1234#16)] [])
    [(.pc, 0x4402#16), (.cg, 0x0000#16)] [] := by decide
/-- M25 -/
theorem test_mov_to_pc : gives (start [0x4030#16, 0x4500#16] [] [])
    [(.pc, 0x4500#16)] [] := by decide
/-- S2a -/
theorem test_byte_increment_of_sp : gives (start [0x4175#16] [(.sp, 0x1C00#16)] [(0x1C00#16, 0x00CD#16)])
    [(.pc, 0x4402#16), (.sp, 0x1C02#16), (r5, 0x00CD#16)] [] := by decide
/-- S2b -/
theorem test_byte_increment : gives (start [0x4475#16] [(r4, 0x1C00#16)] [(0x1C00#16, 0x00CD#16)])
    [(.pc, 0x4402#16), (r4, 0x1C01#16), (r5, 0x00CD#16)] [] := by decide
/-- O2 -/
theorem test_rrc_byte : gives (start [0x1045#16] [(r5, 0x1202#16), (.sr, 0x0001#16)] [])
    [(.pc, 0x4402#16), (r5, 0x0081#16), (.sr, 0x0004#16)] [] := by decide
/-- O4 -/
theorem test_rrc_increment_writes_before : gives (start [0x1034#16] [(r4, 0x1C00#16)] [(0x1C00#16, 0x0003#16)])
    [(.pc, 0x4402#16), (r4, 0x1C02#16), (.sr, 0x0001#16)] [(0x1C00#16, 0x0001#16)] := by decide
/-- O5 -/
theorem test_rra_zero : gives (start [0x1105#16] [(r5, 0x0001#16)] [])
    [(.pc, 0x4402#16), (r5, 0x0000#16), (.sr, 0x0003#16)] [] := by decide
/-- O6 -/
theorem test_rra_byte_keeps_sign : gives (start [0x1145#16] [(r5, 0xFF81#16)] [])
    [(.pc, 0x4402#16), (r5, 0x00C0#16), (.sr, 0x0005#16)] [] := by decide
/-- O7 -/
theorem test_swpb : gives (start [0x1085#16] [(r5, 0x1234#16), (.sr, 0x0107#16)] [])
    [(.pc, 0x4402#16), (r5, 0x3412#16), (.sr, 0x0107#16)] [] := by decide
/-- O9 -/
theorem test_sxt_zero : gives (start [0x1185#16] [(r5, 0xFF00#16)] [])
    [(.pc, 0x4402#16), (r5, 0x0000#16), (.sr, 0x0002#16)] [] := by decide
/-- O10 -/
theorem test_sxt_negative : gives (start [0x1185#16] [(r5, 0x0080#16)] [])
    [(.pc, 0x4402#16), (r5, 0xFF80#16), (.sr, 0x0005#16)] [] := by decide
/-- O11 -/
theorem test_push_byte_leaves_high : gives (start [0x1245#16] [(.sp, 0x2400#16), (r5, 0xBEEF#16)] [(0x23FE#16, 0x2211#16)])
    [(.pc, 0x4402#16), (.sp, 0x23FE#16)] [(0x23FE#16, 0x22EF#16)] := by decide
/-- O15 -/
theorem test_push_indexed_sp : gives (start [0x1211#16, 0x0002#16] [(.sp, 0x23FC#16)] [(0x23FC#16, 0x2211#16), (0x23FE#16, 0x4433#16)])
    [(.pc, 0x4404#16), (.sp, 0x23FA#16)] [(0x23FA#16, 0x2211#16)] := by decide
/-- O17 -/
theorem test_push_suppresses_increment : gives (start [0x1234#16] [(.sp, 0x2400#16), (r4, 0x1C00#16)] [(0x1C00#16, 0x2211#16)])
    [(.pc, 0x4402#16), (.sp, 0x23FE#16), (r4, 0x1C00#16)] [(0x23FE#16, 0x2211#16)] := by decide
/-- O20 -/
theorem test_call_pc : gives (start [0x1280#16] [(.sp, 0x2400#16)] [])
    [(.pc, 0x4402#16), (.sp, 0x23FE#16)] [(0x23FE#16, 0x4402#16)] := by decide
/-- O22 -/
theorem test_call_indexed_sp : gives (start [0x1291#16, 0x0000#16] [(.sp, 0x2400#16)] [(0x23FE#16, 0x4500#16)])
    [(.pc, 0x4500#16), (.sp, 0x23FE#16)] [(0x23FE#16, 0x4404#16)] := by decide
/-- O24 -/
theorem test_reti : gives (start [0x1300#16] [(.sp, 0x23FC#16)] [(0x23FC#16, 0x0008#16), (0x23FE#16, 0x4500#16)])
    [(.pc, 0x4500#16), (.sp, 0x2400#16), (.sr, 0x0008#16)] [] := by decide
/-- O18 -/
theorem test_push_increments_under_sp_only :
    let s := start [0x1234#16] [(.sp, 0x2400#16), (r4, 0x1C00#16)] [(0x1C00#16, 0x2211#16)]
    gives { s with params := { s.params with incSuppress := .spOnly } } [(.sp, 0x23FE#16), (r4, 0x1C02#16)] [(0x23FE#16, 0x2211#16)] := by decide

/-- F15, F18: the result; DADD draws its V, so SR as a whole has no value here (40_pipeline.md R148). -/
theorem test_dadd_results : gives (start [0xA315#16] [(r5, 0x9999#16)] []) [(.pc, 0x4402#16), (r5, 0#16)] [] &&
    gives (start [0xA405#16] [(r4, 0x5678#16), (r5, 0x1234#16)] []) [(.pc, 0x4402#16), (r5, 0x6912#16)] [] := by decide
/-- F15, F16, F17: C, Z and N. -/
theorem test_dadd_flags : ([aluDadd .word 1#16 0x9999#16 false 0, aluDadd .word 0#16 0#16 true 0, aluDadd .byte 1#16 0x0099#16 false 0].map
    fun out => (out.res, out.flags.map fun f => (f.c, f.z, f.n))) =
  [(0#16, some (true, true, false)), (1#16, some (false, false, false)), (0#16, some (true, true, false))] := by decide

/-- The jump table of §2.4: each jump with offset +5 from 0x4400, under six SR values; true is taken. -/
def takenRow (word : Word) : List Bool :=
  [0x0000#16, 0x0001#16, 0x0002#16, 0x0004#16, 0x0100#16, 0x0104#16].map fun sr => gives (start [word] [(.sr, sr)] []) [(.pc, 0x440C#16), (.sr, sr)] []

theorem test_jne_row : takenRow 0x2005#16 = [true, true, false, true, true, true] := by decide
theorem test_jeq_row : takenRow 0x2405#16 = [false, false, true, false, false, false] := by decide
theorem test_jnc_row : takenRow 0x2805#16 = [true, false, true, true, true, true] := by decide
theorem test_jc_row : takenRow 0x2C05#16 = [false, true, false, false, false, false] := by decide
theorem test_jn_row : takenRow 0x3005#16 = [false, false, false, true, false, true] := by decide
theorem test_jge_row : takenRow 0x3405#16 = [true, true, true, false, false, true] := by decide
theorem test_jl_row : takenRow 0x3805#16 = [false, false, false, true, true, false] := by decide
theorem test_jmp_row : takenRow 0x3C05#16 = [true, true, true, true, true, true] := by decide
/-- The range vectors of §2.4. -/
theorem test_jump_ranges : gives (start [0x3E00#16] [] []) [(.pc, 0x4002#16)] [] && gives (start [0x3DFF#16] [] []) [(.pc, 0x4800#16)] [] &&
    gives (start [0x3FFE#16] [] []) [(.pc, 0x43FE#16)] [] && gives (start [0x2000#16] [(.sr, 2#16)] []) [(.pc, 0x4402#16)] [] := by decide
/-- With `HALT_WORD = 0xFFFF` the word 0x3FFF is a jump to itself. -/
theorem test_halt_word_changed :
    let s := start [0x3FFF#16] [] []
    outcomeOf { s with params := { s.params with haltWord := 0xFFFF#16 } } = some (.retired false) := by decide

/-- S3a: a constant is read from nowhere, and the write of PC follows the destination's. -/
theorem test_constant_trace : traceOf (start [0x4305#16] [(r5, 0xFFFF#16)] []) =
    [.fetch 0x4400#16 0x4305#16, .regWrite r5 0#16, .regWrite .pc 0x4402#16] := by decide
theorem test_constant_flag : outcomeOf (start [0x4225#16] [] []) = some (.retired true) := by decide

/-- The order of R71 and R150 for an ADD of registers and a PUSH. -/
theorem test_add_trace : traceOf (start [0x5405#16] [(r4, 1#16), (r5, 0xFFFF#16)] []) =
    [.fetch 0x4400#16 0x5405#16, .regRead r4 1#16, .regRead r5 0xFFFF#16, .regWrite r5 0#16, .regWrite .pc 0x4402#16, .regWrite .sr 3#16] := by decide
theorem test_push_trace : traceOf (start [0x1205#16] [(r5, 0xBEEF#16), (.sp, 0x2400#16)] []) =
    [.fetch 0x4400#16 0x1205#16, .regRead r5 0xBEEF#16, .regRead .sp 0x2400#16, .regWrite .sp 0x23FE#16, .memWrite 0x23FE#16 .word 0xBEEF#16,
      .regWrite .pc 0x4402#16] := by decide

/-! ### Faults (§2.5, §2.6) -/

/-- D-1 -/
theorem test_stops_no_match : stops (start [0x0000#16] [] [])
    (.decodeFailure 0x0000#16 0x4400#16) [] := by decide
/-- X1 -/
theorem test_stops_indirect_pc : stops (start [0x4025#16] [] [])
    (.unknownBehavior .indirectPC (some 0x4025#16) 0x4400#16) [(r5, 0x0000#16)] := by decide
/-- X2 -/
theorem test_stops_indexed_r3 : stops (start [0x4483#16, 0x0002#16] [(r4, 0x0001#16)] [])
    (.unknownBehavior .indexedR3Dest (some 0x4483#16) 0x4400#16) [] := by decide
/-- X3 -/
theorem test_stops_misaligned_read : stops (start [0x4215#16, 0x1C01#16] [] [])
    (.unknownBehavior .misalignedWord (some 0x4215#16) 0x4400#16) [] := by decide
/-- X4 -/
theorem test_stops_unmapped_read : stops (start [0x4215#16, 0x0200#16] [] [])
    (.memFail 0x0200#16 (some 0x4215#16) 0x4400#16) [] := by decide
/-- X6 -/
theorem test_stops_unmapped_write : stops (start [0x4482#16, 0x43FE#16] [(r4, 0x0001#16)] [])
    (.memFail 0x43FE#16 (some 0x4482#16) 0x4400#16) [] := by decide
/-- X7 -/
theorem test_stops_odd_pc : stops (start [0x4500#16] [(r5, 0x4501#16)] [])
    (.unknownBehavior .oddPC (some 0x4500#16) 0x4400#16) [] := by decide
/-- X8 -/
theorem test_stops_byte_pc : stops (start [0x4540#16] [(r5, 0x4500#16)] [])
    (.unknownBehavior .bytePCWrite (some 0x4540#16) 0x4400#16) [] := by decide
/-- X9 -/
theorem test_stops_odd_sp : stops (start [0x4501#16] [(.sp, 0x2400#16), (r5, 0x23FF#16)] [])
    (.unknownBehavior .oddSP (some 0x4501#16) 0x4400#16) [(.sp, 0x2400#16)] := by decide
/-- X11 -/
theorem test_stops_sr_unimplemented : stops (start [0x4032#16, 0x0010#16] [] [])
    (.unknownBehavior .srUnimplementedBits (some 0x4032#16) 0x4400#16) [(.sr, 0x0000#16)] := by decide
/-- X12 -/
theorem test_stops_byte_sr : stops (start [0x4442#16] [(r4, 0x0001#16)] [])
    (.unknownBehavior .byteSRWrite (some 0x4442#16) 0x4400#16) [] := by decide
/-- X13 -/
theorem test_stops_sr_unsafe_opcode : stops (start [0x5312#16] [] [])
    (.unknownBehavior .srUnsafeOpcode (some 0x5312#16) 0x4400#16) [(.sr, 0x0000#16)] := by decide
/-- X14 -/
theorem test_stops_rrc_of_sr : stops (start [0x1002#16] [(.sr, 0x0001#16)] [])
    (.unknownBehavior .srUnsafeOpcode (some 0x1002#16) 0x4400#16) [(.sr, 0x0001#16)] := by decide
/-- X15 -/
theorem test_stops_rrc_of_constant : stops (start [0x1013#16] [] [])
    (.unknownBehavior .constantOperand (some 0x1013#16) 0x4400#16) [] := by decide
/-- X16 -/
theorem test_stops_reti_bad_sr : stops (start [0x1300#16] [(.sp, 0x23FC#16)] [(0x23FC#16, 0x0010#16), (0x23FE#16, 0x4500#16)])
    (.unknownBehavior .srUnimplementedBits (some 0x1300#16) 0x4400#16) [(.sp, 0x23FC#16), (.sr, 0x0000#16)] := by decide
/-- X17 -/
theorem test_stops_reti_odd_pc_keeps_writes : stops (start [0x1300#16] [(.sp, 0x23FC#16)] [(0x23FC#16, 0x0001#16), (0x23FE#16, 0x4501#16)])
    (.unknownBehavior .oddPC (some 0x1300#16) 0x4400#16) [(.sr, 0x0001#16), (.sp, 0x2400#16)] := by decide
/-- X18 -/
theorem test_stops_push_odd_sp : stops (start [0x1205#16] [(.sp, 0x23FF#16)] [])
    (.unknownBehavior .oddSP (some 0x1205#16) 0x4400#16) [(.sp, 0x23FF#16)] := by decide
/-- X19 -/
theorem test_stops_call_odd_target_keeps_push : stops (start [0x1293#16] [(.sp, 0x2400#16)] [])
    (.unknownBehavior .oddPC (some 0x1293#16) 0x4400#16) [(.sp, 0x23FE#16)] := by decide
/-- H4 -/
theorem test_stops_fetch_at_odd_pc : stops (start [0x4305#16] [(.pc, 0x4401#16)] [])
    (.unknownBehavior .misalignedWord none 0x4401#16) [] := by decide
/-- D-6 to D-9, one word for each stub. -/
theorem test_stops_stubs : [0x1FFF#16, 0x1400#16, 0x1534#16, 0x1600#16, 0x1701#16, 0x0050#16, 0x0140#16, 0x0240#16, 0x0354#16].all
    (fun w => stops (start [w] [] []) (.unknownBehavior .unsupported (some w) 0x4400#16) [(.sp, 0#16)]) := by decide
/-- X5 -/
theorem test_default_policy_reads : gives (defaultPolicy (start [0x4215#16, 0x0200#16] [] [])) [(.pc, 0x4404#16), (r5, 0x5A5A#16)] [] := by decide
/-- X20 -/
theorem test_faulted_again :
    (match step (start [0x4025#16] [] []) with
      | .fault f => (match step f.after with
        | .fault g => g.report == f.report && g.after == f.after
        | .next _ | .refused _ => false)
      | .next _ | .refused _ => false) = true := by decide
/-- B1, B2 -/
theorem test_watch : outcomeOf { start [0x4482#16, 0x1C00#16] [(r4, 0x1234#16)] [] with watch := [(0x1C00, 0x1C02)] } = some (.breakpoint false) ∧
    outcomeOf { start [0x4215#16, 0x1C00#16] [] [] with watch := [(0x1C00, 0x1C02)] } = some (.retired false) := by decide
/-- A watched range one byte wide is met by the upper byte of a word, and not past its end. -/
theorem test_watch_edges : outcomeOf { start [0x4482#16, 0x1C00#16] [] [] with watch := [(0x1C01, 0x1C02)] } = some (.breakpoint false) ∧
    outcomeOf { start [0x4482#16, 0x1C00#16] [] [] with watch := [(0x1C02, 0x1C03)] } = some (.retired false) := by decide
/-- H1 -/
theorem test_halts : outcomeOf (start [0x3FFF#16] [] []) = some (.halted false) := by decide

/-! ### The host port -/

/-- The reset state is what `reset()` leaves of it. -/
theorem test_reset_of_reset : (match hostReset State.reset with
    | .done _ t => t == State.reset
    | .memFail _ _ | .refused => false) = true := by decide
/-- P1's vector: PC is the word at 0xFFFE. -/
theorem test_reset_vector : (match hostReset (poke State.reset (0xFFFE#16, 0x4400#16)) with
    | .done _ t => t.pc == 0x4400#16
    | .memFail _ _ | .refused => false) = true := by decide
/-- A segment is loaded where it says, in a configuration with a small NVM, and the reset follows. -/
theorem test_program_small :
    (match hostProgram (some [{ addr := 0xFFF0#16, bytes := [0x05#8, 0x54#8], memSize := 4 }, { addr := 0xFFFE#16, bytes := [0xF0#8, 0xFF#8], memSize := 2 }])
        { State.reset with params := { defaultParams with nvmBase := 0xFFF0, nvmSize := 16, nvmFill := [0xAB#8, 0xCD#8] } } with
      | .done _ t => t.pc == 0xFFF0#16 && wordAt t 0xFFF0#16 == some 0x5405#16 && wordAt t 0xFFF2#16 == some 0#16 && wordAt t 0xFFF4#16 == some 0xCDAB#16
      | .memFail _ _ | .refused => false) = true := by decide
/-- What `step()` hands over: the trace and the flag, true after a constant source, false after a halt and with a fault. -/
def flagOf (r : StepReply) : Option (Bool × Bool) :=
  match r with
  | .returned terminal _ cg _ => some (terminal, cg)
  | .fault _ _ cg => some (true, cg)
  | .refused _ => none
theorem test_step_flag : flagOf (hostStep (start [0x4225#16] [] [])) = some (false, true) ∧
    flagOf (hostStep (start [0x3FFF#16] [] [])) = some (true, false) ∧ flagOf (hostStep (start [0x1013#16] [] [])) = some (true, false) := by decide
/-- H2 -/
theorem test_run_zero : (match hostRun 0 State.reset with
    | .finished false 0 t => t == State.reset
    | .finished _ _ _ | .fault _ _ | .refused _ _ => false) = true := by decide

/-! ### The host's question: an instruction placed where the next step fetches it -/

theorem test_placed_runs : gives ((State.reset).withFetchWord 16 0x5315) [(.pc, 0x4402#16), (r5, 1#16), (.sr, 0#16)] [] := by decide
theorem test_placed_decodes : decodeTableWord 16 0x5315 = some (.add .word .cg1 (.reg r5)) := by decide

/-! ### Names of core instructions (30_encoding.md R114): RET and NOP by their words -/

theorem test_ret : emulatedRet.opcodeWord = 0x4130#16 := by decide
/-- RLA of a register (0x5000 | dst << 8 | dst), of memory at X(R5) (ADD X(R5), X(R5)) and of R3, and RLC.B of &ADDR. -/
theorem test_rla_rlc : (emulatedRla .word (.reg r5)).opcodeWord = 0x5505#16 ∧ (emulatedRla .word (.idx r5)).opcodeWord = 0x5595#16 ∧
    emulatedRla .word (.reg .cg) = .add .word .cg0 (.reg .cg) ∧ (emulatedRlc .byte .abs).opcodeWord = 0x62D2#16 ∧
    (emulatedRla .word .sym).wellFormed ∧ (emulatedRlc .word (.reg .cg)).wellFormed := by decide
theorem test_nop : emulatedNop.opcodeWord = 0x4303#16 := by decide

/-! ### Witnesses: a state and operands that meet a statement's hypotheses together, for each clause -/

/-- General operands: R4 = 0x1C00, R5 = 0x1234, SP = 0x2400, two words in RAM, an extension word at 0x4402. -/
def demo : State := start [0x4405#16, 0x1C02#16] [(r4, 0x1C00#16), (r5, 0x1234#16), (.sp, 0x2400#16), (.sr, 0x0001#16)]
  [(0x1C00#16, 0x4500#16), (0x1C02#16, 0x0099#16)]

/-- `demo` with an odd SP, and with a word that is an odd target. -/
def demoOdd : State := { demo with sp := 0x23FF#16, gp := demo.gp.set 1 0x4501#16 }

/-- A RETI frame: SR 8, PC 0x4500, with SP at it. -/
def demoReti : State := start [0x1300#16] [(.sp, 0x23FC#16)] [(0x23FC#16, 0x0008#16), (0x23FE#16, 0x4500#16)]

def isNext (o : Host.Outcome State Fault Refusal) : Bool :=
  match o with
  | .next _ => true
  | .fault _ | .refused _ => false

def isFault (o : Host.Outcome State Fault Refusal) : Bool :=
  match o with
  | .fault _ => true
  | .next _ | .refused _ => false

theorem next_of_isNext {o : Host.Outcome State Fault Refusal} (h : isNext o) : ∃ t, o = .next t := by
  cases o with
  | next t => exact ⟨t, rfl⟩
  | fault f => cases h
  | refused r => cases h

theorem fault_of_isFault {o : Host.Outcome State Fault Refusal} (h : isFault o) : ∃ f, o = .fault f := by
  cases o with
  | next t => cases h
  | fault f => exact ⟨f, rfl⟩
  | refused r => cases h

/-- What a run ends with: whether it completed, or a fault; and the number of steps. -/
def runEnd (r : RunReply) : Option Bool × Nat :=
  match r with
  | .finished b n _ => (some b, n)
  | .fault _ n => (none, n)
  | .refused _ n => (none, n)

theorem test_witness_DecodeOfEncode : (Instr.and .byte (.idx .sp) (.idx .cg)).wellFormed := by decide
theorem test_witness_EncodeOfDecode : decodeWord 0xFFFF#16 = .instr (.and .byte (.inc (.gp 11)) (.idx (.gp 11))) := by decide
theorem test_witness_TrieFindsMostSpecific :
    ∃ t, buildTrie 16 [{ mnemonic := .jmp, format := .jump, smode := none, dmode := none, template := jumpTemplate, length := some 2 }] = .ok t :=
  ⟨_, rfl⟩
/-- An address lies in one of the two regions, as `Obligations.ByteAccessByClass` says it. -/
def inside (p : Params) (a : Word) : Bool :=
  decide ((p.ramBase ≤ a.toNat ∧ a.toNat < p.ramBase + p.ramSize) ∨ (p.nvmBase ≤ a.toNat ∧ a.toNat < p.nvmBase + p.nvmSize))

/-- RAM and NVM at both ends of each region. -/
theorem test_witness_ByteAccessByClass_inside : wellFormedParams demo.params ∧
    [0x1C00#16, 0x23FF#16, 0x4400#16, 0xFFFF#16].all (inside demo.params) := by decide
theorem test_witness_ByteAccessByClass_handler : wellFormedParams (withDevice demo).params ∧
    ∃ h ∈ (withDevice demo).params.handlers, h.addr = 0x0200#16 ∧ lookupCell 0x0200 (withDevice demo).mem = none := by
  refine ⟨by decide, device, List.mem_cons_self, by decide, by decide⟩
/-- The addresses just outside each region, under either policy. -/
theorem test_witness_ByteAccessByClass_outside : wellFormedParams (withDevice (defaultPolicy demo)).params ∧
    (withDevice (defaultPolicy demo)).params.policy = .default ∧ (withDevice demo).params.policy = .fail ∧
    [0x1BFF#16, 0x2400#16, 0x43FF#16, 0x0000#16, 0x01FF#16, 0x0201#16].all (fun a =>
      !inside demo.params a && (withDevice demo).params.handlers.all fun h => h.addr != a) := by decide
/-- What the classes give, at those addresses. -/
theorem test_classes : byteRead (withDevice demo) 0x0200#16 = some 0x77#8 ∧ (withDevice demo).storedByte 0x0200#16 = 0x22#8 ∧
    ((withDevice demo).putByte 0x0200#16 0x99#8).storedByte 0x0200#16 = 0x11#8 ∧
    byteRead (defaultPolicy demo) 0x2400#16 = some 0x5A#8 ∧ byteRead demo 0x2400#16 = none ∧ byteRead demo 0x43FF#16 = none ∧
    byteRead demo 0x1BFF#16 = none ∧ byteRead demo 0x23FF#16 = some 0#8 ∧ byteRead demo 0x1C01#16 = some 0x45#8 := by decide
theorem test_witness_WordsAreLittleEndian_mapped : (0x1C00#16).toNat % 2 = 0 ∧ byteRead demo 0x1C00#16 = some 0x00#8 ∧
    byteRead demo (0x1C00#16 + 1#16) = some 0x45#8 ∧ (byteWrite demo 0x1C00#16 0xEF#8).isSome ∧
    (byteWrite (demo.putByte 0x1C00#16 0xEF#8) (0x1C00#16 + 1#16) 0xBE#8).isSome := by decide
/-- A lone handler at an even address is a word whose upper byte is unmapped. -/
theorem test_witness_WordsAreLittleEndian_unmapped : isMapped demo.params 0x2400#16 = false ∧ (0x2400#16).toNat % 2 = 0 ∧
    (0x0200#16).toNat % 2 = 0 ∧ isMapped (withDevice demo).params 0x0200#16 ∧
    isMapped (withDevice demo).params (0x0200#16 + 1#16) = false := by decide
theorem test_witness_WordAccessesAreAligned : (0x1C01#16).toNat % 2 = 1 ∧ (0xFFFF#16).toNat % 2 = 1 ∧ (0x1C00#16).toNat % 2 = 0 := by decide
theorem test_witness_ReadAfterWrite : (∃ t, memWrite .word 0x23FE#16 0xBEEF#16 demo = .ok () t) ∧ holdsBytes demo.params 0x23FE#16 ∧
    holdsBytes demo.params (0x23FE#16 + 1#16) ∧ outside .word 0x23FE#16 0x23FD#16 ∧ outside .byte 0x23FE#16 0x23FF#16 ∧
    Memory.wf demo.params demo.mem := by
  refine ⟨⟨_, rfl⟩, by decide, by decide, by unfold outside; decide, by unfold outside; decide, by decide⟩
theorem test_witness_FlagMerge : (Instr.add .word (.reg r4) (.reg r5)).wellFormed ∧ mergesFlags (.add .word (.reg r4) (.reg r5)) ∧
    (∃ t, exec (.add .word (.reg r4) (.reg r5)) demo = .next t) ∧ mergesFlags (.mov .word (.reg r4) (.reg r5)) = false ∧
    ∃ t, exec (.mov .word (.reg r4) (.reg r5)) demo = .next t := ⟨by decide, by decide, ⟨_, rfl⟩, by decide, _, rfl⟩
theorem test_witness_R3HasNoStorage : wellFormedParams demo.params ∧ (3 : Nat) < 4 ∧ (15 : Nat) < 16 ∧ Src.ofFields 3 15 = .inc (.gp 11) := by decide

/-- A word source at R4's address and a register destination; a memory destination is in the next one. -/
theorem test_witness_fmt1_register : (Instr.add .word (.inc r4) (.reg r5)).wellFormed ∧
    srcValue (fmt1Ctx demo .word (.inc r4) (.reg r5)) demo (.inc r4) = some 0x4500#16 ∧
    dstLoc (fmt1Ctx demo .word (.inc r4) (.reg r5)) demo (.inc r4) (.reg r5) = some (.reg r5) ∧
    dstValue (fmt1Ctx demo .word (.inc r4) (.reg r5)) demo (.inc r4) (.reg r5) = some 0x1234#16 := by decide
theorem test_witness_fmt1_memory : (Instr.add .byte (.reg r5) .abs).wellFormed ∧
    srcValue (fmt1Ctx demo .byte (.reg r5) .abs) demo (.reg r5) = some 0x0034#16 ∧
    dstLoc (fmt1Ctx demo .byte (.reg r5) .abs) demo (.reg r5) .abs = some (.mem 0x1C02#16) ∧
    dstValue (fmt1Ctx demo .byte (.reg r5) .abs) demo (.reg r5) (.mem 0x1C02#16) = some 0x0099#16 ∧
    canStore demo .byte 0x1C02#16 := by decide
theorem test_witness_MovCompletes : (Instr.mov .byte (.reg r5) .abs).wellFormed ∧
    srcValue (fmt1Ctx demo .byte (.reg r5) .abs) demo (.reg r5) = some 0x0034#16 ∧
    dstLoc (fmt1Ctx demo .byte (.reg r5) .abs) demo (.reg r5) .abs = some (.mem 0x1C02#16) ∧
    canWrite demo .mov .byte 0x0034#16 (.mem 0x1C02#16) := by decide
theorem test_witness_AddCompletes : canWrite demo .add .word (sumResult .word 0x1234#16 0x4500#16 0) (.reg r5) ∧
    canWrite demo .addc .word (sumResult .word 0x1234#16 0x4500#16 (carryIn demo)) (.reg r5) := by decide
theorem test_witness_SubCompletes : canWrite demo .sub .word (diffResult .word 0x1234#16 0x4500#16 0) (.reg r5) ∧
    canWrite demo .subc .word (diffResult .word 0x1234#16 0x4500#16 (1 - carryIn demo)) (.reg r5) := by decide
theorem test_witness_CmpBitComplete : (Instr.cmp .word (.inc r4) (.reg r5)).wellFormed := by decide
theorem test_witness_DaddCompletes : (Instr.dadd .byte (.reg r5) .abs).wellFormed ∧ isDecimal .byte 0x0034#16 ∧ isDecimal .byte 0x0099#16 ∧
    canWrite demo .dadd .byte (decimalResult .byte 0x0034#16 0x0099#16 (carryIn demo)) (.mem 0x1C02#16) := by unfold isDecimal; decide
/-- R5 holds a digit above 9; the destination is a general register, which takes any value. -/
theorem test_witness_DaddOnOtherDigits : ∃ v, (Instr.dadd .word (.reg r4) (.reg r5)).wellFormed ∧
    srcValue (fmt1Ctx demo .word (.reg r4) (.reg r5)) demo (.reg r4) = some 0x1C00#16 ∧
    dstLoc (fmt1Ctx demo .word (.reg r4) (.reg r5)) demo (.reg r4) (.reg r5) = some (.reg r5) ∧
    dstValue (fmt1Ctx demo .word (.reg r4) (.reg r5)) demo (.reg r4) (.reg r5) = some 0x1234#16 ∧
    ¬(isDecimal .word 0x1C00#16 ∧ isDecimal .word 0x1234#16) ∧
    v = BitVec.ofNat 16 ((Config.freeWord demo.draws).toNat % size .word) ∧ canWrite demo .dadd .word v (.reg r5) :=
  ⟨_, by decide, by decide, by decide, by decide, by unfold isDecimal; decide, rfl, rfl⟩
theorem test_witness_XorAndComplete : canWrite demo .xor .word (0x4500#16 ^^^ 0x1234#16) (.reg r5) ∧
    canWrite demo .and .word (0x4500#16 &&& 0x1234#16) (.reg r5) := by decide
theorem test_witness_BicBisComplete : canWrite demo .bic .byte (0x0099#16 &&& ~~~0x0034#16) (.mem 0x1C02#16) ∧
    canWrite demo .bis .byte (0x0099#16 ||| 0x0034#16) (.mem 0x1C02#16) := by decide

theorem test_witness_RotatesComplete : (Instr.rrc .byte (.inc r4)).wellFormed ∧ isConstant (.inc r4) = false ∧ Src.inc r4 ≠ .imm ∧
    srcValue (fmt2Ctx demo .byte (.inc r4) false) demo (.inc r4) = some 0x0000#16 ∧
    srcLoc (fmt2Ctx demo .byte (.inc r4) false) demo (.inc r4) = .mem 0x1C00#16 ∧
    canWrite demo .rrc .byte (shiftResult .byte 0#16 true) (.mem 0x1C00#16) ∧
    canWrite demo .rra .byte (shiftResult .byte 0#16 false) (.mem 0x1C00#16) := by decide
theorem test_witness_ByteOpsComplete : (Instr.swpb (.reg r5)).wellFormed ∧ isConstant (.reg r5) = false ∧ Src.reg r5 ≠ .imm ∧
    srcValue (fmt2Ctx demo .word (.reg r5) false) demo (.reg r5) = some 0x1234#16 ∧
    srcLoc (fmt2Ctx demo .word (.reg r5) false) demo (.reg r5) = .reg r5 ∧
    canWrite demo .swpb .word 0x3412#16 (.reg r5) ∧ canWrite demo .sxt .word 0x0034#16 (.reg r5) := by decide
theorem test_witness_PushCompletes : (Instr.push .byte .abs).wellFormed ∧ srcValue (fmt2Ctx demo .byte .abs true) demo .abs = some 0x0099#16 ∧
    demo.sp.toNat % 2 = 0 ∧ canStore demo .byte (demo.sp - 2#16) := by decide
theorem test_witness_CallCompletes : (Instr.call (.ind r4)).wellFormed ∧ srcValue (fmt2Ctx demo .word (.ind r4) true) demo (.ind r4) = some 0x4500#16 ∧
    demo.sp.toNat % 2 = 0 ∧ canStore demo .word (demo.sp - 2#16) ∧ (0x4500#16).toNat % 2 = 0 := by decide
theorem test_witness_RetiCompletes : wordAt demoReti demoReti.sp = some 0x0008#16 ∧ wordAt demoReti (demoReti.sp + 2#16) = some 0x4500#16 ∧
    0x0008#16 &&& ~~~demoReti.params.srMask = 0#16 ∧ (0x4500#16).toNat % 2 = 0 := by decide
theorem test_witness_StackOperands : valueAt demo .word (demo.readReg r4) = some 0x4500#16 ∧ wordAt demo (demo.pc + 2#16) = some 0x1C02#16 ∧
    (∃ t, exec (.push .word (.inc r4)) demo = .next t) ∧ Instr.push .word (.inc r4) ∈ stackOf .word (.inc r4) ∧
    (∃ t, exec (.call (.inc .sp)) { demo with sp := 0x1C00#16, gp := demo.gp } = .next t ∨
      exec (.push .word (.inc .sp)) { demo with sp := 0x1C02#16 } = .next t) ∧ Instr.push .word (.inc .sp) ∈ stackOf .word (.inc .sp) := by
  refine ⟨by decide, by decide, ⟨_, rfl⟩, by decide, ⟨_, .inr rfl⟩, by decide⟩
theorem test_witness_JumpsComplete : demo.pc.toNat % 2 = 0 := by decide
theorem test_witness_CompareThenJump : ∃ t, exec (.cmp .word (.inc r4) (.reg r5)) demo = .next t := ⟨_, rfl⟩
theorem test_witness_StubsRaiseUnsupported : isStub (.popmA 0xFF#8) ∧ isStub (.rrum 3#2 1#1 15#4) := by decide

theorem test_witness_FrameOfFlagWriters : Instr.add .byte (.reg r5) .abs ∈ fmt1FlagWriters .byte (.reg r5) .abs ∧
    (Instr.add .byte (.reg r5) .abs).wellFormed ∧ (∃ t, exec (.add .byte (.reg r5) .abs) demo = .next t) ∧
    dstLoc (fmt1Ctx demo .byte (.reg r5) .abs) demo (.reg r5) .abs = some (.mem 0x1C02#16) ∧ outside .byte 0x1C02#16 0x1C03#16 ∧
    (Dst.reg r5).adBit = 0 ∧ ∃ t, exec (.add .word (.inc r4) (.reg r5)) demo = .next t := by
  refine ⟨by decide, by decide, ⟨_, rfl⟩, by decide, by unfold outside; decide, by decide, ⟨_, rfl⟩⟩
theorem test_witness_FrameOfMovBicBis : (Instr.bis .word (.inc r4) (.reg r5)).wellFormed ∧
    (∃ t, exec (.bis .word (.inc r4) (.reg r5)) demo = .next t) ∧ ∃ t, exec (.mov .byte (.reg r5) .abs) demo = .next t := by
  refine ⟨by decide, ⟨_, rfl⟩, ⟨_, rfl⟩⟩
theorem test_witness_FrameOfCmpBit : (Instr.bit .word (.inc r4) .abs).wellFormed ∧ ∃ t, exec (.bit .word (.inc r4) .abs) demo = .next t :=
  ⟨by decide, _, rfl⟩
theorem test_witness_FrameOfReadModifyWrite : Instr.swpb (.ind r4) ∈ rmwOf .word (.ind r4) ∧ (Instr.swpb (.ind r4)).wellFormed ∧
    (∃ t, exec (.swpb (.ind r4)) demo = .next t) ∧ srcAddr (fmt2Ctx demo .word (.ind r4) false) demo (.ind r4) = some 0x1C00#16 ∧
    ∃ t, exec (.rra .byte (.reg r5)) demo = .next t := by
  refine ⟨by decide, by decide, ⟨_, rfl⟩, by decide, ⟨_, rfl⟩⟩
theorem test_witness_FrameOfPushCall : Instr.call (.inc r4) ∈ stackOf .word (.inc r4) ∧ (Instr.call (.inc r4)).wellFormed ∧
    (∃ t, exec (.call (.inc r4)) demo = .next t) ∧ outside .word (demo.sp - 2#16) 0x23FD#16 := by
  refine ⟨by decide, by decide, ⟨_, rfl⟩, by unfold outside; decide⟩
theorem test_witness_FrameOfReti : ∃ t, exec .reti demoReti = .next t := ⟨_, rfl⟩

theorem test_witness_IndirectPcRaises : Instr.bit .byte (.ind .pc) .abs ∈ allFmt1 .byte (.ind .pc) .abs ∧
    Instr.call (.ind .pc) ∈ rmwOf .word (.ind .pc) ++ stackOf .word (.ind .pc) := by decide
theorem test_witness_IndexedR3Raises : (Src.inc r4).wellFormed ∧ srcValue (fmt1Ctx demo .byte (.inc r4) (.idx .cg)) demo (.inc r4) = some 0#16 ∧
    Instr.cmp .byte (.inc r4) (.idx .cg) ∈ allFmt1 .byte (.inc r4) (.idx .cg) := by decide
theorem test_witness_ConstantOperandRaises : isConstant .cg8 ∧ Instr.sxt .imm ∈ rmwOf .word .imm ∧ Instr.rrc .byte .cg8 ∈ rmwOf .byte .cg8 ∧
    Instr.call .cg1 ∈ stackOf .word .cg1 ∧ ∃ f, exec (.call .cg1) demo = .fault f := by
  refine ⟨by decide, by decide, by decide, by decide, ⟨_, rfl⟩⟩
/-- The results of a list that are odd, by mnemonic. -/
def oddIn (l : List (Mnemonic × Instr × Word)) : List Mnemonic := (l.filter fun e => e.2.2.toNat % 2 == 1).map (·.1)

/-- The results of a list that hold a bit outside a mask, by mnemonic. -/
def outsideMaskIn (mask : Word) (l : List (Mnemonic × Instr × Word)) : List Mnemonic := (l.filter fun e => e.2.2 &&& ~~~mask != 0#16).map (·.1)

/-- `demo` with an `SR_WRITABLE_MASK` of GIE and V alone, and with an SR that the flag merge can leave under it. -/
def demoNarrow : State := { demo with sr := 0x0103#16, params := { demo.params with srMask := 0x0108#16 } }

/-- `demo` with an SR bit that only the host can have stored. -/
def demoHostSr : State := { demo with sr := 0x0200#16 }

/-- `#1` as the source of a byte and of a word write of PC, with C set and clear; each word writer meets an odd result somewhere (AND and BIC where PC
was odd already); RRC, RRA and SWPB of PC do where PC is 0x4500. -/
theorem test_witness_PcWritesAreChecked : Src.cg1.wellFormed ∧
    srcValue (fmt1Ctx demo .byte .cg1 (.reg .pc)) demo .cg1 = some 0x0001#16 ∧ Instr.and .byte .cg1 (.reg .pc) ∈ fmt1Writers .byte .cg1 (.reg .pc) ∧
    srcValue (fmt1Ctx demo .word .cg1 (.reg .pc)) demo .cg1 = some 0x0001#16 ∧
    dstValue (fmt1Ctx demo .word .cg1 (.reg .pc)) demo .cg1 (.reg .pc) = some 0x4402#16 ∧
    oddIn (fmt1Results demo .word .cg1 (.reg .pc) 0x0001#16 0x4402#16) = [.mov, .add, .subc, .sub, .bis, .xor] ∧
    oddIn (fmt1Results { demo with sr := 0#16 } .word .cg1 (.reg .pc) 0x0001#16 0x4402#16) = [.mov, .add, .addc, .sub, .dadd, .bis, .xor] ∧
    oddIn (fmt1Results demo .word .cg1 (.reg .pc) 0x0001#16 0x4403#16) = [.mov, .addc, .dadd, .bis, .and] ∧
    oddIn (fmt1Results demo .word .cg2 (.reg .pc) 0x0002#16 0x4403#16) = [.add, .subc, .sub, .bic, .bis, .xor] ∧
    Instr.rrc .byte (.reg .pc) ∈ rmwOf .byte (.reg .pc) ∧
    oddIn (rmwResults demo .word (.reg .pc) (0x4500#16 + 2#16)) = [.rrc, .rra, .swpb] := by decide
theorem test_witness_PcWritesAreChecked_reti_call :
    wordAt (poke demoReti (0x23FE#16, 0x4501#16)) 0x23FC#16 = some 0x0008#16 ∧
    wordAt (poke demoReti (0x23FE#16, 0x4501#16)) (0x23FC#16 + 2#16) = some 0x4501#16 ∧ 0x0008#16 &&& ~~~demoReti.params.srMask = 0#16 ∧
    (0x4501#16).toNat % 2 = 1 ∧ srcValue (fmt2Ctx demo .word .cg1 true) demo .cg1 = some 0x0001#16 ∧ demo.sp.toNat % 2 = 0 ∧
    canStore demo .word (demo.sp - 2#16) := by decide
/-- `#1` as the source of a write of SP at either width; RRC, RRA and SWPB of an SP that holds 0x0302; an odd SP under `@SP+`, PUSH and CALL. -/
theorem test_witness_SpWritesAreChecked :
    srcValue (fmt1Ctx demo .byte .cg1 (.reg .sp)) demo .cg1 = some 0x0001#16 ∧
    dstValue (fmt1Ctx demo .byte .cg1 (.reg .sp)) demo .cg1 (.reg .sp) = some 0x0000#16 ∧
    oddIn (fmt1Results demo .byte .cg1 (.reg .sp) 0x0001#16 0x0000#16) = [.mov, .add, .subc, .sub, .bis, .xor] ∧
    oddIn (rmwResults demo .word (.reg .sp) (BitVec.ofNat 16 ((0x0302#16).toNat % size .word))) = [.rrc, .rra, .swpb] ∧
    byteRead demoOdd demoOdd.sp = some 0#8 ∧ demoOdd.sp.toNat % 2 = 1 ∧
    Instr.rra .byte (.inc .sp) ∈ allFmt1 .byte (.inc .sp) (.reg r5) ++ rmwOf .byte (.inc .sp) ∧
    srcValue (fmt2Ctx demoOdd .byte .cg8 true) demoOdd .cg8 = some 8#16 ∧ Instr.push .byte .cg8 ∈ stackOf .byte .cg8 := by decide
/-- R5 = 0x1234 as the source of a write of SR, with MOV, BIC and BIS in `SR_SAFE`; RRC and SXT of SR with an `SR_SAFE` that has them. -/
theorem test_witness_SrWritesAreChecked : srcValue (fmt1Ctx demo .byte (.reg r5) (.reg .sr)) demo (.reg r5) = some 0x0034#16 ∧
    Instr.bic .byte (.reg r5) (.reg .sr) ∈ fmt1Writers .byte (.reg r5) (.reg .sr) ∧
    srcValue (fmt1Ctx demo .word (.reg r5) (.reg .sr)) demo (.reg r5) = some 0x1234#16 ∧
    dstValue (fmt1Ctx demo .word (.reg r5) (.reg .sr)) demo (.reg r5) (.reg .sr) = some 0x0001#16 ∧
    Mnemonic.xor ∉ demo.params.srSafe ∧ Mnemonic.bis ∈ demo.params.srSafe ∧
    outsideMaskIn demo.params.srMask (fmt1Results demo .word (.reg r5) (.reg .sr) 0x1234#16 0x0001#16) =
      [.mov, .add, .addc, .subc, .sub, .dadd, .bis, .xor] ∧
    dstValue (fmt1Ctx demoNarrow .word .cg1 (.reg .sr)) demoNarrow .cg1 (.reg .sr) = some 0x0103#16 ∧
    outsideMaskIn demoNarrow.params.srMask (fmt1Results demoNarrow .word .cg1 (.reg .sr) 0x0001#16 0x0103#16) =
      [.mov, .add, .addc, .subc, .sub, .dadd, .bic, .bis, .xor, .and] ∧
    Instr.rrc .byte (.reg .sr) ∈ rmwOf .byte (.reg .sr) ∧ Mnemonic.sxt ∉ demo.params.srSafe ∧
    outsideMaskIn demoNarrow.params.srMask (rmwResults demoNarrow .word (.reg .sr) demoNarrow.sr) = [.rrc, .rra, .swpb, .sxt] := by decide
theorem test_witness_SrWritesAreChecked_legal : srLegal demo ∧ srLegal demoNarrow ∧ ¬srLegal demoHostSr :=
  ⟨by unfold srLegal; decide, by unfold srLegal; decide, by unfold srLegal; decide⟩
/-- An SR that the host left illegal: as a source, and as a destination that is read, with a MOV over it. -/
theorem test_witness_SrWritesAreChecked_host :
    Instr.push .byte (.reg .sr) ∈ allFmt1 .byte (.reg .sr) .abs ++ rmwOf .byte (.reg .sr) ++ stackOf .byte (.reg .sr) ∧
    srcValue (fmt1Ctx demoHostSr .word .cg8 (.reg .sr)) demoHostSr .cg8 = some 8#16 ∧
    Instr.bit .word .cg8 (.reg .sr) ∈ allFmt1 .word .cg8 (.reg .sr) ∧ Instr.bit .word .cg8 (.reg .sr) ≠ .mov .word .cg8 (.reg .sr) ∧
    dstValue (fmt1Ctx demoHostSr .word .cg8 (.reg .sr)) demoHostSr .cg8 (.reg .sr) = none ∧
    srcValue (fmt1Ctx demoHostSr .byte .cg8 (.reg .sr)) demoHostSr .cg8 = some 8#16 := by decide
theorem test_witness_SrWritesAreChecked_reti : wordAt (poke demoReti (0x23FC#16, 0x0010#16)) 0x23FC#16 = some 0x0010#16 ∧
    wordAt (poke demoReti (0x23FC#16, 0x0010#16)) (0x23FC#16 + 2#16) = some 0x4500#16 ∧ 0x0010#16 &&& ~~~demoReti.params.srMask ≠ 0#16 ∧
    Mnemonic.rrc ∈ ({ demo.params with srSafe := [.rrc] } : Params).srSafe := by decide

/-- The state of `demo` with PC at the last even address of RAM: its extension words are unmapped. -/
def demoEnd : State := { demo with pc := 0x23FE#16 }

/-- Each kind of access that fails: odd, unmapped, with its upper byte alone unmapped. -/
theorem test_access_errors : accessError demo.params .word 0x1C01#16 = some (.unknown .misalignedWord) ∧
    accessError demo.params .byte 0x1C01#16 = none ∧ accessError demo.params .word 0x0200#16 = some (.memFail 0x0200#16) ∧
    accessError (withDevice demo).params .word 0x0200#16 = some (.memFail 0x0201#16) ∧
    accessError (withDevice demo).params .byte 0x0200#16 = none ∧ accessError demo.params .word 0xFFFE#16 = none := by decide
/-- An absolute source at 0x0200 and at 0x1C01, in every context; a source and a destination whose extension word is unmapped. -/
theorem test_witness_FailedAccessesStop_operands : Src.abs.wellFormed ∧
    [0x0200#16, 0x1C01#16].all (fun ea =>
      let s := poke demo (0x4402#16, ea)
      srcAddr (fmt1Ctx s .word .abs (.reg r5)) s .abs == some ea && srcAddr (fmt2Ctx s .word .abs false) s .abs == some ea &&
        srcAddr (fmt2Ctx s .word .abs true) s .abs == some ea && (accessError s.params .word ea).isSome &&
        dstLoc (fmt1Ctx s .word (.reg r5) .abs) s (.reg r5) .abs == some (.mem ea)) ∧
    Src.extWords .sym = 1 ∧ accessError demoEnd.params .word (demoEnd.pc + 2#16) = some (.memFail 0x2400#16) ∧ Src.sym ≠ .imm ∧
    srcValue (fmt1Ctx demoEnd .word (.reg r5) .sym) demoEnd (.reg r5) = some 0x1234#16 ∧ Dst.extWords .sym = 1 ∧ Dst.sym ≠ .idx .cg ∧
    accessError demoEnd.params .word (demoEnd.pc + 2#16 + BitVec.ofNat 16 (2 * (Src.reg r5).extWords)) = some (.memFail 0x2400#16) := by decide
/-- A stack slot below RAM; a RETI frame above RAM, and one whose second word is. -/
theorem test_witness_FailedAccessesStop_stack :
    srcValue (fmt2Ctx { demo with sp := 0x1C00#16 } .word .cg1 true) { demo with sp := 0x1C00#16 } .cg1 = some 1#16 ∧
    (0x1C00#16).toNat % 2 = 0 ∧ accessError demo.params .word (0x1C00#16 - 2#16) = some (.memFail 0x1BFE#16) ∧
    accessError demo.params .word 0x2400#16 = some (.memFail 0x2400#16) ∧ accessError demo.params .word 0x23FE#16 = none ∧
    accessError demo.params .word (0x23FE#16 + 2#16) = some (.memFail 0x2400#16) := by decide

theorem test_witness_StepRunsDecoded : wellFormedParams demo.params ∧ demo.faulted = none ∧ wordAt demo demo.pc = some 0x4405#16 ∧
    0x4405#16 ≠ demo.params.haltWord ∧ decodeWord 0x4405#16 = .instr (.mov .word (.reg r4) (.reg r5)) := by decide
theorem test_witness_StepRunsEncoded : (Instr.mov .word (.reg r4) (.reg r5)).wellFormed ∧ demo.pc.toNat % 2 = 0 ∧
    [byteRead demo demo.pc, byteRead demo (demo.pc + 1#16)] = (encode (.mov .word (.reg r4) (.reg r5))).map some ∧
    (Instr.mov .word (.reg r4) (.reg r5)).opcodeWord ≠ demo.params.haltWord := by decide
theorem test_witness_HaltWordHalts : wellFormedParams (start [0x3FFF#16] [] []).params ∧ (start [0x3FFF#16] [] []).faulted = none ∧
    wordAt (start [0x3FFF#16] [] []) 0x4400#16 = some 0x3FFF#16 := by decide
theorem test_witness_NoMatchRaisesDecodeFailure : wordAt (start [0x10C5#16] [] []) 0x4400#16 = some 0x10C5#16 ∧
    decodeWord 0x10C5#16 = .noMatch .byteForm ∧ (start [0x10C5#16] [] []).faulted = none := by decide
/-- PC odd; PC at the end of RAM; PC at a lone handler, whose next byte is unmapped. -/
theorem test_witness_FetchFaults : wellFormedParams (withDevice demo).params ∧ demo.faulted = none ∧ (0x4401#16).toNat % 2 = 1 ∧
    (0x2400#16).toNat % 2 = 0 ∧ isMapped (withDevice demo).params 0x2400#16 = false ∧ (0x0200#16).toNat % 2 = 0 ∧
    isMapped (withDevice demo).params 0x0200#16 ∧ isMapped (withDevice demo).params (0x0200#16 + 1#16) = false := by decide
theorem test_witness_FaultStatesArePrecise : (Instr.call .cg1).wellFormed ∧ ∃ f, exec (.call .cg1) demo = .fault f := ⟨by decide, _, rfl⟩
theorem test_witness_FaultedCoreStaysFaulted : ∃ report, ({ demo with faulted := some (.memFail 0#16 none 0#16) } : State).faulted = some report ∧
    wellFormedParams demo.params := ⟨_, rfl, by decide⟩
theorem test_witness_OnlyBadConfigurationsAreRefused :
    wellFormedParams { demo.params with ramBase := 0x4400 } = false ∧ wellFormedParams demo.params = true := by decide
theorem test_witness_ConfigurationIsFixed : (∃ t, step demo = .next t) ∧ ∃ f, step (start [0x4025#16] [] []) = .fault f :=
  ⟨next_of_isNext (by decide), fault_of_isFault (by decide)⟩
theorem test_witness_StepKeepsInvariant : Inv demo ∧ (∃ t, step demo = .next t) ∧ Inv (start [0x4025#16] [] []) ∧
    ∃ f, step (start [0x4025#16] [] []) = .fault f :=
  ⟨⟨by decide, by decide, by decide, by unfold srLegal; decide⟩, next_of_isNext (by decide),
    ⟨by decide, by decide, by decide, by unfold srLegal; decide⟩, fault_of_isFault (by decide)⟩
theorem test_witness_TracesInOrder : demo.sp.toNat % 2 = 0 ∧ canStore demo .word (demo.sp - 2#16) := by decide
theorem test_witness_TracesInOrder_step : outcomeOf demo = some (.retired false) ∧ outcomeOf (start [0x3FFF#16] [] []) = some (.halted false) ∧
    (∃ t, step demo = .next t) ∧ ∃ f, step (start [0x4025#16] [] []) = .fault f :=
  ⟨by decide, by decide, next_of_isNext (by decide), fault_of_isFault (by decide)⟩

/-- `RESET_VECTOR` at another address. -/
def vectorAt (a : Word) (s : State) : State := { s with params := { s.params with resetVector := a } }

/-- A vector in NVM; one that is unmapped; one whose upper byte alone is. -/
theorem test_witness_ResetPutsStateInPlace : wellFormedParams demo.params ∧ byteRead demo demo.params.resetVector = some 0#8 ∧
    byteRead demo (demo.params.resetVector + 1#16) = some 0#8 ∧
    wellFormedParams (vectorAt 0x2400#16 demo).params ∧ byteRead (vectorAt 0x2400#16 demo) (vectorAt 0x2400#16 demo).params.resetVector = none ∧
    wellFormedParams (vectorAt 0x0200#16 (withDevice demo)).params ∧
    byteRead (vectorAt 0x0200#16 (withDevice demo)) (vectorAt 0x0200#16 (withDevice demo)).params.resetVector = some 0x77#8 ∧
    byteRead (vectorAt 0x0200#16 (withDevice demo)) ((vectorAt 0x0200#16 (withDevice demo)).params.resetVector + 1#16) = none := by decide
/-- To the budget; to the halt word; to a fault. -/
theorem test_witness_RunCountsSteps : wellFormedParams demo.params ∧ runEnd (hostRun 1 demo) = (some false, 1) ∧
    runEnd (hostRun 9 (start [0x4305#16, 0x3FFF#16] [] [])) = (some true, 2) ∧
    runEnd (hostRun 9 (start [0x4305#16, 0x4025#16] [] [])) = (none, 2) := by decide
theorem test_witness_HostRegisters : wellFormedParams demo.params ∧ r4 ≠ .sr ∧ (15 : Nat) < 16 ∧ (15 : Nat) ≤ 15 ∧ (3 : Nat) ≤ 15 ∧
    Reg.num .sr = 2 ∧ Reg.sr ≠ .cg := by decide
/-- R278, U29: an SR bit that the host stored faults where `MOV SR, R5`, `BIS #1, SR` or `CMP #1, SR` reads it; the host reads it as stored. -/
theorem test_sr_host_bits_fault : ([0x4205#16, 0xD312#16, 0x9312#16].all fun w => stops (start [w] [(.sr, 0x0200#16)] [])
      (.unknownBehavior .srUnimplementedBits (some w) 0x4400#16) [(.sr, 0x0200#16), (r5, 0#16)]) ∧
    (registerWords (start [] [(.sr, 0x0200#16)] []))[2]? = some 0x0200#32 := by decide
/-- `MOV #8, SR` replaces such a value; `JEQ` and the flag merge of `CMP #1, R5` do not use the bit; a bit 4 faults like a bit 9. -/
theorem test_sr_host_bits_unused : gives (start [0x4232#16] [(.sr, 0x0200#16)] []) [(.sr, 0x0008#16)] [] ∧
    gives (start [0x2401#16] [(.sr, 0x0202#16)] []) [(.pc, 0x4404#16), (.sr, 0x0202#16)] [] ∧
    gives (start [0x9315#16] [(.sr, 0x0200#16)] []) [(.sr, 0x0204#16)] [] ∧
    stops (start [0xD312#16] [(.sr, 0x0010#16)] []) (.unknownBehavior .srUnimplementedBits (some 0xD312#16) 0x4400#16) [(.sr, 0x0010#16)] := by decide
/-- The last byte of the space; one byte past it; a run of NVM bytes to the end. -/
theorem test_witness_HostMemory : wellFormedParams demo.params ∧ 0x10000 < (0xFFFF#16).toNat + [0#8, 0#8].length ∧ (0xFFFE#16).toNat + [0#8, 0#8].length ≤ 0x10000 ∧
    ∀ k, k < [0#8, 0#8].length → holdsBytes demo.params (BitVec.ofNat 16 ((0xFFFE#16).toNat + k)) := by decide

end Sys2Proof.Tests
end

section
/-! The I/O trace (20_memory.md R71): what the shared routines append to it on register operands, and the traces of a word ADD and of a PUSH; what
`step()` hands the host (70_reset_and_hazards.md R275). -/

namespace Sys2Proof.Machine

/-! ### What `step()` hands over -/

theorem hostStep_of_fault {s : State} {f : Fault} (h : step s = .fault f) : hostStep s = .fault f f.after.trace false := by
  simp [hostStep, h]

theorem hostStep_of_retired {s t : State} {cg : Bool} (h : step s = .next t) (ho : t.outcome = some (.retired cg)) :
    hostStep s = .returned false t.trace cg t := by
  rw [hostStep_of_next h, ho]; rfl

theorem hostStep_of_halted {s t : State} {cg : Bool} (h : step s = .next t) (ho : t.outcome = some (.halted cg)) :
    hostStep s = .returned true t.trace cg t := by
  rw [hostStep_of_next h, ho]; rfl

theorem hostStep_of_breakpoint {s t : State} {cg : Bool} (h : step s = .next t) (ho : t.outcome = some (.breakpoint cg)) :
    hostStep s = .returned true t.trace cg t := by
  rw [hostStep_of_next h, ho]; rfl

/-! ### Word arithmetic -/

@[simp] theorem trunc_word (v : Word) : trunc .word v = v := trunc_of_lt v.isLt

theorem aluAdd_word_res (a b : Word) (c : Bool) (n : Nat) : (aluAdd .word a b c n).res = b + a := by
  simp [aluAdd, addWithCarry, BitVec.ofNat_add]

/-! ### General registers as operands -/

theorem readOperandReg_gp (ctx : Ctx) (n : Fin 12) (s : State) :
    readOperandReg ctx (.gp n) s =
      .ok (trunc ctx.width (s.readReg (.gp n))) (s.note (.regRead (.gp n) (s.readReg (.gp n)))) := by
  simp [readOperandReg, operandReg]

theorem readSource_gp (ctx : Ctx) (n : Fin 12) (cursor : Word) (s : State) :
    readSource ctx (.reg (.gp n)) cursor s =
      .ok ⟨trunc ctx.width (s.readReg (.gp n)), .reg (.gp n), cursor⟩ (s.note (.regRead (.gp n) (s.readReg (.gp n)))) := by
  simp [readSource, readOperandReg_gp]

theorem destRead_gp (ctx : Ctx) (m : Fin 12) (s : State) :
    destRead ctx .readWrite (.reg (.gp m)) s =
      .ok (trunc ctx.width (s.readReg (.gp m))) (s.note (.regRead (.gp m) (s.readReg (.gp m)))) :=
  readOperandReg_gp ctx m s

theorem writeBack_pc (pcNext : Word) (flags : Option Flags) (wr : Written) (s : State) :
    (writeBack pcNext flags wr s).pc = finalPc pcNext wr := writeBack_regs pcNext flags wr s .pc

/-! ### Stores and the stack write -/

theorem isOdd_false_of_canStore_word {s : State} {a : Word} (h : canStore s .word a) : isOdd a = false := by
  simp only [canStore, Bool.and_eq_true, Bool.not_eq_true'] at h
  obtain ⟨⟨ho, -⟩, -⟩ := h
  exact ho

theorem storeValue_trace {s t : State} {w : Width} {a v : Word} (h : storeValue s w a v = .ok t) : t.trace = s.trace := by
  cases w with
  | byte =>
    simp only [storeValue] at h
    split at h <;> cases h
    rfl
  | word =>
    simp only [storeValue] at h
    split_ifs at h
    cases h
    rfl

theorem memWrite_trace {s t : State} {w : Width} {a v : Word} (h : memWrite w a v s = .ok () t) :
    t.trace = s.trace ++ [.memWrite a w v] := by
  unfold memWrite at h
  split at h <;> cases h
  rename_i u hu
  rw [note_trace, storeValue_trace hu]

/-- A stack write reads SP, writes it, then stores (42_fmt2.md R195). -/
theorem pushValue_trace {s t : State} {w : Width} {v : Word} (h : pushValue w v s = .ok () t) :
    t.trace = s.trace ++ [.regRead .sp s.sp, .regWrite .sp (s.sp - 2#16), .memWrite (s.sp - 2#16) w v] := by
  cases ho : isOdd (s.sp - 2#16) with
  | true => simp [pushValue, writeSp_odd ho] at h
  | false =>
    simp only [pushValue, writeSp_even ho, andThen_ok] at h
    rw [memWrite_trace h, writeReg_trace _ (by decide), note_trace]
    simp

/-! ### Traces of instructions on general registers -/

/-- An fmt1 instruction between general registers that sets the flags: the reads in source, destination order, then the writes of the result,
of PC and of SR (40_pipeline.md R150). -/
theorem runFmt1_gp_trace {i : Instr} {m : Mnemonic} {alu : Alu} {w : Width} {n k : Fin 12} {s : State} {out : AluOut}
    (hout : alu w (trunc w (s.readReg (.gp n))) (trunc w (s.readReg (.gp k))) (carryBit s.sr) s.draws = out)
    (hflags : out.flags.isSome) :
    ∃ t, runFmt1 i m .readWrite alu w (.reg (.gp n)) (.reg (.gp k)) s = .next t ∧
      t.trace = [.fetch s.pc i.opcodeWord, .regRead (.gp n) (s.readReg (.gp n)), .regRead (.gp k) (s.readReg (.gp k)),
        .regWrite (.gp k) out.res, .regWrite .pc (s.pc + 2#16), .regWrite .sr t.sr] := by
  have hnext : (fmt1Ctx s w (.reg (.gp n)) (.reg (.gp k))).pcNext = s.pc + 2#16 := rfl
  have hwidth : (fmt1Ctx s w (.reg (.gp n)) (.reg (.gp k))).width = w := rfl
  simp only [runFmt1, readSource_gp, destLoc, destRead_gp, destWrite, writeLoc, andThen_ok, finishStep_ok, hwidth, hnext,
    readReg_note, readReg_startStep, hout]
  refine ⟨_, rfl, ?_⟩
  simp [writeBack_trace, writeBack_pc, writeReg_trace, finalPc, hflags]

/-- PUSH of a general register: the source read, then the stack write, then the PC write (42_fmt2.md R195). -/
theorem execPush_gp_trace {w : Width} {n : Fin 12} {s : State} (hc : canStore s w (s.sp - 2#16))
    (ho : isOdd (s.sp - 2#16) = false) :
    ∃ t, execPush w (.reg (.gp n)) s = .next t ∧
      t.trace = [.fetch s.pc (Instr.push w (.reg (.gp n))).opcodeWord, .regRead (.gp n) (s.readReg (.gp n)), .regRead .sp s.sp,
        .regWrite .sp (s.sp - 2#16), .memWrite (s.sp - 2#16) w (trunc w (s.readReg (.gp n))), .regWrite .pc (s.pc + 2#16)] := by
  have hnext : (fmt2Ctx s w (.reg (.gp n)) true).pcNext = s.pc + 2#16 := rfl
  have hwidth : (fmt2Ctx s w (.reg (.gp n)) true).width = w := rfl
  obtain ⟨u, hu, -⟩ := pushValue_ok (w := w)
    (s := (startStep (.push w (.reg (.gp n))) s).note (.regRead (.gp n) (s.readReg (.gp n))))
    (trunc w (s.readReg (.gp n))) ho hc
  simp only [execPush, readSource_gp, andThen_ok, hwidth, hnext, readReg_startStep, hu, finishStep_ok]
  refine ⟨_, rfl, ?_⟩
  simp [writeBack_trace, writeBack_pc, pushValue_trace hu, finalPc]

end Sys2Proof.Machine

namespace Sys2Proof.Proofs

open Sys2Proof.Machine

/-- Settles O55. The two traces are those of the families' courses, with the word result of ADD and the even address that a word store needs; the
host's reply is read off `hostStep` by the outcome. -/
theorem tracesInOrder : Obligations.TracesInOrder := by
  unfold Obligations.TracesInOrder
  refine ⟨fun s n m => ?_, fun s t h cg => ⟨hostStep_of_retired h, ?_⟩, fun s f => hostStep_of_fault, fun s n _ hc => ?_⟩
  · obtain ⟨t, ht, htrace⟩ := runFmt1_gp_trace (i := .add .word (.reg (.gp n)) (.reg (.gp m))) (m := .add) (alu := aluAdd)
      (w := .word) (n := n) (k := m) (s := s) rfl rfl
    rw [trunc_word, trunc_word, aluAdd_word_res] at htrace
    exact ⟨t, ht, htrace⟩
  · rintro (ho | ho)
    · exact hostStep_of_halted h ho
    · exact hostStep_of_breakpoint h ho
  · obtain ⟨t, ht, htrace⟩ := execPush_gp_trace (n := n) hc (isOdd_false_of_canStore_word hc)
    rw [trunc_word] at htrace
    exact ⟨t, ht, htrace⟩

end Sys2Proof.Proofs
end

section
/-! What one step can leave, said once: `Keeps` for a halt and for every fault, the write-back and the retirement for a completed instruction; and so
what every step keeps (10_state.md R23–R25, R35). -/

namespace Sys2Proof

/-! ### Decoded instructions are well formed (30_encoding.md R104) -/

theorem decodeFmt1_wellFormed (w : Word) : (decodeFmt1 w).wellFormed := by
  have hs : (Src.ofFields (bits w 5 4) (bits w 11 8)).wellFormed := (src_ofFields (bits_lt ..) (bits_lt ..)).1
  have hd : (Dst.ofFields (bits w 7 7) (bits w 3 0)).wellFormed := (dst_ofFields (bits_lt ..) (bits_lt ..)).1
  unfold decodeFmt1
  split <;> simp [Instr.wellFormed, hs, hd]

theorem decodeFmt2_wellFormed {w : Word} {i : Instr} (h : decodeFmt2 w = .instr i) : i.wellFormed := by
  have hs : (Src.ofFields (bits w 5 4) (bits w 3 0)).wellFormed := (src_ofFields (bits_lt ..) (bits_lt ..)).1
  simp only [decodeFmt2] at h
  split at h
  · cases h; exact hs
  · split_ifs at h; cases h; exact hs
  · cases h; exact hs
  · split_ifs at h; cases h; exact hs
  · cases h; exact hs
  · split_ifs at h; cases h; exact hs
  · split_ifs at h; cases h; rfl
  · cases h

theorem decodeJump_wellFormed (w : Word) : (decodeJump w).wellFormed := by
  unfold decodeJump; split <;> rfl

theorem decodeMultiple_wellFormed (w : Word) : (decodeMultiple w).wellFormed := by
  unfold decodeMultiple; split <;> rfl

theorem decodeRotate_wellFormed {w : Word} {i : Instr} (h : decodeRotate w = .instr i) : i.wellFormed := by
  unfold decodeRotate at h
  split at h
  · split at h <;> cases h <;> rfl
  · cases h

theorem decodeWord_wellFormed {w : Word} {i : Instr} (h : decodeWord w = .instr i) : i.wellFormed := by
  unfold decodeWord at h
  split at h
  · exact decodeRotate_wellFormed h
  · split_ifs at h
    · cases h; rfl
    · cases h; exact decodeMultiple_wellFormed w
    · exact decodeFmt2_wellFormed h
  · cases h; exact decodeJump_wellFormed w
  · cases h; exact decodeJump_wellFormed w
  · cases h; exact decodeFmt1_wellFormed w

end Sys2Proof

namespace Sys2Proof.Machine

/-! ### Fetch and decode -/

theorem keeps_markFaulted (s : State) (report : FaultReport) : Keeps s (s.markFaulted report) := ⟨rfl, rfl, rfl, id, id, id⟩

theorem keeps_retire (s : State) (cg : Bool) : Keeps s (retire cg s) := ⟨rfl, rfl, rfl, id, id, id⟩

theorem Keeps.takeFault {s t : State} (h : Keeps s t) (report : FaultReport) : Keeps s (takeFault report t).after := by
  rw [takeFault_after]; exact h.trans (keeps_markFaulted t report)

/-- What fetch and decode can give: a halt or a fault that keeps all this, or a well-formed instruction. -/
theorem fetchDecode_keeps (s : State) :
    match fetchDecode s with
    | .halted t => Keeps s t
    | .stopped f => Keeps s f.after
    | .instr i => i.wellFormed := by
  have hstart : Keeps s { s with trace := [] } := ⟨rfl, rfl, rfl, id, id, id⟩
  have hfetch : KeepsIn s (fetchWord s.pc { s with trace := [] }) :=
    keepsIn_bind (r := .ok () _) (f := fun _ u => fetchWord s.pc u) hstart fun _ _ _ _ => keepsIn_fetchWord
  unfold fetchDecode
  cases hr : fetchWord s.pc { s with trace := [] } with
  | raise e t => rw [hr] at hfetch; exact hfetch.1.takeFault _
  | ok w t =>
    rw [hr] at hfetch
    have ht : Keeps s t := hfetch
    by_cases hh : w = s.params.haltWord
    · simp only [hh, ↓reduceIte]
      exact ht.trans ⟨rfl, rfl, rfl, id, id, id⟩
    · simp only [hh, ↓reduceIte]
      cases hd : decodeWord w with
      | instr i => exact decodeWord_wellFormed hd
      | noMatch why => exact ht.takeFault _

/-! ### The step -/

theorem step_faulted {s : State} {report : FaultReport} (hc : wellFormedParams s.params) (hf : s.faulted = some report) :
    step s = .fault (reportAgain report s) := by
  unfold step
  rw [if_pos hc, hf]

theorem reportAgain_after (report : FaultReport) (s : State) : (reportAgain report s).after = s := by cases report <;> rfl

theorem reportAgain_report (report : FaultReport) (s : State) : (reportAgain report s).report = report := by cases report <;> rfl

/-- The state `t` of a completed instruction: a routine that ended well, retired. -/
def Retires (s t : State) : Prop := ∃ cg u, EndsWell s (.ok cg u) ∧ t = retire cg u

/-- What a step can do: halt, or retire an instruction; or stop with a fault; or be refused. -/
theorem step_cases (s : State) :
    match step s with
    | .next t => Keeps s t ∨ Retires s t
    | .fault f => Keeps s f.after
    | .refused _ => True := by
  by_cases hc : wellFormedParams s.params = true
  case neg => simp [step, hc]
  cases hf : s.faulted with
  | some report => rw [step_faulted hc hf]; simp only [reportAgain_after]; exact Keeps.refl s
  | none =>
    rw [step_ready hc hf]
    have hd := fetchDecode_keeps s
    cases hfd : fetchDecode s with
    | halted t => rw [hfd] at hd; exact .inl hd
    | stopped f => rw [hfd] at hd; exact hd
    | instr i =>
      rw [hfd] at hd
      obtain ⟨r, hr, hw⟩ := exec_endsWell i s hd
      simp only [hr]
      cases r with
      | ok cg u => exact .inr ⟨cg, u, hw, rfl⟩
      | raise e u => exact hw.1.takeFault _

theorem step_next_cases {s t : State} (h : step s = .next t) : Keeps s t ∨ Retires s t := by
  have := step_cases s; rwa [h] at this

theorem step_fault_keeps {s : State} {f : Fault} (h : step s = .fault f) : Keeps s f.after := by
  have := step_cases s; rwa [h] at this

/-! ### The configuration (10_state.md R35) -/

theorem Retires.config {s t : State} (h : Retires s t) : t.params = s.params ∧ t.watch = s.watch := by
  obtain ⟨cg, u, ⟨v, pcNext, flags, wr, rfl, hv, -, -⟩, rfl⟩ := h
  have hq := writeBack_quiet pcNext flags wr v
  exact ⟨hq.params.trans hv.params, hq.watch.trans hv.watch⟩

/-! ### The invariant -/

theorem Keeps.inv {s t : State} (h : Keeps s t) (hi : Inv s) : Inv t :=
  ⟨h.wf hi.memory, by rw [h.pc]; exact hi.pcEven, h.sp hi.spEven, h.sr hi.sr⟩

theorem flagBits_and_not (f : Flags) : flagBits f &&& ~~~0x0107#16 = 0#16 := by
  obtain ⟨c, z, n, v⟩ := f
  revert c z n v
  decide

/-- The flag merge writes flags alone (40_pipeline.md R149), so that it makes no SR illegal. -/
theorem mergeFlags_and_illegal (sr mask : Word) (f : Flags) :
    mergeFlags sr f &&& ~~~(mask ||| 0x0107#16) = sr &&& ~~~(mask ||| 0x0107#16) := by
  have hf : flagBits f &&& (~~~mask &&& ~~~0x0107#16) = 0#16 := by
    rw [BitVec.and_comm (~~~mask), ← BitVec.and_assoc, flagBits_and_not, BitVec.zero_and]
  have hs : ~~~0x0107#16 &&& (~~~mask &&& ~~~0x0107#16) = ~~~mask &&& ~~~0x0107#16 := by
    rw [BitVec.and_comm, BitVec.and_assoc, BitVec.and_self]
  rw [mergeFlags, BitVec.not_or, BitVec.and_or_distrib_right, hf, BitVec.or_zero, BitVec.and_assoc, hs]

theorem finalPc_even {pcNext : Word} {wr : Written} (hn : isOdd pcNext = false) (hw : ∀ x, wr = .pc x → isOdd x = false) :
    isOdd (finalPc pcNext wr) = false := by
  cases wr with
  | pc v => exact hw v rfl
  | plain => exact hn
  | sr => exact hn

theorem writeBack_sr_legal {pcNext : Word} {flags : Option Flags} {wr : Written} {s : State} (h : srLegal s) :
    srLegal (writeBack pcNext flags wr s) := by
  have hsr := writeBack_regs pcNext flags wr s .sr
  unfold srLegal at h ⊢
  rw [(writeBack_quiet pcNext flags wr s).params, ← readReg_sr, hsr]
  cases flags with
  | none => simpa using h
  | some f =>
    simp only
    split
    · exact h
    · rw [mergeFlags_and_illegal]; exact h

theorem inv_writeBack {pcNext : Word} {flags : Option Flags} {wr : Written} {s : State} (h : Inv s) (hn : isOdd pcNext = false)
    (hw : ∀ x, wr = .pc x → isOdd x = false) : Inv (writeBack pcNext flags wr s) := by
  have hq := writeBack_quiet pcNext flags wr s
  refine ⟨?_, ?_, ?_, writeBack_sr_legal h.sr⟩
  · rw [hq.mem, hq.params]; exact h.memory
  · rw [writeBack_pc]; exact finalPc_even hn hw
  · rw [show (writeBack pcNext flags wr s).sp = s.sp from writeBack_regs pcNext flags wr s .sp]; exact h.spEven

theorem Retires.inv {s t : State} (h : Retires s t) (hi : Inv s) : Inv t := by
  obtain ⟨cg, u, ⟨v, pcNext, flags, wr, rfl, hv, hpc, hw⟩, rfl⟩ := h
  exact (keeps_retire _ cg).inv (inv_writeBack (hv.inv hi) (hpc.trans hi.pcEven) hw)

end Sys2Proof.Machine

namespace Sys2Proof.Proofs

open Sys2Proof.Machine

/-- Settles O53. A halt and a fault keep what `Keeps` says; a retired instruction ends with the write-back of an even PC and of flags alone. -/
theorem stepKeepsInvariant : Obligations.StepKeepsInvariant := by
  unfold Obligations.StepKeepsInvariant
  exact fun s hi => ⟨fun t h => (step_next_cases h).elim (·.inv hi) (·.inv hi), fun f h => (step_fault_keeps h).inv hi⟩

/-- Settles O52, from what a step can leave. -/
theorem configurationIsFixed : Obligations.ConfigurationIsFixed := by
  unfold Obligations.ConfigurationIsFixed
  exact fun s => ⟨fun t h => (step_next_cases h).elim (fun k => ⟨k.params, k.watch⟩) (·.config),
    fun f h => ⟨(step_fault_keeps h).params, (step_fault_keeps h).watch⟩⟩

/-- Settles O54, by evaluation of the reset state. -/
theorem resetMeetsInvariant : Obligations.ResetMeetsInvariant := by
  unfold Obligations.ResetMeetsInvariant
  exact ⟨wf_reset, by decide, by decide, by unfold srLegal; decide⟩

/-- Settles O50: the step of a faulted core is `reportAgain`. -/
theorem faultedCoreStaysFaulted : Obligations.FaultedCoreStaysFaulted := by
  unfold Obligations.FaultedCoreStaysFaulted
  intro s report hc hf
  have hstep := step_faulted hc hf
  have hhost := hostStep_of_fault hstep
  rw [reportAgain_after] at hhost
  exact ⟨_, hstep, hhost, reportAgain_report report s, reportAgain_after report s⟩

end Sys2Proof.Proofs
end

section
/-! The register file as the host sees it (10_state.md R22, R29, R41; 70_reset_and_hazards.md R278), R3 as a register and as a source field, and the
reset state. -/

namespace Sys2Proof

theorem ofNum_inj {m n : Nat} (hm : m < 16) (hn : n < 16) : Reg.ofNum m = Reg.ofNum n ↔ m = n := by
  refine ⟨fun h => ?_, fun h => h ▸ rfl⟩
  rw [← num_ofNum hm, h, num_ofNum hn]

/-- No field of a source operand names R3 as a register: the mode is a constant then (30_encoding.md R88, R104). -/
theorem src_ofFields_ne_cg {as n : Nat} (ha : as < 4) (hn : n < 16) {r : Reg}
    (h : Src.ofFields as n = .reg r ∨ Src.ofFields as n = .idx r ∨ Src.ofFields as n = .ind r ∨ Src.ofFields as n = .inc r) :
    r ≠ .cg := by
  have hwf := (src_ofFields ha hn).1
  rintro rfl
  rcases h with h | h | h | h <;> simp [h, Src.wellFormed] at hwf

end Sys2Proof

namespace Sys2Proof.Machine

theorem registerWords_length (s : State) : (registerWords s).length = 16 := by simp [registerWords]

theorem registerWords_getElem? (s : State) {k : Nat} (hk : k < 16) :
    (registerWords s)[k]? = some ((s.readReg (Reg.ofNum k)).setWidth 32) := by
  simp [registerWords, hk]

theorem registerWords_num (s : State) (r : Reg) : (registerWords s)[r.num]? = some ((s.readReg r).setWidth 32) := by
  rw [registerWords_getElem? s (num_lt r), ofNum_num]

theorem registerWords_cg (s : State) : (registerWords s)[3]? = some 0#32 := registerWords_num s .cg

/-- What the host reads after it wrote a register: R3 reads 0 still, the written one its new value, every other one as before. -/
theorem registerWords_setReg (s : State) {index k : Nat} (hi : index < 16) (hk : k < 16) (v : Word) :
    (registerWords (s.setReg (Reg.ofNum index) v))[k]? =
      if k = 3 then some 0#32 else if k = index then some (v.setWidth 32) else (registerWords s)[k]? := by
  by_cases h3 : k = 3
  · rw [if_pos h3, h3, registerWords_cg]
  have hcg : Reg.ofNum k ≠ .cg := fun h => h3 ((ofNum_inj hk (by decide)).1 h)
  rw [if_neg h3, registerWords_getElem? _ hk, registerWords_getElem? s hk, readReg_setReg]
  by_cases h : k = index
  · rw [if_pos h, if_pos ⟨congrArg Reg.ofNum h, h ▸ hcg⟩]
  · rw [if_neg h, if_neg fun hki => h ((ofNum_inj hk hi).1 hki.1)]

/-- A register write changes nothing but registers. -/
theorem setReg_frame (s : State) (r : Reg) (v : Word) : { s.setReg r v with pc := s.pc, sp := s.sp, sr := s.sr, gp := s.gp } = s := by
  cases r <;> rfl

theorem hostReadRegisters_ok {s : State} (hc : wellFormedParams s.params) : hostReadRegisters s = .done (registerWords s) s :=
  whenConfigured_ok hc _

theorem hostWriteRegister_ok {s : State} {index : Nat} (hc : wellFormedParams s.params) (hi : index ≤ 15) (value : Nat) :
    hostWriteRegister index value s = .done () (s.setReg (Reg.ofNum index) (BitVec.ofNat 16 value)) := by
  rw [hostWriteRegister, whenConfigured_ok hc, if_pos hi]

theorem hostWriteRegister_refused {s : State} {index : Nat} (hc : wellFormedParams s.params) (hi : 15 < index) (value : Nat) :
    hostWriteRegister index value s = .refused := by
  rw [hostWriteRegister, whenConfigured_ok hc, if_neg (Nat.not_le.2 hi)]

theorem setWidth_ofNat_word (n : Nat) : (BitVec.ofNat 16 n).setWidth 32 = BitVec.ofNat 32 (n % 65536) := by
  apply BitVec.eq_of_toNat_eq
  simp only [BitVec.toNat_setWidth, BitVec.toNat_ofNat]

theorem readReg_reset (r : Reg) : State.reset.readReg r = 0#16 := by
  cases r with
  | gp n => exact Vector.getElem_replicate n.isLt
  | _ => rfl

end Sys2Proof.Machine

namespace Sys2Proof.Proofs

open Sys2Proof.Machine

/-- Settles O12. R3 as a register is in the register file's own equations; the fields of a source that name R3 select a constant. -/
theorem r3HasNoStorage : Obligations.R3HasNoStorage := by
  unfold Obligations.R3HasNoStorage
  refine ⟨fun s v => ⟨rfl, rfl, rfl⟩, fun s v hc => ⟨hostWriteRegister_ok hc (by decide) v, _, hostReadRegisters_ok hc, registerWords_cg s⟩,
    fun s m w v => rfl, by decide, fun as n ha hn r => src_ofFields_ne_cg ha hn⟩

/-- Settles O57, by evaluation of the reset state and of its reset. -/
theorem resetStateIsAReset : Obligations.ResetStateIsAReset := by
  unfold Obligations.ResetStateIsAReset
  exact ⟨rfl, rfl, rfl, rfl, rfl, rfl, readReg_reset⟩

/-- Settles O59. The list the host reads is the register file by number; a write changes the one element, and R3's never. -/
theorem hostRegisters : Obligations.HostRegisters := by
  unfold Obligations.HostRegisters
  intro s index value hc
  refine ⟨_, hostReadRegisters_ok hc, registerWords_length s, registerWords_num s,
    fun hi => hostWriteRegister_refused hc hi value, fun hi => ?_⟩
  have hct : wellFormedParams (s.setReg (Reg.ofNum index) (BitVec.ofNat 16 value)).params := by rwa [setReg_params]
  refine ⟨_, _, hostWriteRegister_ok hc hi value, hostReadRegisters_ok hct, fun k hk => ?_, fun r hr hcg => ?_, setReg_frame ..⟩
  · rw [registerWords_setReg s (Nat.lt_succ_of_le hi) (Nat.lt_succ_of_le hk), setWidth_ofNat_word]
  · rw [← hr, ofNum_num, readReg_setReg, if_pos ⟨rfl, hcg⟩]

end Sys2Proof.Proofs
end

section
/-! The results of Execute as the numbers that the statements are said in (40_pipeline.md R144, R148; 41_fmt1.md; 42_fmt2.md): which course each
instruction runs, with which operation, and what result that operation gives. -/

namespace Sys2Proof.Machine

open Sys2Proof.Claims

theorem size_eq (w : Width) : size w = 2 ^ widthBits w := by cases w <;> rfl

/-- `^` and `&` as in `BitVec.and_or_distrib_right`. -/
theorem xor_and_distrib_right (x y z : Word) : (x ^^^ y) &&& z = (x &&& z) ^^^ (y &&& z) := by
  apply BitVec.eq_of_toNat_eq
  simp only [BitVec.toNat_and, BitVec.toNat_xor, Nat.and_xor_distrib_right]

/-- A value that fits its width is what cutting it to the width gives. -/
theorem trunc_of_lt_size {w : Width} {v : Word} (h : v.toNat < size w) : trunc w v = v := trunc_of_lt (size_eq w ▸ h)

theorem trunc_ofNat (w : Width) (n : Nat) : trunc w (BitVec.ofNat 16 n) = BitVec.ofNat 16 (n % size w) := by
  apply BitVec.eq_of_toNat_eq
  rw [trunc_toNat, BitVec.toNat_ofNat, BitVec.toNat_ofNat]
  cases w
  · show n % 65536 % 256 = n % 256 % 65536; omega
  · rfl

theorem trunc_eq_ofNat (w : Width) (v : Word) : trunc w v = BitVec.ofNat 16 (v.toNat % size w) := by
  rw [← trunc_ofNat, BitVec.ofNat_toNat, BitVec.setWidth_eq]

/-! ### Sums and differences -/

theorem addWithCarry_res {w : Width} {a b : Word} (ha : a.toNat < size w) (hb : b.toNat < size w) (cin : Bool) :
    (addWithCarry w a b cin).res = sumResult w a b cin.toNat := by
  show trunc w (BitVec.ofNat 16 ((trunc w a).toNat + (trunc w b).toNat + cin.toNat)) = _
  rw [trunc_of_lt_size ha, trunc_of_lt_size hb, trunc_ofNat, sumResult]

/-- `~v & mask(w)` counts down from `2^w − 1`. -/
theorem complement_toNat {w : Width} {v : Word} (h : v.toNat < size w) : (complement w v).toNat = size w - 1 - v.toNat := by
  rw [complement, trunc_toNat, BitVec.toNat_not]
  cases w <;> simp only [widthBits, size] at h ⊢ <;> omega

theorem ofInt_emod_size (w : Width) (x : Int) (n : Nat) (h : x % size w = (n : Int) % size w) :
    BitVec.ofInt 16 (x % size w) = BitVec.ofNat 16 (n % size w) := by
  rw [h, ← Int.natCast_emod, BitVec.ofInt_natCast]

/-- A difference is the sum with the complement, whose carry is the missing borrow. -/
theorem addWithCarry_complement_res {w : Width} {dst src : Word} (hd : dst.toNat < size w) (hs : src.toNat < size w) (cin : Bool) :
    (addWithCarry w dst (complement w src) cin).res = diffResult w dst src (1 - cin.toNat) := by
  have hc : (complement w src).toNat < size w := by rw [complement_toNat hs]; omega
  rw [addWithCarry_res hd hc, sumResult, diffResult, complement_toNat hs]
  refine (ofInt_emod_size w _ _ ?_).symm
  cases cin <;> cases w <;> simp only [size, Bool.toNat_false, Bool.toNat_true] at * <;> omega

/-! ### Decimal sums -/

theorem digits_eq (w : Width) : digits w = digitCount w := by cases w <;> rfl

theorem digitsValid_iff (k v : Nat) : digitsValid k v = true ↔ ∀ i, i < k → v / 16 ^ i % 16 ≤ 9 := by
  induction k generalizing v with
  | zero => simp [digitsValid]
  | succ k ih =>
    rw [digitsValid, Bool.and_eq_true, decide_eq_true_eq, ih]
    have hdiv : ∀ i, v / 16 / 16 ^ i = v / 16 ^ (i + 1) := fun i => by rw [Nat.div_div_eq_div_mul, Nat.pow_succ']
    constructor
    · rintro ⟨h0, hs⟩ (_ | i) hi
      · simpa using h0
      · rw [← hdiv]; exact hs i (Nat.lt_of_succ_lt_succ hi)
    · intro h
      exact ⟨by simpa using h 0 k.succ_pos, fun i hi => by rw [hdiv]; exact h (i + 1) (Nat.succ_lt_succ hi)⟩

theorem digitsValid_iff_isDecimal (w : Width) (v : Word) : digitsValid (digitCount w) v.toNat = true ↔ isDecimal w v := by
  rw [digitsValid_iff, ← digits_eq]

theorem packDecimal_mod (k n : Nat) : packDecimal k (n % 10 ^ k) = packDecimal k n := by
  induction k generalizing n with
  | zero => rfl
  | succ k ih =>
    rw [packDecimal, packDecimal, ← ih (n / 10), Nat.pow_succ', Nat.mod_mul_right_div_self, Nat.mod_mul_right_mod]

/-- The digits of a digit-wise sum are the packed digits of the sum of the numbers. -/
theorem addDigits_fst {k a b c : Nat} (ha : digitsValid k a) (hb : digitsValid k b) (hc : c ≤ 1) :
    (addDigits k a b c).1 = packDecimal k (decimalValue k a + decimalValue k b + c) := by
  induction k generalizing a b c with
  | zero => rfl
  | succ k ih =>
    simp only [digitsValid, Bool.and_eq_true, decide_eq_true_eq] at ha hb
    obtain ⟨ha0, ha⟩ := ha
    obtain ⟨hb0, hb⟩ := hb
    simp only [addDigits, packDecimal, decimalValue]
    rw [ih ha hb (by split <;> omega)]
    by_cases ht : 10 ≤ a % 16 + b % 16 + c
    · simp only [ht, ↓reduceIte]
      congr 1
      · omega
      · congr 2; omega
    · simp only [ht, ↓reduceIte]
      congr 1
      · omega
      · congr 2; omega

theorem aluDadd_res (s : State) (w : Width) (a b : Word) :
    (aluDadd w a b (carryBit s.sr) s.draws).res = daddResult s w a b := by
  have hvalid : (digitsValid (digitCount w) a.toNat && digitsValid (digitCount w) b.toNat) = true ↔ isDecimal w a ∧ isDecimal w b := by
    rw [Bool.and_eq_true, digitsValid_iff_isDecimal, digitsValid_iff_isDecimal]
  unfold aluDadd daddResult
  by_cases h : isDecimal w a ∧ isDecimal w b
  · rw [if_pos h, if_pos (hvalid.2 h), decimalResult, digits_eq, packDecimal_mod]
    exact congrArg (BitVec.ofNat 16)
      (by rw [addDigits_fst ((digitsValid_iff_isDecimal w a).2 h.1) ((digitsValid_iff_isDecimal w b).2 h.2) (Bool.toNat_le _),
        decimalSum, digits_eq]; rfl)
  · rw [if_neg h, if_neg (mt hvalid.1 h)]
    exact trunc_eq_ofNat w _

/-! ### Shifts and bytes -/

theorem widthMsb_toNat (w : Width) : (widthMsb w).toNat = half w := by cases w <;> rfl

/-- A bit put above a value shifted right. -/
theorem msb_or_shiftRight {w : Width} {op : Word} (h : op.toNat < size w) (top : Bool) :
    (if top then widthMsb w else 0#16) ||| (op >>> 1) = shiftResult w op top := by
  have hhalf : op.toNat / 2 < 2 ^ (widthBits w - 1) := by cases w <;> simp only [size, widthBits] at h ⊢ <;> omega
  have hor : half w * top.toNat ||| op.toNat / 2 = half w * top.toNat + op.toNat / 2 := by
    have := Nat.two_pow_add_eq_or_of_lt hhalf top.toNat
    cases w <;> exact this.symm
  have htop : (if top then widthMsb w else 0#16).toNat = half w * top.toNat := by cases top <;> simp [widthMsb_toNat]
  apply BitVec.eq_of_toNat_eq
  rw [BitVec.toNat_or, htop, BitVec.toNat_ushiftRight, Nat.shiftRight_eq_div_pow, pow_one, hor, shiftResult, BitVec.toNat_ofNat]
  cases w <;> cases top <;> simp only [size, half, Bool.toNat_false, Bool.toNat_true] at h ⊢ <;> omega

theorem and_widthMsb {w : Width} {op : Word} (h : op.toNat < size w) :
    op &&& widthMsb w = if decide (half w ≤ op.toNat) then widthMsb w else 0#16 := by
  have hbit : op.toNat.testBit (widthBits w - 1) = decide (half w ≤ op.toNat) := by
    rw [Nat.testBit_eq_decide_div_mod_eq, decide_eq_decide]
    cases w <;> simp only [size, half, widthBits] at h ⊢ <;> omega
  have hmsb : half w = 2 ^ (widthBits w - 1) := by cases w <;> rfl
  apply BitVec.eq_of_toNat_eq
  rw [BitVec.toNat_and, widthMsb_toNat, hmsb, Nat.and_two_pow, hbit, ← hmsb]
  by_cases hh : half w ≤ op.toNat <;> simp [hh, widthMsb_toNat]

theorem aluSwpb_res (w : Width) (a b : Word) (c : Bool) (n : Nat) : (aluSwpb w a b c n).res = swapped a := by
  have ha := a.isLt
  have hlow : (aluSwpb.lowByteWord a).toNat = a.toNat % 2 ^ 8 := by
    rw [aluSwpb.lowByteWord, BitVec.toNat_and]; exact Nat.and_two_pow_sub_one_eq_mod _ 8
  have hhigh : a.toNat / 2 ^ 8 < 2 ^ 8 := by omega
  apply BitVec.eq_of_toNat_eq
  show (aluSwpb.lowByteWord a <<< 8 ||| a >>> 8).toNat = _
  rw [BitVec.toNat_or, BitVec.toNat_shiftLeft, BitVec.toNat_ushiftRight, hlow, Nat.shiftLeft_eq, Nat.shiftRight_eq_div_pow,
    Nat.mod_eq_of_lt (by omega), Nat.mul_comm, ← Nat.two_pow_add_eq_or_of_lt hhigh, swapped, BitVec.toNat_ofNat]
  omega

theorem aluSxt_res (w : Width) (a b : Word) (c : Bool) (n : Nat) : (aluSxt w a b c n).res = extended a := by
  show (a.extractLsb' 0 8).signExtend 16 = BitVec.ofInt 16 (signed .byte (a.toNat % 256))
  have hlow : (a.extractLsb' 0 8).toNat = a.toNat % 256 := by simp [BitVec.extractLsb'_toNat]
  rw [BitVec.signExtend, BitVec.toInt_eq_toNat_cond, hlow, signed]
  congr 1
  split <;> split <;> simp only [half, size] at * <;> omega

/-! ### The courses of the instructions -/

/-- Every fmt1 instruction runs the common course, and MOV alone leaves its destination unread. -/
theorem allFmt1_runs {w : Width} {src : Src} {dst : Dst} {i : Instr} (h : i ∈ allFmt1 w src dst) :
    ∃ m use alu, (∀ s, exec i s = runFmt1 i m use alu w src dst s) ∧ (use = .write → i = .mov w src dst) := by
  simp only [allFmt1, List.mem_cons, List.not_mem_nil, or_false] at h
  rcases h with rfl | rfl | rfl | rfl | rfl | rfl | rfl | rfl | rfl | rfl | rfl | rfl
  · exact ⟨_, _, _, fun _ => rfl, fun _ => rfl⟩
  all_goals exact ⟨_, _, _, fun _ => rfl, fun h => by cases h⟩

/-- Every fmt1 instruction that writes its destination runs the common course; MOV alone leaves its destination unread. -/
theorem fmt1Writers_runs {w : Width} {src : Src} {dst : Dst} {i : Instr} (h : i ∈ fmt1Writers w src dst) :
    ∃ m use alu, (∀ s, exec i s = runFmt1 i m use alu w src dst s) ∧ (use = .write ∨ use = .readWrite ∧ i ≠ .mov w src dst) := by
  simp only [fmt1Writers, List.mem_cons, List.not_mem_nil, or_false] at h
  rcases h with rfl | rfl | rfl | rfl | rfl | rfl | rfl | rfl | rfl | rfl
  · exact ⟨_, _, _, fun _ => rfl, .inl rfl⟩
  all_goals exact ⟨_, _, _, fun _ => rfl, .inr ⟨rfl, by simp⟩⟩

/-- The fmt1 instructions that write their destination, each with the operation whose result the statements give by number. MOV takes any
destination value. -/
theorem fmt1Results_runs {s : State} {w : Width} {src : Src} {dst : Dst} {a b : Word} {m : Mnemonic} {i : Instr} {res : Word}
    (ha : a.toNat < size w) (hb : b.toNat < size w) (h : (m, i, res) ∈ fmt1Results s w src dst a b) :
    ∃ use alu, (∀ t, exec i t = runFmt1 i m use alu w src dst t) ∧ use = (if m = .mov then .write else .readWrite) ∧
      ∀ d, (m ≠ .mov → d = b) → (alu w a d (carryBit s.sr) s.draws).res = res := by
  have hand : ∀ x : Word, trunc w (x &&& b) = x &&& b := fun x => by
    rw [trunc, BitVec.and_assoc, show b &&& widthMask w = b from trunc_of_lt_size hb]
  have key : ∀ {alu : Alu}, m ≠ .mov → (alu w a b (carryBit s.sr) s.draws).res = res →
      ∀ d, (m ≠ .mov → d = b) → (alu w a d (carryBit s.sr) s.draws).res = res := fun hm hres d hd => hd hm ▸ hres
  simp only [fmt1Results, List.mem_cons, List.not_mem_nil, or_false, Prod.mk.injEq] at h
  rcases h with ⟨rfl, rfl, rfl⟩ | ⟨rfl, rfl, rfl⟩ | ⟨rfl, rfl, rfl⟩ | ⟨rfl, rfl, rfl⟩ | ⟨rfl, rfl, rfl⟩ | ⟨rfl, rfl, rfl⟩ |
    ⟨rfl, rfl, rfl⟩ | ⟨rfl, rfl, rfl⟩ | ⟨rfl, rfl, rfl⟩ | ⟨rfl, rfl, rfl⟩
  case inl => exact ⟨_, aluMov, fun _ => rfl, rfl, fun _ _ => rfl⟩
  all_goals refine ⟨_, _, fun _ => rfl, rfl, key (by decide) ?_⟩
  · exact addWithCarry_res hb ha false
  · exact addWithCarry_res hb ha _
  · exact addWithCarry_complement_res hb ha _
  · exact addWithCarry_complement_res hb ha true
  · exact aluDadd_res s w a b
  · exact (hand (~~~a)).trans (BitVec.and_comm _ _)
  · show trunc w (a ||| b) = b ||| a
    rw [trunc, BitVec.and_or_distrib_right, ← trunc, ← trunc, trunc_of_lt_size ha, trunc_of_lt_size hb, BitVec.or_comm]
  · show trunc w (a ^^^ b) = a ^^^ b
    rw [trunc, xor_and_distrib_right, ← trunc, ← trunc, trunc_of_lt_size ha, trunc_of_lt_size hb]
  · exact hand a

/-- Every read-modify-write instruction runs the common course. -/
theorem rmwOf_runs {w : Width} {src : Src} {i : Instr} (h : i ∈ rmwOf w src) :
    ∃ m alu, ∀ s, exec i s = runRmw i m alu w src s := by
  cases w <;> simp only [rmwOf, List.mem_cons, List.not_mem_nil, or_false] at h
  · rcases h with rfl | rfl <;> exact ⟨_, _, fun _ => rfl⟩
  · rcases h with rfl | rfl | rfl | rfl <;> exact ⟨_, _, fun _ => rfl⟩

/-- The read-modify-write instructions, each with the operation whose result the statements give by number. -/
theorem rmwResults_runs {s : State} {w : Width} {src : Src} {a : Word} {m : Mnemonic} {i : Instr} {res : Word}
    (ha : a.toNat < size w) (h : (m, i, res) ∈ rmwResults s w src a) :
    ∃ alu, (∀ t, exec i t = runRmw i m alu w src t) ∧ (alu w a 0#16 (carryBit s.sr) s.draws).res = res := by
  have hrrc : (aluRrc w a 0#16 (carryBit s.sr) s.draws).res = shiftResult w a (s.sr.getLsbD 0) := msb_or_shiftRight ha _
  have hrra : (aluRra w a 0#16 (carryBit s.sr) s.draws).res = shiftResult w a (decide (half w ≤ a.toNat)) := by
    rw [← msb_or_shiftRight ha, ← and_widthMsb ha]; rfl
  cases w <;> simp only [rmwResults, List.mem_cons, List.not_mem_nil, or_false, Prod.mk.injEq] at h
  · rcases h with ⟨rfl, rfl, rfl⟩ | ⟨rfl, rfl, rfl⟩
    · exact ⟨_, fun _ => rfl, hrrc⟩
    · exact ⟨_, fun _ => rfl, hrra⟩
  · rcases h with ⟨rfl, rfl, rfl⟩ | ⟨rfl, rfl, rfl⟩ | ⟨rfl, rfl, rfl⟩ | ⟨rfl, rfl, rfl⟩
    · exact ⟨_, fun _ => rfl, hrrc⟩
    · exact ⟨_, fun _ => rfl, hrra⟩
    · exact ⟨_, fun _ => rfl, aluSwpb_res ..⟩
    · exact ⟨_, fun _ => rfl, aluSxt_res ..⟩

end Sys2Proof.Machine
end

section
/-! Where an instruction stops, by the routine of its course that raises: the source, the read of the destination, the write of the result
(60_exceptions.md R249, R250); and the checks of SR (40_pipeline.md R155, R156; 70_reset_and_hazards.md R278). -/

namespace Sys2Proof.Machine

open Sys2Proof.Claims

/-- A routine that raises before any store stops its instruction. -/
theorem stopsWith_of_raise {i : Instr} {s t : State} {e : Raise} {regs : Reg → Word} (h : exec i s = finishStep i s.pc (.raise e t))
    (hregs : ∀ r, t.readReg r = regs r) (hmem : t.mem = s.mem) : StopsWith i s e regs := by
  refine ⟨_, h, takeFault_report _ _, fun r => ?_, ?_, ?_⟩
  · rw [takeFault_after, readReg_markFaulted, hregs]
  · rw [takeFault_after, markFaulted_mem, hmem]
  · rw [takeFault_after, takeFault_report, markFaulted_faulted]

/-! ### Operands at the start of a step -/

theorem destGiven_startStep (i : Instr) (ctx : Ctx) (s : State) (src : Src) (use : DstUse) (l : Loc) (b : Word) :
    destGiven ctx (startStep i s) src use l b = destGiven ctx s src use l b := by
  cases use <;> simp only [destGiven, dstValue_startStep]

/-- The source that can be read, at the start of a step. -/
theorem readSource_start_ok (i : Instr) {ctx : Ctx} {s : State} {src : Src} {a : Word} (hwf : src.wellFormed)
    (ha : srcValue ctx s src = some a) :
    ∃ t, readSource ctx src (s.pc + 2#16) (startStep i s) = .ok ⟨a, srcLoc ctx s src, dstExtAddr s src⟩ t ∧ Quiet (startStep i s) t ∧
      ∀ r, t.readReg r = regAfterSrc ctx s src r := by
  obtain ⟨t, ht, hq, hr⟩ := readSource_ok (s := startStep i s) hwf (by rw [srcValue_startStep]; exact ha)
  rw [srcLoc_startStep] at ht
  exact ⟨t, ht, hq, fun r => by rw [hr, regAfterSrc_startStep]⟩

/-- The source that can be read and then the destination that is found, at the start of a step. -/
theorem operands_start_ok (i : Instr) {ctx : Ctx} {s : State} {src : Src} {dst : Dst} {a : Word} {l : Loc} (hwf : src.wellFormed)
    (ha : srcValue ctx s src = some a) (hl : dstLoc ctx s src dst = some l) :
    ∃ s1 s2, readSource ctx src (s.pc + 2#16) (startStep i s) = .ok ⟨a, srcLoc ctx s src, dstExtAddr s src⟩ s1 ∧
      destLoc dst (dstExtAddr s src) s1 = .ok l s2 ∧ Quiet (startStep i s) s2 ∧ ∀ r, s2.readReg r = regAfterSrc ctx s src r := by
  obtain ⟨s1, h1, q1, r1⟩ := readSource_start_ok i hwf ha
  obtain ⟨s2, h2, q2, r2⟩ := destLoc_ok (s := startStep i s) q1 (fun r => by rw [r1, regAfterSrc_startStep])
    (by rw [dstLoc_startStep]; exact hl)
  exact ⟨s1, s2, h1, h2, q1.trans q2, fun r => (r2 r).trans (r1 r)⟩

/-! ### fmt1 -/

section
variable {i : Instr} {m : Mnemonic} {use : DstUse} {alu : Alu} {w : Width} {src : Src} {dst : Dst} {s : State} {a b : Word} {l : Loc}
  {e : Raise}

theorem runFmt1_stops_at_source (hrun : exec i s = runFmt1 i m use alu w src dst s)
    (h : readSource (fmt1Ctx s w src dst) src (s.pc + 2#16) (startStep i s) = .raise e (startStep i s)) :
    StopsWith i s e s.readReg := by
  refine stopsWith_of_raise (t := startStep i s) ?_ (fun r => readReg_startStep s i r) rfl
  rw [hrun]
  simp only [runFmt1, h, andThen_raise]

/-- An fmt1 instruction whose operands are found and whose destination read raises: the source's auto-increment has been done. -/
theorem runFmt1_stops_at_read (hrun : exec i s = runFmt1 i m use alu w src dst s) (hwf : src.wellFormed)
    (ha : srcValue (fmt1Ctx s w src dst) s src = some a) (hl : dstLoc (fmt1Ctx s w src dst) s src dst = some l)
    (hraise : ∀ u, u.params = s.params → (∀ r, u.readReg r = regAfterSrc (fmt1Ctx s w src dst) s src r) →
      destRead (fmt1Ctx s w src dst) use l u = .raise e u) :
    StopsWith i s e (regAfterSrc (fmt1Ctx s w src dst) s src) := by
  obtain ⟨s1, s2, h1, h2, q2, r2⟩ := operands_start_ok i hwf ha hl
  refine stopsWith_of_raise ?_ r2 q2.mem
  rw [hrun]
  simp only [runFmt1]
  rw [h1, andThen_ok, h2, andThen_ok, hraise s2 q2.params r2, andThen_raise]

/-- An fmt1 instruction whose operands are read and whose destination write raises: the source's auto-increment has been done. -/
theorem runFmt1_stops_at_write (hrun : exec i s = runFmt1 i m use alu w src dst s) (hwf : src.wellFormed)
    (ha : srcValue (fmt1Ctx s w src dst) s src = some a) (hl : dstLoc (fmt1Ctx s w src dst) s src dst = some l)
    (hb : destGiven (fmt1Ctx s w src dst) s src use l b)
    (hraise : ∀ u, u.params = s.params → destWrite m w use l (alu w a b (carryBit s.sr) s.draws).res u = .raise e u) :
    StopsWith i s e (regAfterSrc (fmt1Ctx s w src dst) s src) := by
  obtain ⟨s1, s2, h1, h2, q2, r2⟩ := operands_start_ok i hwf ha hl
  obtain ⟨s3, h3, q3, r3⟩ := destRead_given q2 (fun r => by rw [r2, regAfterSrc_startStep]) (by rw [destGiven_startStep]; exact hb)
  have h4 := hraise (s3.useDraws (alu w a b (carryBit s.sr) s.draws).draws) (q2.trans q3).params
  refine stopsWith_of_raise ?_ (fun r => (readReg_useDraws ..).trans ((r3 r).trans (r2 r))) (q2.trans q3).mem
    (t := s3.useDraws (alu w a b (carryBit s.sr) s.draws).draws)
  rw [hrun]
  simp only [runFmt1]
  rw [h1, andThen_ok, h2, andThen_ok, h3, andThen_ok, h4, andThen_raise]

/-- The destination value that an instruction of `fmt1Results` takes. -/
theorem destGiven_of_writer {ctx : Ctx} (hu : use = if m = .mov then .write else .readWrite)
    (h : m = .mov ∨ dstValue ctx s src l = some b) : ∃ d, destGiven ctx s src use l d ∧ (m ≠ .mov → d = b) := by
  by_cases hm : m = .mov
  · rw [if_pos hm] at hu
    subst hu
    exact ⟨0#16, rfl, fun hne => absurd hm hne⟩
  · rw [if_neg hm] at hu
    subst hu
    exact ⟨b, h.resolve_left hm, fun _ => rfl⟩

end

/-! ### fmt2 -/

section
variable {i : Instr} {m : Mnemonic} {alu : Alu} {w : Width} {src : Src} {s : State} {a : Word} {e : Raise}

theorem runRmw_stops_at_source (hrun : exec i s = runRmw i m alu w src s) (hn : hasNoLocation src = false)
    (h : readSource (fmt2Ctx s w src false) src (s.pc + 2#16) (startStep i s) = .raise e (startStep i s)) :
    StopsWith i s e s.readReg := by
  refine stopsWith_of_raise (t := startStep i s) ?_ (fun r => readReg_startStep s i r) rfl
  rw [hrun]
  simp only [runRmw, hn, Bool.false_eq_true, ↓reduceIte, h, andThen_raise]

/-- A read-modify-write instruction whose operand is read and whose write raises: the auto-increment has been done. -/
theorem runRmw_stops_at_write (hrun : exec i s = runRmw i m alu w src s) (hwf : src.wellFormed) (hn : hasNoLocation src = false)
    (ha : srcValue (fmt2Ctx s w src false) s src = some a)
    (hraise : ∀ u, u.params = s.params →
      writeLoc m w (srcLoc (fmt2Ctx s w src false) s src) (alu w a 0#16 (carryBit s.sr) s.draws).res u = .raise e u) :
    StopsWith i s e (regAfterSrc (fmt2Ctx s w src false) s src) := by
  obtain ⟨s1, h1, q1, r1⟩ := readSource_start_ok i hwf ha
  have h2 := hraise (s1.useDraws (alu w a 0#16 (carryBit s.sr) s.draws).draws) q1.params
  refine stopsWith_of_raise ?_ (fun r => (readReg_useDraws ..).trans (r1 r)) q1.mem
    (t := s1.useDraws (alu w a 0#16 (carryBit s.sr) s.draws).draws)
  rw [hrun]
  simp only [runRmw, hn, Bool.false_eq_true, ↓reduceIte]
  rw [h1, andThen_ok, h2, andThen_raise]

/-- PUSH and CALL stop where their source raises. -/
theorem stackOf_stops_at_source (hi : i ∈ stackOf w src)
    (h : readSource (fmt2Ctx s w src true) src (s.pc + 2#16) (startStep i s) = .raise e (startStep i s)) :
    StopsWith i s e s.readReg := by
  refine stopsWith_of_raise (t := startStep i s) ?_ (fun r => readReg_startStep s i r) rfl
  cases w <;> simp only [stackOf, List.mem_cons, List.not_mem_nil, or_false] at hi
  · subst hi; simp only [exec, execPush, h, andThen_raise]
  · rcases hi with rfl | rfl
    · simp only [exec, execPush, h, andThen_raise]
    · simp only [exec, execCall, h, andThen_raise]

end

/-! ### The checks of SR -/

theorem writeSr_byte (m : Mnemonic) (v : Word) (s : State) : writeSr m .byte v s = .raise (.unknown .byteSRWrite) s := rfl

theorem writeSr_not_in_srSafe {m : Mnemonic} {s : State} (h : m ∉ s.params.srSafe) (v : Word) :
    writeSr m .word v s = .raise (.unknown .srUnsafeOpcode) s := by
  simp [writeSr, h]

theorem writeSr_bits {m : Mnemonic} {s : State} {v : Word} (h : m ∈ s.params.srSafe) (hv : v &&& ~~~s.params.srMask ≠ 0#16) :
    writeSr m .word v s = .raise (.unknown .srUnimplementedBits) s := by
  simp [writeSr, h, hasUnimplementedBits, hv]

theorem popSr_bits {s : State} {v : Word} (hv : v &&& ~~~s.params.srMask ≠ 0#16) :
    popSr v s = .raise (.unknown .srUnimplementedBits) s := by
  simp [popSr, hasUnimplementedBits, hv]

/-- SR as a source operand, with a bit that the host stored. -/
theorem readSource_sr_illegal {s : State} (h : ¬srLegal s) (ctx : Ctx) (cursor : Word) :
    readSource ctx (.reg .sr) cursor s = .raise (.unknown .srUnimplementedBits) s := by
  simp only [readSource, readOperandReg_illegal h, andThen_raise]

/-- A legal SR as a source operand of a read-modify-write instruction. -/
theorem srcValue_sr {ctx : Ctx} {s : State} (h : srLegal s) : srcValue ctx s (.reg .sr) = some (trunc ctx.width s.sr) := by
  rw [srcValue_reg, operandValue_legal fun _ => h]; rfl

/-- A legal SR as a destination. -/
theorem dstValue_sr {ctx : Ctx} {s : State} {src : Src} (hwf : src.wellFormed) (h : srLegal s) :
    dstValue ctx s src (.reg .sr) = some (trunc ctx.width s.sr) := by
  obtain ⟨-, hsr, -⟩ := regAfterSrc_special hwf ctx s
  have hb : hasHostBits s.params s.sr = false := by simpa using mt (hasHostBits_iff s).1 (not_not_intro h)
  simp [dstValue, hsr, hb]

/-- An illegal SR as a destination that is read. -/
theorem destRead_sr_illegal {ctx : Ctx} {use : DstUse} {s : State} (hu : use ≠ .write) (h : ¬srLegal s) :
    destRead ctx use (.reg .sr) s = .raise (.unknown .srUnimplementedBits) s := by
  cases use with
  | write => exact absurd rfl hu
  | readWrite => exact readOperandReg_illegal h
  | read => exact readOperandReg_illegal h

/-- A write of SR by fmt1 stops where `writeSr` raises on the result. -/
theorem fmt1_sr_write_stops {s : State} {w : Width} {src : Src} {i : Instr} {m : Mnemonic} {use : DstUse} {alu : Alu} {a b : Word}
    {reason : Reason} (hrun : exec i s = runFmt1 i m use alu w src (.reg .sr) s) (hu : use ≠ .read) (hwf : src.wellFormed)
    (ha : srcValue (fmt1Ctx s w src (.reg .sr)) s src = some a)
    (hb : destGiven (fmt1Ctx s w src (.reg .sr)) s src use (.reg .sr) b)
    (hraise : ∀ u, u.params = s.params →
      writeSr m w (alu w a b (carryBit s.sr) s.draws).res u = .raise (.unknown reason) u) :
    RaisesQuietly i s reason (regAfterSrc (fmt1Ctx s w src (.reg .sr)) s src) := by
  refine runFmt1_stops_at_write hrun hwf ha rfl hb fun u hp => ?_
  cases use with
  | read => exact absurd rfl hu
  | write => exact hraise u hp
  | readWrite => exact hraise u hp

/-- A write of SR by a read-modify-write instruction stops where `writeSr` raises on the result. -/
theorem rmw_sr_write_stops {s : State} {w : Width} {i : Instr} {m : Mnemonic} {alu : Alu} {reason : Reason}
    (hrun : exec i s = runRmw i m alu w (.reg .sr) s) (hs : srLegal s)
    (hraise : ∀ u, u.params = s.params →
      writeSr m w (alu w (trunc w s.sr) 0#16 (carryBit s.sr) s.draws).res u = .raise (.unknown reason) u) :
    RaisesQuietly i s reason s.readReg := by
  have hregs : regAfterSrc (fmt2Ctx s w (.reg .sr) false) s (.reg .sr) = s.readReg := funext (regAfterSrc_of_not_inc (by simp))
  rw [← hregs]
  exact runRmw_stops_at_write hrun rfl rfl (srcValue_sr hs) hraise

/-- RETI stops on an SR word with a bit that an instruction may not set, with nothing written. -/
theorem reti_stops_on_sr {s : State} {srv pcv : Word} (h0 : wordAt s s.sp = some srv) (h1 : wordAt s (s.sp + 2#16) = some pcv)
    (hv : srv &&& ~~~s.params.srMask ≠ 0#16) : RaisesQuietly .reti s .srUnimplementedBits s.readReg := by
  let s0 := (startStep .reti s).note (.regRead .sp s.sp)
  let s1 := s0.note (.memRead s.sp .word srv)
  let s2 := s1.note (.memRead (s.sp + 2#16) .word pcv)
  refine stopsWith_of_raise (t := s2) ?_ (fun r => by simp [s2, s1, s0]) rfl
  show execReti s = _
  simp only [execReti]
  rw [memRead_ok (s := s0) (w := .word) (v := srv) h0, andThen_ok, memRead_ok (s := s1) (w := .word) (v := pcv) h1, andThen_ok, popSr_bits (s := s2) hv,
    andThen_raise]

end Sys2Proof.Machine

namespace Sys2Proof.Proofs

open Sys2Proof.Machine Sys2Proof.Claims

/-- Settles O42. A write of SR stops at the first check that `writeSr` fails, in the course of its family; a read of an SR that the host left
illegal stops at the source or at the read of the destination. -/
theorem srWritesAreChecked : Obligations.SrWritesAreChecked := by
  unfold Obligations.SrWritesAreChecked
  refine ⟨fun src s a hwf ha i hi hlegal => ?_, fun src s a b hwf ha m i res hi hb => ?_, fun s hs i hi => ?_, fun s hs m i res hi => ?_,
    fun s srv pcv => reti_stops_on_sr, fun s w hs => ⟨fun dst i hi => ?_, fun src a hwf ha i hi hmov => ?_⟩⟩
  · obtain ⟨m, use, alu, hrun, hu⟩ := fmt1Writers_runs hi
    obtain ⟨b, hb⟩ : ∃ b, destGiven (fmt1Ctx s .byte src (.reg .sr)) s src use (.reg .sr) b := by
      rcases hu with rfl | ⟨rfl, hne⟩
      · exact ⟨0#16, rfl⟩
      · exact ⟨_, dstValue_sr hwf (hlegal.resolve_left hne)⟩
    exact fmt1_sr_write_stops (hrun s) (by rcases hu with rfl | ⟨rfl, -⟩ <;> decide) hwf ha hb fun u _ => writeSr_byte m _ u
  · obtain ⟨use, alu, hrun, hu, hres⟩ := fmt1Results_runs a.isLt b.isLt hi
    obtain ⟨d, hd, hdb⟩ := destGiven_of_writer hu hb
    have stops : ∀ {reason}, (∀ u : State, u.params = s.params → writeSr m .word res u = .raise (.unknown reason) u) →
        RaisesQuietly i s reason (regAfterSrc (fmt1Ctx s .word src (.reg .sr)) s src) := fun hraise =>
      fmt1_sr_write_stops (hrun s) (by rw [hu]; split <;> decide) hwf ha hd (by rw [hres d hdb]; exact hraise)
    exact ⟨fun hm => stops fun u hp => writeSr_not_in_srSafe (hp ▸ hm) res, fun hm hv => stops fun u hp => writeSr_bits (hp ▸ hm) (hp ▸ hv)⟩
  · obtain ⟨m, alu, hrun⟩ := rmwOf_runs hi
    exact rmw_sr_write_stops (hrun s) hs fun u _ => writeSr_byte m _ u
  · obtain ⟨alu, hrun, hres⟩ := rmwResults_runs s.sr.isLt hi
    have stops : ∀ {reason}, (∀ u : State, u.params = s.params → writeSr m .word res u = .raise (.unknown reason) u) →
        RaisesQuietly i s reason s.readReg := fun hraise =>
      rmw_sr_write_stops (hrun s) hs (by rw [trunc_word, hres]; exact hraise)
    exact ⟨fun hm => stops fun u hp => writeSr_not_in_srSafe (hp ▸ hm) res, fun hm hv => stops fun u hp => writeSr_bits (hp ▸ hm) (hp ▸ hv)⟩
  · rw [List.mem_append, List.mem_append] at hi
    rcases hi with (hi | hi) | hi
    · obtain ⟨m, use, alu, hrun, -⟩ := allFmt1_runs hi
      exact runFmt1_stops_at_source (hrun s) (readSource_sr_illegal (s := startStep i s) hs _ _)
    · obtain ⟨m, alu, hrun⟩ := rmwOf_runs hi
      exact runRmw_stops_at_source (hrun s) rfl (readSource_sr_illegal (s := startStep i s) hs _ _)
    · exact stackOf_stops_at_source hi (readSource_sr_illegal (s := startStep i s) hs _ _)
  · obtain ⟨m, use, alu, hrun, huse⟩ := allFmt1_runs hi
    refine runFmt1_stops_at_read (hrun s) hwf ha rfl fun u hp hregs => destRead_sr_illegal (fun hw => hmov (huse hw)) ?_
    obtain ⟨-, hsr, -⟩ := regAfterSrc_special hwf (fmt1Ctx s w src (.reg .sr)) s
    have hu : u.sr = s.sr := (hregs .sr).trans hsr
    rwa [srLegal, hu, hp]

end Sys2Proof.Proofs
end

section
/-! Where an access to memory raises, and with what: `accessError` is the answer of a fetch, a read and a write alike (20_memory.md R53,
R57–R59); and the fault of a step whose fetch raises (40_pipeline.md R121). -/

namespace Sys2Proof.Machine

open Sys2Proof.Claims

/-! ### A word as a number -/

theorem wordOfBytes_eq_ofNat (lo hi : Byte) : wordOfBytes lo hi = BitVec.ofNat 16 (lo.toNat + 256 * hi.toNat) := by
  apply BitVec.eq_of_toNat_eq
  rw [wordOfBytes, BitVec.toNat_append, ← Nat.shiftLeft_add_eq_or_of_lt lo.isLt, Nat.shiftLeft_eq, BitVec.toNat_ofNat]
  omega

theorem lowByte_eq_ofNat (v : Word) : lowByte v = BitVec.ofNat 8 v.toNat := by
  apply BitVec.eq_of_toNat_eq
  simp [lowByte, BitVec.extractLsb'_toNat]

theorem highByte_eq_ofNat (v : Word) : highByte v = BitVec.ofNat 8 (v.toNat / 256) := by
  apply BitVec.eq_of_toNat_eq
  simp [highByte, BitVec.extractLsb'_toNat, Nat.shiftRight_eq_div_pow]

theorem isOdd_iff (v : Word) : isOdd v = true ↔ v.toNat % 2 = 1 := by simp [isOdd]

theorem isOdd_false_iff (v : Word) : isOdd v = false ↔ v.toNat % 2 = 0 := by simp [isOdd]

/-! ### Bytes -/

theorem byteWrite_eq_some {s t : State} {a : Word} {b : Byte} (h : byteWrite s a b = some t) :
    isMapped s.params a = true ∧ t = s.putByte a b := by
  unfold byteWrite at h
  split at h <;> cases h
  exact ⟨‹_›, rfl⟩

/-! ### What an access raises -/

theorem accessError_odd {p : Params} {a : Word} (h : a.toNat % 2 = 1) : accessError p .word a = some (.unknown .misalignedWord) := by
  simp [accessError, h]

theorem accessError_lower {p : Params} {w : Width} {a : Word} (ha : w = .word → a.toNat % 2 = 0) (h : isMapped p a = false) :
    accessError p w a = some (.memFail a) := by
  rw [accessError, if_neg fun hw => by have := ha hw.1; omega, if_pos h]

theorem accessError_upper {p : Params} {a : Word} (ha : a.toNat % 2 = 0) (h0 : isMapped p a = true) (h1 : isMapped p (a + 1#16) = false) :
    accessError p .word a = some (.memFail (a + 1#16)) := by
  simp [accessError, ha, h0, h1]

/-- Only a word at an odd address is misaligned. -/
theorem accessError_ne_misaligned {p : Params} {w : Width} {a : Word} (ha : w = .word → a.toNat % 2 = 0) :
    accessError p w a ≠ some (.unknown .misalignedWord) := by
  rw [accessError, if_neg fun hw => by have := ha hw.1; omega]
  split
  · simp
  · split <;> simp

/-- A read raises what `accessError` says. -/
theorem loadValue_eq_error (s : State) (w : Width) (a : Word) (e : Raise) :
    loadValue s w a = .error e ↔ accessError s.params w a = some e := by
  cases w with
  | byte => cases hb : byteRead s a <;> simp [loadValue, accessError, ← byteRead_isSome, hb]
  | word =>
    cases ho : isOdd a with
    | true => simp [loadValue, accessError, ho, (isOdd_iff a).1 ho]
    | false =>
      cases hlo : byteRead s a <;> cases hhi : byteRead s (a + 1#16) <;>
        simp [loadValue, accessError, ← byteRead_isSome, ho, (isOdd_false_iff a).1 ho, hlo, hhi]

/-- A write raises what `accessError` says, before any byte is written. -/
theorem storeValue_eq_error (s : State) (w : Width) (a v : Word) (e : Raise) :
    storeValue s w a v = .error e ↔ accessError s.params w a = some e := by
  cases w with
  | byte => cases hm : isMapped s.params a <;> simp [storeValue, accessError, hm]
  | word =>
    cases ho : isOdd a with
    | true => simp [storeValue, accessError, ho, (isOdd_iff a).1 ho]
    | false =>
      cases hm : isMapped s.params a <;> cases hm1 : isMapped s.params (a + 1#16) <;>
        simp [storeValue, accessError, ho, (isOdd_false_iff a).1 ho, hm, hm1]

section
variable {s t : State} {w : Width} {a : Word} {e : Raise}

theorem memRead_raise (h : accessError s.params w a = some e) : memRead w a s = .raise e s := by
  simp [memRead, (loadValue_eq_error s w a e).2 h]

theorem fetchWord_raise (h : accessError s.params .word a = some e) : fetchWord a s = .raise e s := by
  simp [fetchWord, (loadValue_eq_error s .word a e).2 h]

theorem memWrite_raise (v : Word) (h : accessError s.params w a = some e) : memWrite w a v s = .raise e s := by
  simp [memWrite, (storeValue_eq_error s w a v e).2 h]

theorem accessError_of_memRead (h : memRead w a s = .raise e t) : accessError s.params w a = some e := by
  unfold memRead at h
  split at h <;> cases h
  exact (loadValue_eq_error ..).1 ‹_›

theorem accessError_of_fetchWord (h : fetchWord a s = .raise e t) : accessError s.params .word a = some e := by
  unfold fetchWord at h
  split at h <;> cases h
  exact (loadValue_eq_error ..).1 ‹_›

theorem accessError_of_memWrite {v : Word} (h : memWrite w a v s = .raise e t) : accessError s.params w a = some e := by
  unfold memWrite at h
  split at h <;> cases h
  exact (storeValue_eq_error ..).1 ‹_›

/-- An access that raises nothing has a value. -/
theorem valueAt_of_accessError_none (h : accessError s.params w a = none) : ∃ v, valueAt s w a = some v := by
  cases hl : loadValue s w a with
  | error e => rw [(loadValue_eq_error s w a e).1 hl] at h; cases h
  | ok v => exact ⟨v, (loadValue_eq_ok s w a v).1 hl⟩

end

/-! ### The fetch of a step -/

/-- A step whose fetch raises: the fault has no opcode word, and leaves the state as it was but for the emptied trace and the mark. -/
theorem step_of_fetch_raise {s : State} {e : Raise} (hc : wellFormedParams s.params) (hf : s.faulted = none)
    (h : accessError s.params .word s.pc = some e) : step s = .fault (takeFault (e.report none s.pc) { s with trace := [] }) := by
  rw [step_ready hc hf, fetchDecode, fetchWord_raise (s := { s with trace := [] }) h]

end Sys2Proof.Machine

namespace Sys2Proof.Proofs

open Sys2Proof.Machine Sys2Proof.Claims

/-- Settles O9. Values are those of `loadValue` and `storeValue`; every failure is `accessError`'s. -/
theorem wordsAreLittleEndian : Obligations.WordsAreLittleEndian := by
  unfold Obligations.WordsAreLittleEndian
  intro s a v
  refine ⟨fun b hb => ?_, fun lo hi ha hlo hhi => ?_, fun t ht => ?_, fun t u ha ht hu => ?_,
    fun h => memWrite_raise v (accessError_lower (by simp) h), fun ha h => memWrite_raise v (accessError_lower (fun _ => ha) h),
    fun ha h0 h1 => memWrite_raise v (accessError_upper ha h0 h1), fun h => memRead_raise (accessError_lower (by simp) h),
    fun ha h => memRead_raise (accessError_lower (fun _ => ha) h), fun ha h0 h1 => memRead_raise (accessError_upper ha h0 h1)⟩
  · simp [loadValue, hb]
  · simp [loadValue, (isOdd_false_iff a).2 ha, hlo, hhi, wordOfBytes_eq_ofNat]
  · obtain ⟨hm, rfl⟩ := byteWrite_eq_some ht
    simp [storeValue, hm, lowByte_eq_ofNat]
  · obtain ⟨hm, rfl⟩ := byteWrite_eq_some ht
    obtain ⟨hm1, rfl⟩ := byteWrite_eq_some hu
    rw [putByte_params] at hm1
    simp [storeValue, (isOdd_false_iff a).2 ha, hm, hm1, lowByte_eq_ofNat, highByte_eq_ofNat]

/-- Settles O10: `accessError` tests the address of a word before anything else. -/
theorem wordAccessesAreAligned : Obligations.WordAccessesAreAligned := by
  unfold Obligations.WordAccessesAreAligned
  intro s a v
  refine ⟨fun ha => ⟨memRead_raise (accessError_odd ha), memWrite_raise v (accessError_odd ha), fetchWord_raise (accessError_odd ha)⟩,
    fun w t ha => ⟨fun h => ?_, fun h => ?_⟩, fun ha t h => ?_⟩
  · exact accessError_ne_misaligned ha (accessError_of_memRead h)
  · exact accessError_ne_misaligned ha (accessError_of_memWrite h)
  · exact accessError_ne_misaligned (fun _ => ha) (accessError_of_fetchWord h)

/-- Settles O48: the fetch is a word access at PC. -/
theorem fetchFaults : Obligations.FetchFaults := by
  unfold Obligations.FetchFaults
  intro s hc hf
  have faults : ∀ {e : Raise}, accessError s.params .word s.pc = some e →
      step s = .fault (takeFault (e.report none s.pc) { s with trace := [] }) := step_of_fetch_raise hc hf
  have kept : ∀ report (r : Reg), (State.markFaulted { s with trace := [] } report).readReg r = s.readReg r := fun report r => by
    rw [readReg_markFaulted]; cases r <;> rfl
  exact ⟨fun ha => ⟨_, faults (accessError_odd ha), kept _, rfl⟩, fun ha h => ⟨_, faults (accessError_lower (fun _ => ha) h), kept _, rfl⟩,
    fun ha h0 h1 => ⟨_, faults (accessError_upper ha h0 h1), kept _, rfl⟩⟩

end Sys2Proof.Proofs
end

section
/-! Which configurations are refused (20_memory.md R52), and what each class of byte address holds (R53–R56, R63). -/

namespace Sys2Proof.Machine

open Sys2Proof.Claims

/-! ### Well-formed configurations -/

theorem inRam_iff (p : Params) (a : Nat) : inRam p a = true ↔ p.ramBase ≤ a ∧ a < p.ramBase + p.ramSize := by simp [inRam]

theorem inNvm_iff (p : Params) (a : Nat) : inNvm p a = true ↔ p.nvmBase ≤ a ∧ a < p.nvmBase + p.nvmSize := by simp [inNvm]

theorem distinctHandlers_iff (hs : List MmioHandler) : distinctHandlers hs = true ↔ hs.Pairwise fun h k => h.addr ≠ k.addr := by
  induction hs with
  | nil => simp [distinctHandlers]
  | cons h t ih => simp [distinctHandlers, ih, ne_comm]

/-- Two ranges share no address exactly where the lower end does not pass the higher start. -/
theorem ranges_disjoint_iff (a m b n : Nat) :
    min (a + m) (b + n) ≤ max a b ↔ ∀ x, ¬((a ≤ x ∧ x < a + m) ∧ b ≤ x ∧ x < b + n) := by
  constructor
  · intro h x
    omega
  · intro h
    have := h (max a b)
    omega

theorem wellFormedParams_iff (p : Params) : wellFormedParams p = true ↔ MeetsR52 p ∧ OneHandlerEach p := by
  simp only [wellFormedParams, MeetsR52, OneHandlerEach, Bool.and_eq_true, decide_eq_true_eq, List.all_eq_true, Bool.not_eq_true',
    ← Bool.not_eq_true, inRam_iff, inNvm_iff, ranges_disjoint_iff, distinctHandlers_iff, and_assoc]

/-! ### Classes -/

theorem classify_region {p : Params} {a : Nat}
    (h : (p.ramBase ≤ a ∧ a < p.ramBase + p.ramSize) ∨ (p.nvmBase ≤ a ∧ a < p.nvmBase + p.nvmSize)) :
    classify p a = .ram ∨ classify p a = .nvm := by
  rw [← inRam_iff, ← inNvm_iff] at h
  cases hr : inRam p a with
  | true => exact .inl (by simp [classify, hr])
  | false => exact .inr (by simp [classify, hr, h.resolve_left (by simp [hr])])

/-- Outside both regions the handlers decide, and where there is none the policy. -/
theorem classify_outside {p : Params} {a : Nat}
    (h : ¬((p.ramBase ≤ a ∧ a < p.ramBase + p.ramSize) ∨ (p.nvmBase ≤ a ∧ a < p.nvmBase + p.nvmSize))) :
    classify p a =
      match findHandler p a, p.policy with
      | some k, _ => .registered k
      | none, .default => .default
      | none, .fail => .unmapped := by
  rw [← inRam_iff, ← inNvm_iff, not_or] at h
  rw [classify, if_neg h.1, if_neg h.2]
  cases findHandler p a <;> cases p.policy <;> rfl

theorem findHandler_of_mem {p : Params} {h : MmioHandler} (hp : OneHandlerEach p) (hh : h ∈ p.handlers) :
    findHandler p h.addr.toNat = some h := by
  cases hk : findHandler p h.addr.toNat with
  | none => exact absurd (beq_self_eq_true _) (List.find?_eq_none.1 hk h hh)
  | some k =>
    have haddr : k.addr = h.addr := BitVec.eq_of_toNat_eq (by simpa using List.find?_some hk)
    have hsymm : Std.Symm fun h k : MmioHandler => h.addr ≠ k.addr := ⟨fun _ _ => Ne.symm⟩
    by_contra hne
    exact List.Pairwise.forall hp (List.mem_of_find?_eq_some hk) hh (fun hkh => hne (congrArg some hkh)) haddr

theorem findHandler_none {p : Params} {a : Word} (h : ∀ k ∈ p.handlers, k.addr ≠ a) : findHandler p a.toNat = none := by
  rw [findHandler, List.find?_eq_none]
  intro k hk
  simpa [BitVec.toNat_inj] using h k hk

theorem classify_handler {p : Params} {h : MmioHandler} (hc : wellFormedParams p) (hh : h ∈ p.handlers) :
    classify p h.addr.toNat = .registered h := by
  obtain ⟨⟨-, -, -, hout⟩, hone⟩ := (wellFormedParams_iff p).1 hc
  rw [classify_outside (not_or.2 (hout h hh)), findHandler_of_mem hone hh]

/-! ### Cells that hold what is written: RAM, NVM, default cells -/

section
variable {p : Params} {a : Word}

theorem holdsBytes_iff : holdsBytes p a = true ↔ classify p a.toNat = .ram ∨ classify p a.toNat = .nvm ∨ classify p a.toNat = .default := by
  unfold holdsBytes
  cases classify p a.toNat <;> simp

theorem isMapped_of_holdsBytes (h : holdsBytes p a) : isMapped p a = true := by
  rcases holdsBytes_iff.1 h with h | h | h <;> simp [isMapped, h]

theorem readThrough_of_holdsBytes (h : holdsBytes p a) (b : Byte) : readThrough p a.toNat b = b := by
  rcases holdsBytes_iff.1 h with h | h | h <;> simp [readThrough, h]

theorem writeThrough_of_holdsBytes (h : holdsBytes p a) (b : Byte) : writeThrough p a.toNat b = b := by
  rcases holdsBytes_iff.1 h with h | h | h <;> simp [writeThrough, h]

theorem readBack_of_holdsBytes (h : holdsBytes p a) (b : Byte) : readBack p a b = b := by
  rw [readBack, writeThrough_of_holdsBytes h, readThrough_of_holdsBytes h]

end

/-! ### Byte accesses -/

section
variable {s : State} {a : Word}

theorem byteWrite_mapped (h : isMapped s.params a = true) (b : Byte) : byteWrite s a b = some (s.putByte a b) := if_pos h

theorem byteWrite_unmapped (h : isMapped s.params a = false) (b : Byte) : byteWrite s a b = none := by simp [byteWrite, h]

theorem byteRead_of_holdsBytes (h : holdsBytes s.params a) : byteRead s a = some (s.storedByte a) := by
  rw [byteRead, if_pos (isMapped_of_holdsBytes h), readThrough_of_holdsBytes h]

/-- A write to a mapped byte stores what its cell makes of the incoming byte. -/
theorem byteWrite_stores (h : isMapped s.params a = true) (b : Byte) :
    ∃ t, byteWrite s a b = some t ∧ t.storedByte a = writeThrough s.params a.toNat b :=
  ⟨_, byteWrite_mapped h b, by rw [storedByte_putByte, if_pos rfl]⟩

theorem byteWrite_of_holdsBytes (h : holdsBytes s.params a) (b : Byte) : ∃ t, byteWrite s a b = some t ∧ t.storedByte a = b := by
  have := byteWrite_stores (isMapped_of_holdsBytes h) b
  rwa [writeThrough_of_holdsBytes h] at this

theorem storedByte_unlisted (h : lookupCell a.toNat s.mem = none) : s.storedByte a = initialByte s.params a.toNat := by
  rw [State.storedByte, h, Option.getD_none]

end

/-- A byte write changes memory alone. -/
theorem putByte_frame (s : State) (a : Word) (b : Byte) : { s.putByte a b with mem := s.mem } = s := rfl

/-! ### A value read back -/

theorem canStore_of_memWrite {s t : State} {w : Width} {a v : Word} (h : memWrite w a v s = .ok () t) : canStore s w a = true := by
  by_contra hc
  obtain ⟨e, he⟩ := memWrite_not v (Bool.not_eq_true _ ▸ hc)
  rw [he] at h
  cases h

/-- What a store that was performed leaves. -/
theorem stored_of_memWrite {s t : State} {w : Width} {a v : Word} (h : memWrite w a v s = .ok () t) : Stored s t w a v := by
  obtain ⟨u, hu, hs⟩ := memWrite_ok v (canStore_of_memWrite h)
  rw [hu] at h
  cases h
  exact hs

theorem byteAfter_outside {s : State} {w : Width} {a k : Word} (v : Word) (h : outside w a k) :
    byteAfter s w (some a) v k = byteRead s k := by
  obtain ⟨h0, h1⟩ := h
  rw [byteAfter, if_neg h0, if_neg fun hk => h1 hk.1 hk.2]

theorem add_one_ne (a : Word) : a + 1#16 ≠ a := by
  intro h
  simpa using congrArg (· - a) h

/-- Memory that holds bytes gives back the value stored, cut to the width. -/
theorem valueAt_of_stored {s t : State} {w : Width} {a v : Word} (hc : canStore s w a) (hs : Stored s t w a v)
    (h0 : holdsBytes s.params a) (h1 : w = .word → holdsBytes s.params (a + 1#16)) : valueAt t w a = some (trunc w v) := by
  have hlow : byteRead t a = some (lowByte v) := by rw [hs.bytes, byteAfter, if_pos rfl, readBack_of_holdsBytes h0]
  cases w with
  | byte =>
    rw [valueAt, hlow, trunc_eq_ofNat, lowByte_eq_ofNat]
    exact congrArg some (BitVec.eq_of_toNat_eq (by simp [size]))
  | word =>
    have hhigh : byteRead t (a + 1#16) = some (highByte v) := by
      rw [hs.bytes, byteAfter, if_neg (add_one_ne a), if_pos ⟨rfl, rfl⟩, readBack_of_holdsBytes (h1 rfl)]
    simp [valueAt, wordAt, isOdd_false_of_canStore_word hc, hlow, hhigh, wordOfBytes_bytes]

end Sys2Proof.Machine

namespace Sys2Proof.Proofs

open Sys2Proof.Machine Sys2Proof.Claims

/-- Settles O8, by the class of the address. -/
theorem byteAccessByClass : Obligations.ByteAccessByClass := by
  unfold Obligations.ByteAccessByClass
  intro s a hc inside
  refine ⟨fun hin => ?_, fun h hh ha => ?_, fun hout hnone hp => ?_, fun hout hnone hp => ?_, fun b t ht => ?_⟩
  · have hb : holdsBytes s.params a := holdsBytes_iff.2 ((classify_region hin).imp id .inl)
    exact ⟨byteRead_of_holdsBytes hb, byteWrite_of_holdsBytes hb⟩
  · subst ha
    have hk := classify_handler hc hh
    have hm : isMapped s.params h.addr = true := by simp [isMapped, hk]
    refine ⟨?_, fun b => ?_, fun hl => ?_⟩
    · rw [byteRead, if_pos hm, readThrough, hk]
    · have hw := byteWrite_stores hm b
      rwa [writeThrough, hk] at hw
    · rw [storedByte_unlisted hl, initialByte, hk]
  · have hk : classify s.params a.toNat = .default := by rw [classify_outside hout, findHandler_none hnone, hp]
    have hb : holdsBytes s.params a := holdsBytes_iff.2 (.inr (.inr hk))
    exact ⟨byteRead_of_holdsBytes hb, byteWrite_of_holdsBytes hb, fun hl => by rw [storedByte_unlisted hl, initialByte, hk]⟩
  · have hm : isMapped s.params a = false := by
      rw [isMapped, classify_outside hout, findHandler_none hnone, hp]; rfl
    have he : accessError s.params .byte a = some (.memFail a) := accessError_lower (by simp) hm
    exact ⟨if_neg (by simp [hm]), byteWrite_unmapped hm, memRead_raise he, fun v => memWrite_raise v he⟩
  · obtain ⟨-, rfl⟩ := byteWrite_eq_some ht
    exact ⟨fun k hk => by rw [storedByte_putByte, if_neg hk], putByte_frame s a b⟩

/-- Settles O11, from what a performed store leaves. -/
theorem readAfterWrite : Obligations.ReadAfterWrite := by
  unfold Obligations.ReadAfterWrite
  intro s t w a v h
  have hs := stored_of_memWrite h
  refine ⟨fun h0 h1 => ?_, fun k hk => ?_, hs.wf, hs.regs⟩
  · rw [valueAt_of_stored (canStore_of_memWrite h) hs h0 h1, trunc_eq_ofNat]
  · rw [hs.bytes, byteAfter_outside v hk]

end Sys2Proof.Proofs
end

section
/-! Memory as the host writes and reads it (20_memory.md R72), and what a configuration that is refused leaves the host (R52; log entry 15). -/

namespace Sys2Proof.Machine

open Sys2Proof.Claims

/-! ### Writing and reading bytes -/

theorem params_of_frame {s t : State} (h : { t with mem := s.mem } = s) : t.params = s.params := by
  rw [← h]

/-- Bytes written to memory that holds bytes, below the end of the address space: they are read back, every other byte is as before, and memory alone
changes. -/
theorem writeBytes_ok {bytes : List Byte} {n : Nat} {s : State} (hn : n + bytes.length ≤ 0x10000)
    (hb : ∀ k, k < bytes.length → holdsBytes s.params (BitVec.ofNat 16 (n + k))) :
    ∃ t, writeBytes n bytes s = .done () t ∧ readBytes t n bytes.length = .ok bytes ∧
      (∀ k : Word, k.toNat < n ∨ n + bytes.length ≤ k.toNat → byteRead t k = byteRead s k) ∧ { t with mem := s.mem } = s := by
  induction bytes generalizing n s with
  | nil => exact ⟨s, rfl, rfl, fun _ _ => rfl, rfl⟩
  | cons b rest ih =>
    simp only [List.length_cons] at hn hb ⊢
    have h0 : holdsBytes s.params (BitVec.ofNat 16 n) := hb 0 (Nat.succ_pos _)
    have hm := isMapped_of_holdsBytes h0
    obtain ⟨t, ht, hread, hkeep, hframe⟩ := ih (n := n + 1) (s := s.putByte (BitVec.ofNat 16 n) b) (by omega) fun k hk => by
      rw [putByte_params, Nat.add_right_comm, Nat.add_assoc]
      exact hb (k + 1) (by omega)
    have haddr : (BitVec.ofNat 16 n).toNat = n := by
      rw [BitVec.toNat_ofNat]
      omega
    have hfirst : byteRead t (BitVec.ofNat 16 n) = some b := by
      rw [hkeep _ (.inl (by omega)), byteRead_putByte, if_pos rfl, if_pos hm, readBack_of_holdsBytes h0]
    refine ⟨t, ?_, ?_, fun k hk => ?_, congrArg (fun u => { u with mem := s.mem }) hframe⟩
    · rw [writeBytes, byteWrite_mapped hm]
      exact ht
    · rw [readBytes, hfirst, hread]; rfl
    · rw [hkeep k (by omega), byteRead_putByte, if_neg]
      rintro rfl
      omega

/-! ### The host's operations -/

section
variable {s : State} {a : Word} (hc : wellFormedParams s.params)
include hc

theorem hostWriteMemory_inside {bytes : List Byte} (h : a.toNat + bytes.length ≤ 0x10000) :
    hostWriteMemory a bytes s = writeBytes a.toNat bytes s := by
  rw [hostWriteMemory, whenConfigured_ok hc, if_pos h]

theorem hostWriteMemory_outside {bytes : List Byte} (h : 0x10000 < a.toNat + bytes.length) : hostWriteMemory a bytes s = .refused := by
  rw [hostWriteMemory, whenConfigured_ok hc, if_neg (Nat.not_le.2 h)]

theorem hostReadMemory_inside {len : Nat} {bytes : List Byte} (h : a.toNat + len ≤ 0x10000) (hr : readBytes s a.toNat len = .ok bytes) :
    hostReadMemory a len s = .done bytes s := by
  rw [hostReadMemory, whenConfigured_ok hc, if_pos h, hr]

theorem hostReadMemory_outside {len : Nat} (h : 0x10000 < a.toNat + len) : hostReadMemory a len s = .refused := by
  rw [hostReadMemory, whenConfigured_ok hc, if_neg (Nat.not_le.2 h)]

end

/-! ### Refusals -/

theorem runJump_finishes (i : Instr) (cond : Word → Bool) (offset : BitVec 10) (s : State) :
    ∃ r, runJump i cond offset s = finishStep i s.pc r := ⟨_, by rw [runJump]⟩

theorem runStub_finishes (i : Instr) (s : State) : ∃ r, runStub i s = finishStep i s.pc r := ⟨_, by rw [runStub]⟩

/-- Every instruction ends its step: with a next state or with a fault. -/
theorem exec_finishes (i : Instr) (s : State) : ∃ r, exec i s = finishStep i s.pc r := by
  cases i with
  | jne off | jeq off | jnc off | jc off | jn off | jge off | jl off | jmp off => exact runJump_finishes _ _ off s
  | ext x | pushmA x | pushmW x | popmA x | popmW x => exact runStub_finishes _ s
  | rrcm n aw r | rram n aw r | rlam n aw r | rrum n aw r => exact runStub_finishes _ s
  | _ => exact ⟨_, rfl⟩

theorem exec_ne_refused (i : Instr) (s : State) (r : Refusal) : exec i s ≠ .refused r := by
  obtain ⟨res, h⟩ := exec_finishes i s
  rw [h]
  cases res <;> exact nofun

theorem step_bad {s : State} (h : wellFormedParams s.params = false) : step s = .refused .badConfiguration := by simp [step, h]

theorem step_ne_refused {s : State} (hc : wellFormedParams s.params) (r : Refusal) : step s ≠ .refused r := by
  cases hf : s.faulted with
  | some report => rw [step_faulted hc hf]; exact nofun
  | none =>
    rw [step_ready hc hf]
    cases fetchDecode s with
    | halted t => exact nofun
    | stopped f => exact nofun
    | instr i => exact exec_ne_refused i s r

theorem step_refused_iff (s : State) : (∃ r, step s = .refused r) ↔ wellFormedParams s.params = false := by
  constructor
  · rintro ⟨r, h⟩
    by_contra hc
    exact step_ne_refused (Bool.not_eq_false _ ▸ hc) r h
  · exact fun h => ⟨_, step_bad h⟩

end Sys2Proof.Machine

namespace Sys2Proof.Proofs

open Sys2Proof.Machine Sys2Proof.Claims

/-- Settles O51. R52's conditions are `wellFormedParams`' own, read as statements about addresses; `step` and every operation of the host test
it first. -/
theorem onlyBadConfigurationsAreRefused : Obligations.OnlyBadConfigurationsAreRefused := by
  unfold Obligations.OnlyBadConfigurationsAreRefused
  refine ⟨wellFormedParams_iff, step_refused_iff, exec_ne_refused, fun s h => ?_⟩
  exact ⟨hostStep_of_refused (step_bad h), fun budget => by simp [hostRun, h], whenConfigured_bad h _, fun _ => whenConfigured_bad h _,
    whenConfigured_bad h _, fun _ _ => whenConfigured_bad h _, fun _ _ => whenConfigured_bad h _, fun _ _ => whenConfigured_bad h _,
    fun _ _ _ => whenConfigured_bad h _, fun _ => whenConfigured_bad h _⟩

/-- Settles O60: inside the address space the host's operations are `writeBytes` and `readBytes`. -/
theorem hostMemory : Obligations.HostMemory := by
  unfold Obligations.HostMemory
  intro s a bytes hc
  refine ⟨fun h => ⟨hostWriteMemory_outside hc h, hostReadMemory_outside hc h⟩, fun h hb => ?_⟩
  obtain ⟨t, ht, hread, hkeep, hframe⟩ := writeBytes_ok h hb
  have hct : wellFormedParams t.params := by rwa [params_of_frame hframe]
  exact ⟨t, (hostWriteMemory_inside hc h).trans ht, hostReadMemory_inside hct h hread, hkeep, hframe⟩

end Sys2Proof.Proofs
end

section
/-! Where an access of an instruction raises: at the source's extension word or the source in memory, at the destination's extension word or the
destination in memory, at the slot of PUSH and CALL, at the two words of RETI (60_exceptions.md R244, R249, R250). -/

namespace Sys2Proof.Machine

open Sys2Proof.Claims

/-! ### The source -/

/-- The source routine of a step raises before it changes a register or memory. -/
def SourceStops (ctx : Ctx) (src : Src) (s : State) (e : Raise) : Prop :=
  ∀ i, ∃ t, readSource ctx src (s.pc + 2#16) (startStep i s) = .raise e t ∧ (∀ r, t.readReg r = s.readReg r) ∧ t.mem = s.mem

theorem srcAddr_startStep (i : Instr) (ctx : Ctx) (s : State) (src : Src) : srcAddr ctx (startStep i s) src = srcAddr ctx s src := by
  cases src <;> rfl

theorem sourceAt_raise {ctx : Ctx} {ea c : Word} {s : State} {e : Raise} (h : accessError s.params ctx.width ea = some e) :
    sourceAt ctx ea c s = .raise e s := by
  rw [sourceAt, memRead_raise h, andThen_raise]

theorem readSource_ext_raise {ctx : Ctx} {src : Src} {c : Word} {s : State} {e : Raise} (hx : src.extWords = 1)
    (h : accessError s.params .word c = some e) : readSource ctx src c s = .raise e s := by
  cases src with
  | idx r | sym | abs | imm => simp only [readSource, fetchWord_raise h, andThen_raise]
  | reg r | ind r | inc r | cg0 | cg1 | cg2 | cgm1 | cg4 | cg8 => cases hx

/-- A source in memory whose access raises: the trace alone has changed. -/
theorem readSource_access_raise {ctx : Ctx} {src : Src} {s : State} {ea : Word} {e : Raise} (ha : srcAddr ctx s src = some ea)
    (h : accessError s.params ctx.width ea = some e) :
    ∃ t, readSource ctx src (srcExtAddr s) s = .raise e t ∧ (∀ r, t.readReg r = s.readReg r) ∧ t.mem = s.mem := by
  cases src with
  | idx r =>
    simp only [srcAddr, Option.map_eq_some_iff] at ha
    obtain ⟨x, hx, rfl⟩ := ha
    have hb : indexBase ctx (s.note (.fetch (srcExtAddr s) x)) r = indexBase ctx s r := by simp [indexBase]
    refine ⟨(s.note (.fetch (srcExtAddr s) x)).note (.regRead r (s.readReg r)), ?_, fun q => by simp, rfl⟩
    simp only [readSource, fetchWord_ok hx, andThen_ok, hb, readReg_note]
    exact sourceAt_raise h
  | sym =>
    simp only [srcAddr, Option.map_eq_some_iff] at ha
    obtain ⟨x, hx, rfl⟩ := ha
    refine ⟨s.note (.fetch (srcExtAddr s) x), ?_, fun q => by simp, rfl⟩
    simp only [readSource, fetchWord_ok hx, andThen_ok]
    exact sourceAt_raise h
  | abs =>
    refine ⟨s.note (.fetch (srcExtAddr s) ea), ?_, fun q => by simp, rfl⟩
    simp only [readSource, fetchWord_ok ha, andThen_ok]
    exact sourceAt_raise h
  | ind r =>
    simp only [srcAddr, Option.ite_none_left_eq_some, Option.some.injEq] at ha
    obtain ⟨hr, rfl⟩ := ha
    refine ⟨s.note (.regRead r (s.readReg r)), ?_, fun q => by simp, rfl⟩
    simp only [readSource, if_neg hr]
    exact sourceAt_raise h
  | inc r =>
    cases ha
    refine ⟨s.note (.regRead r (s.readReg r)), ?_, fun q => by simp, rfl⟩
    rw [readSource, sourceAt_raise (s := s.note _) h, andThen_raise]
  | reg r | imm | cg0 | cg1 | cg2 | cgm1 | cg4 | cg8 => cases ha

theorem sourceStops_of_ext {ctx : Ctx} {src : Src} {s : State} {e : Raise} (hx : src.extWords = 1)
    (h : accessError s.params .word (s.pc + 2#16) = some e) : SourceStops ctx src s e :=
  fun i => ⟨startStep i s, readSource_ext_raise hx h, readReg_startStep s i, rfl⟩

theorem sourceStops_of_access {ctx : Ctx} {src : Src} {s : State} {ea : Word} {e : Raise} (ha : srcAddr ctx s src = some ea)
    (h : accessError s.params ctx.width ea = some e) : SourceStops ctx src s e := by
  intro i
  obtain ⟨t, ht, hregs, hmem⟩ := readSource_access_raise ((srcAddr_startStep i ctx s src).trans ha) h
  exact ⟨t, ht, fun r => (hregs r).trans (readReg_startStep s i r), hmem⟩

/-- Only a source that names its operand in memory has an address. -/
theorem hasNoLocation_of_srcAddr {ctx : Ctx} {src : Src} {s : State} {ea : Word} (h : srcAddr ctx s src = some ea) :
    hasNoLocation src = false := by
  cases src with
  | idx r | sym | abs | ind r | inc r => rfl
  | reg r | imm | cg0 | cg1 | cg2 | cgm1 | cg4 | cg8 => cases h

theorem hasNoLocation_of_ext {src : Src} (hx : src.extWords = 1) (hi : src ≠ .imm) : hasNoLocation src = false := by
  cases src with
  | idx r | sym | abs => rfl
  | imm => exact absurd rfl hi
  | reg r | ind r | inc r | cg0 | cg1 | cg2 | cgm1 | cg4 | cg8 => cases hx

/-! ### The destination -/

theorem destLoc_ext_raise {dst : Dst} {c : Word} {s : State} {e : Raise} (hx : dst.extWords = 1) (hcg : dst ≠ .idx .cg)
    (h : accessError s.params .word c = some e) : destLoc dst c s = .raise e s := by
  cases dst with
  | reg r => cases hx
  | idx r =>
    have hr : r ≠ .cg := fun hr => hcg (congrArg Dst.idx hr)
    simp only [destLoc, if_neg hr, fetchWord_raise h, andThen_raise]
  | sym | abs => simp only [destLoc, fetchWord_raise h, andThen_raise]

/-! ### The courses of the families -/

section
variable {i : Instr} {w : Width} {src : Src} {dst : Dst} {s : State} {a ea : Word} {e : Raise}

theorem allFmt1_stops_of_source (hi : i ∈ allFmt1 w src dst) (h : SourceStops (fmt1Ctx s w src dst) src s e) : StopsWith i s e s.readReg := by
  obtain ⟨m, use, alu, hrun, -⟩ := allFmt1_runs hi
  obtain ⟨t, ht, hregs, hmem⟩ := h i
  refine stopsWith_of_raise (t := t) ?_ hregs hmem
  rw [hrun]
  simp only [runFmt1, ht, andThen_raise]

theorem rmwOf_stops_of_source (hi : i ∈ rmwOf w src) (hn : hasNoLocation src = false) (h : SourceStops (fmt2Ctx s w src false) src s e) :
    StopsWith i s e s.readReg := by
  obtain ⟨m, alu, hrun⟩ := rmwOf_runs hi
  obtain ⟨t, ht, hregs, hmem⟩ := h i
  refine stopsWith_of_raise (t := t) ?_ hregs hmem
  rw [hrun]
  simp only [runRmw, hn, Bool.false_eq_true, ↓reduceIte, ht, andThen_raise]

/-- PUSH and CALL: the source, then the push of the operand or of the return address, then the rest. -/
theorem stackOf_runs (hi : i ∈ stackOf w src) (s : State) : ∃ (pushed : SrcOut → Word) (rest : SrcOut → State → Res Bool),
    exec i s = finishStep i s.pc ((readSource (fmt2Ctx s w src true) src (s.pc + 2#16) (startStep i s)).andThen fun a s1 =>
      (pushValue w (pushed a) s1).andThen fun _ s2 => rest a s2) := by
  cases w <;> simp only [stackOf, List.mem_cons, List.not_mem_nil, or_false] at hi
  · subst hi; exact ⟨SrcOut.value, _, rfl⟩
  · rcases hi with rfl | rfl
    · exact ⟨SrcOut.value, _, rfl⟩
    · exact ⟨fun _ => (fmt2Ctx s .word src true).pcNext, _, rfl⟩

theorem stackOf_stops_of_source (hi : i ∈ stackOf w src) (h : SourceStops (fmt2Ctx s w src true) src s e) : StopsWith i s e s.readReg := by
  obtain ⟨pushed, rest, hrun⟩ := stackOf_runs hi s
  obtain ⟨t, ht, hregs, hmem⟩ := h i
  refine stopsWith_of_raise (t := t) ?_ hregs hmem
  rw [hrun, ht, andThen_raise]

theorem allFmt1_stops_at_dst_ext (hi : i ∈ allFmt1 w src dst) (hwf : src.wellFormed) (ha : srcValue (fmt1Ctx s w src dst) s src = some a)
    (hx : dst.extWords = 1) (hcg : dst ≠ .idx .cg) (h : accessError s.params .word (dstExtAddr s src) = some e) :
    StopsWith i s e (regAfterSrc (fmt1Ctx s w src dst) s src) := by
  obtain ⟨m, use, alu, hrun, -⟩ := allFmt1_runs hi
  obtain ⟨s1, h1, q1, r1⟩ := readSource_start_ok i hwf ha
  have h2 : destLoc dst (dstExtAddr s src) s1 = .raise e s1 := destLoc_ext_raise hx hcg (by rw [q1.params, startStep_params]; exact h)
  refine stopsWith_of_raise ?_ r1 q1.mem
  rw [hrun]
  simp only [runFmt1]
  rw [h1, andThen_ok, h2, andThen_raise]

/-- A destination in memory whose access raises: MOV meets it at the store, every other fmt1 instruction at the read. -/
theorem allFmt1_stops_at_dst_access (hi : i ∈ allFmt1 w src dst) (hwf : src.wellFormed)
    (ha : srcValue (fmt1Ctx s w src dst) s src = some a) (hl : dstLoc (fmt1Ctx s w src dst) s src dst = some (.mem ea))
    (h : accessError s.params w ea = some e) : StopsWith i s e (regAfterSrc (fmt1Ctx s w src dst) s src) := by
  obtain ⟨m, use, alu, hrun, -⟩ := allFmt1_runs hi
  have hread : ∀ u : State, u.params = s.params → memRead w ea u = .raise e u := fun u hp => memRead_raise (hp ▸ h)
  cases use with
  | write =>
    refine runFmt1_stops_at_write (hrun s) hwf ha hl (b := 0#16) rfl fun u hp => ?_
    rw [destWrite, writeLoc, memWrite_raise _ (hp ▸ h), andThen_raise]
  | readWrite => exact runFmt1_stops_at_read (hrun s) hwf ha hl fun u hp _ => hread u hp
  | read => exact runFmt1_stops_at_read (hrun s) hwf ha hl fun u hp _ => hread u hp

/-- A push whose slot cannot be stored to has moved SP. -/
theorem pushValue_raise (v : Word) (ho : isOdd (s.sp - 2#16) = false) (h : accessError s.params w (s.sp - 2#16) = some e) :
    ∃ t, pushValue w v s = .raise e t ∧ (∀ r, t.readReg r = if r = .sp then s.sp - 2#16 else s.readReg r) ∧ t.mem = s.mem := by
  refine ⟨writeReg .sp (s.sp - 2#16) (s.note (.regRead .sp s.sp)), ?_, fun r => ?_, rfl⟩
  · rw [pushValue, writeSp_even ho, andThen_ok]
    exact memWrite_raise v h
  · simp [readReg_writeReg]

/-- PUSH and CALL suppress the increment of SP (40_pipeline.md R136). -/
theorem regAfterSrc_stack_sp : regAfterSrc (fmt2Ctx s w src true) s src .sp = s.sp := by
  simp [regAfterSrc, incSuppressed, fmt2Ctx]

theorem stackOf_stops_at_slot (hi : i ∈ stackOf w src) (hwf : src.wellFormed) (ha : srcValue (fmt2Ctx s w src true) s src = some a)
    (ho : s.sp.toNat % 2 = 0) (h : accessError s.params w (s.sp - 2#16) = some e) :
    StopsWith i s e fun r => if r = .sp then s.sp - 2#16 else regAfterSrc (fmt2Ctx s w src true) s src r := by
  obtain ⟨pushed, rest, hrun⟩ := stackOf_runs hi s
  obtain ⟨s1, h1, q1, r1⟩ := readSource_start_ok i hwf ha
  have hsp : s1.sp = s.sp := (r1 .sp).trans regAfterSrc_stack_sp
  have heven : isOdd (s.sp - 2#16) = false := by
    rw [isOdd_false_iff]
    bv_omega
  obtain ⟨t, ht, hregs, hmem⟩ := pushValue_raise (s := s1) (pushed ⟨a, srcLoc (fmt2Ctx s w src true) s src, dstExtAddr s src⟩)
    (hsp ▸ heven) (by rw [hsp, q1.params, startStep_params]; exact h)
  refine stopsWith_of_raise (t := t) ?_ (fun r => by rw [hregs, hsp, r1]) (hmem.trans q1.mem)
  rw [hrun, h1, andThen_ok, ht, andThen_raise]

theorem reti_stops_at_sr (h : accessError s.params .word s.sp = some e) : StopsWith .reti s e s.readReg := by
  let s0 := (startStep .reti s).note (.regRead .sp s.sp)
  refine stopsWith_of_raise (t := s0) ?_ (fun r => by simp [s0]) rfl
  show execReti s = _
  simp only [execReti]
  rw [memRead_raise (s := s0) h, andThen_raise]

theorem reti_stops_at_pc (h0 : accessError s.params .word s.sp = none) (h1 : accessError s.params .word (s.sp + 2#16) = some e) :
    StopsWith .reti s e s.readReg := by
  obtain ⟨srv, hv⟩ := valueAt_of_accessError_none h0
  let s0 := (startStep .reti s).note (.regRead .sp s.sp)
  let s1 := s0.note (.memRead s.sp .word srv)
  refine stopsWith_of_raise (t := s1) ?_ (fun r => by simp [s1, s0]) rfl
  show execReti s = _
  simp only [execReti]
  rw [memRead_ok (s := s0) (w := .word) (v := srv) hv, andThen_ok, memRead_raise (s := s1) h1, andThen_raise]

end

end Sys2Proof.Machine

namespace Sys2Proof.Proofs

open Sys2Proof.Machine Sys2Proof.Claims

/-- Settles O43, by the access that raises: in each place the routine before it has completed, and the raise ends the course of the family. -/
theorem failedAccessesStop : Obligations.FailedAccessesStop := by
  unfold Obligations.FailedAccessesStop
  intro w src dst s e hwf
  refine ⟨fun hx h => ⟨fun i hi => ?_, fun himm i hi => ?_⟩, fun ea h => ⟨fun ha i hi => ?_, fun ha i hi => ?_, fun ha i hi => ?_⟩,
    fun a ha => ⟨fun hx hcg h i hi => ?_, fun ea hl h i hi => ?_⟩, fun a ha ho h i hi => ?_, reti_stops_at_sr, reti_stops_at_pc⟩
  · rcases List.mem_append.1 hi with hi | hi
    · exact allFmt1_stops_of_source hi (sourceStops_of_ext hx h)
    · exact stackOf_stops_of_source hi (sourceStops_of_ext hx h)
  · exact rmwOf_stops_of_source hi (hasNoLocation_of_ext hx himm) (sourceStops_of_ext hx h)
  · exact allFmt1_stops_of_source hi (sourceStops_of_access ha h)
  · exact rmwOf_stops_of_source hi (hasNoLocation_of_srcAddr ha) (sourceStops_of_access ha h)
  · exact stackOf_stops_of_source hi (sourceStops_of_access ha h)
  · exact allFmt1_stops_at_dst_ext hi hwf ha hx hcg h
  · exact allFmt1_stops_at_dst_access hi hwf ha hl h
  · exact stackOf_stops_at_slot hi hwf ha ho h

end Sys2Proof.Proofs
end

section
/-! What an opcode word says, once (`Says`, one clause per class of word), and from it the round trip of decode and encode, the words that match
nothing, and the step at an encoded instruction (30_encoding.md R82–R92, R101, R104, R105). -/

namespace Sys2Proof

/-- The fmt1 instruction of an opcode (30_encoding.md R85). -/
def fmt1Of (opcode : Nat) (bw : Width) (src : Src) (dst : Dst) : Instr :=
  match opcode with
  | 4 => .mov bw src dst
  | 5 => .add bw src dst
  | 6 => .addc bw src dst
  | 7 => .subc bw src dst
  | 8 => .sub bw src dst
  | 9 => .cmp bw src dst
  | 10 => .dadd bw src dst
  | 11 => .bit bw src dst
  | 12 => .bic bw src dst
  | 13 => .bis bw src dst
  | 14 => .xor bw src dst
  | _ => .and bw src dst

/-- The fmt2 instruction with an operand of an opcode (R86). -/
def fmt2Of (opcode : Nat) (bw : Width) (src : Src) : Instr :=
  match opcode with
  | 0 => .rrc bw src
  | 1 => .swpb src
  | 2 => .rra bw src
  | 3 => .sxt src
  | 4 => .push bw src
  | _ => .call src

/-- The jump of a condition (R87). -/
def jumpOf (cond : Nat) (off : BitVec 10) : Instr :=
  match cond with
  | 0 => .jne off
  | 1 => .jeq off
  | 2 => .jnc off
  | 3 => .jc off
  | 4 => .jn off
  | 5 => .jge off
  | 6 => .jl off
  | _ => .jmp off

/-- PUSHM or POPM by bits 9:8 (44_unsupported.md R232, R233). -/
def multipleOf (kk : Nat) (x : BitVec 8) : Instr :=
  match kk with
  | 0 => .pushmA x
  | 1 => .pushmW x
  | 2 => .popmA x
  | _ => .popmW x

/-- The rotate-multiple stub of `kk` (44_unsupported.md R234). -/
def rotateOf (kk : Nat) (n : BitVec 2) (aw : BitVec 1) (r : BitVec 4) : Instr :=
  match kk with
  | 0 => .rrcm n aw r
  | 1 => .rram n aw r
  | 2 => .rlam n aw r
  | _ => .rrum n aw r

/-- What an opcode word says, by the class that its leading bits name: the word's fields, and what they decode to. -/
inductive Says (w : Word) : Decoded → Prop
  | fmt1 (h : 4 ≤ bits w 15 12) :
      Says w (.instr (fmt1Of (bits w 15 12) (Width.ofBw (bits w 6 6)) (Src.ofFields (bits w 5 4) (bits w 11 8)) (Dst.ofFields (bits w 7 7) (bits w 3 0))))
  | jump (h : bits w 15 13 = 1) : Says w (.instr (jumpOf (bits w 12 10) (BitVec.ofNat 10 (bits w 9 0))))
  | ext (h : bits w 15 11 = 3) : Says w (.instr (.ext (BitVec.ofNat 11 (bits w 10 0))))
  | multiple (h : bits w 15 10 = 5) : Says w (.instr (multipleOf (bits w 9 8) (BitVec.ofNat 8 (bits w 7 0))))
  | fmt2 (h : bits w 15 10 = 4) (ho : bits w 9 7 < 6) (hb : bits w 9 7 % 2 = 0 ∨ bits w 6 6 = 0) :
      Says w (.instr (fmt2Of (bits w 9 7) (Width.ofBw (bits w 6 6)) (Src.ofFields (bits w 5 4) (bits w 3 0))))
  | byteForm (h : bits w 15 10 = 4) (ho : bits w 9 7 < 6) (hb : bits w 9 7 % 2 = 1 ∧ bits w 6 6 = 1) : Says w (.noMatch .byteForm)
  | reti (h : w = 0x1300#16) : Says w (.instr .reti)
  | retiSpace (h : bits w 15 10 = 4) (ho : 6 ≤ bits w 9 7) (hn : w ≠ 0x1300#16) : Says w (.noMatch .retiSpace)
  | rotate (h : bits w 15 12 = 0) (h5 : bits w 7 5 = 2) :
      Says w (.instr (rotateOf (bits w 9 8) (BitVec.ofNat 2 (bits w 11 10)) (BitVec.ofNat 1 (bits w 4 4)) (BitVec.ofNat 4 (bits w 3 0))))
  | lowSpace (h : bits w 15 12 = 0) (h5 : bits w 7 5 ≠ 2) : Says w (.noMatch .lowSpace)

theorem decodeFmt1_eq (w : Word) :
    decodeFmt1 w = fmt1Of (bits w 15 12) (Width.ofBw (bits w 6 6)) (Src.ofFields (bits w 5 4) (bits w 11 8))
      (Dst.ofFields (bits w 7 7) (bits w 3 0)) := rfl

theorem decodeJump_eq (w : Word) : decodeJump w = jumpOf (bits w 12 10) (BitVec.ofNat 10 (bits w 9 0)) := rfl

theorem decodeMultiple_eq (w : Word) : decodeMultiple w = multipleOf (bits w 9 8) (BitVec.ofNat 8 (bits w 7 0)) := rfl

theorem decodeRotate_eq (w : Word) : decodeRotate w = if bits w 7 5 = 2 then
    .instr (rotateOf (bits w 9 8) (BitVec.ofNat 2 (bits w 11 10)) (BitVec.ofNat 1 (bits w 4 4)) (BitVec.ofNat 4 (bits w 3 0)))
    else .noMatch .lowSpace := by
  unfold decodeRotate rotateOf; split
  · split <;> simp [*]
  · rfl

theorem says_total (w : Word) : ∃ d, Says w d := by
  have hlt := w.isLt
  have hclass : 4 ≤ bits w 15 12 ∨ bits w 15 13 = 1 ∨ bits w 15 11 = 3 ∨ bits w 15 10 = 5 ∨ bits w 15 10 = 4 ∨ bits w 15 12 = 0 := by
    simp only [bits]; omega
  rcases hclass with h | h | h | h | h | h
  · exact ⟨_, .fmt1 h⟩
  · exact ⟨_, .jump h⟩
  · exact ⟨_, .ext h⟩
  · exact ⟨_, .multiple h⟩
  · by_cases ho : bits w 9 7 < 6
    · by_cases hb : bits w 9 7 % 2 = 0 ∨ bits w 6 6 = 0
      · exact ⟨_, .fmt2 h ho hb⟩
      · have := bits_lt w 6 6
        exact ⟨_, .byteForm h ho (by omega)⟩
    · by_cases hw : w = 0x1300#16
      · exact ⟨_, .reti hw⟩
      · exact ⟨_, .retiSpace h (by omega) hw⟩
  · by_cases h5 : bits w 7 5 = 2
    · exact ⟨_, .rotate h h5⟩
    · exact ⟨_, .lowSpace h h5⟩

theorem decodeWord_low {w : Word} (h : bits w 15 12 = 0) : decodeWord w = decodeRotate w := by
  simp [decodeWord, h]

theorem decodeWord_fmt2 {w : Word} (h : bits w 15 10 = 4) : decodeWord w = decodeFmt2 w := by
  have h12 : bits w 15 12 = 1 := by simp only [bits] at *; omega
  have h11 : bits w 11 11 ≠ 1 := by simp only [bits] at *; omega
  have h10 : bits w 10 10 ≠ 1 := by simp only [bits] at *; omega
  simp [decodeWord, h12, h11, h10]

theorem decodeFmt2_operand {w : Word} (ho : bits w 9 7 < 6) :
    decodeFmt2 w = if bits w 9 7 % 2 = 0 ∨ bits w 6 6 = 0 then
      .instr (fmt2Of (bits w 9 7) (Width.ofBw (bits w 6 6)) (Src.ofFields (bits w 5 4) (bits w 3 0))) else .noMatch .byteForm := by
  have hb := bits_lt w 6 6
  unfold decodeFmt2
  generalize bits w 9 7 = o at *
  generalize bits w 6 6 = b at *
  interval_cases o <;> interval_cases b <;> rfl

theorem Says.decodeWord_eq {w : Word} {d : Decoded} (h : Says w d) : decodeWord w = d := by
  cases h with
  | fmt1 h =>
    unfold decodeWord
    split
    case h_5 => rw [decodeFmt1_eq]
    all_goals omega
  | jump h =>
    unfold decodeWord
    have h12 : bits w 15 12 = 2 ∨ bits w 15 12 = 3 := by simp only [bits] at *; omega
    rcases h12 with h12 | h12 <;> simp [h12, decodeJump_eq]
  | ext h =>
    have h12 : bits w 15 12 = 1 := by simp only [bits] at *; omega
    have h11 : bits w 11 11 = 1 := by simp only [bits] at *; omega
    simp [decodeWord, h12, h11]
  | multiple h =>
    have h12 : bits w 15 12 = 1 := by simp only [bits] at *; omega
    have h11 : bits w 11 11 ≠ 1 := by simp only [bits] at *; omega
    have h10 : bits w 10 10 = 1 := by simp only [bits] at *; omega
    simp [decodeWord, h12, h11, h10, decodeMultiple_eq]
  | fmt2 h ho hb => rw [decodeWord_fmt2 h, decodeFmt2_operand ho, if_pos hb]
  | byteForm h ho hb => rw [decodeWord_fmt2 h, decodeFmt2_operand ho, if_neg (by omega)]
  | reti h => subst h; rfl
  | retiSpace h ho hn =>
    have h9 : bits w 9 7 = 6 ∨ bits w 9 7 = 7 := by have := bits_lt w 9 7; omega
    have hlow : bits w 9 7 = 6 → bits w 6 0 ≠ 0 := fun h6 h0 => hn (BitVec.eq_of_toNat_eq (by simp [bits] at *; omega))
    rw [decodeWord_fmt2 h]
    rcases h9 with h9 | h9
    · simp [decodeFmt2, h9, hlow h9]
    · simp [decodeFmt2, h9]
  | rotate h h5 => rw [decodeWord_low h, decodeRotate_eq, if_pos h5]
  | lowSpace h h5 => rw [decodeWord_low h, decodeRotate_eq, if_neg h5]

theorem decodeWord_eq_iff {w : Word} {d : Decoded} : decodeWord w = d ↔ Says w d := by
  refine ⟨?_, Says.decodeWord_eq⟩
  rintro rfl
  obtain ⟨d, h⟩ := says_total w
  rwa [h.decodeWord_eq]

/-! ### The word of an instruction, by class, and its fields -/

section
variable {op kk c : Nat} {bw : Width} {src : Src} {dst : Dst}

theorem opcodeWord_fmt1Of (h4 : 4 ≤ op) (h : op < 16) : (fmt1Of op bw src dst).opcodeWord = fmt1Word op bw src dst := by
  interval_cases op <;> rfl

theorem opcodeWord_fmt2Of (h : op < 6) (hb : op % 2 = 0 ∨ bw = .word) : (fmt2Of op bw src).opcodeWord = fmt2Word op bw src := by
  rcases hb with hb | rfl
  · have he : op = 0 ∨ op = 2 ∨ op = 4 := by omega
    rcases he with rfl | rfl | rfl <;> rfl
  · interval_cases op <;> rfl

theorem opcodeWord_jumpOf (h : c < 8) (off : BitVec 10) : (jumpOf c off).opcodeWord = jumpWord c off := by
  interval_cases c <;> rfl

theorem opcodeWord_multipleOf (h : kk < 4) (x : BitVec 8) :
    (multipleOf kk x).opcodeWord = BitVec.ofNat 16 (0x1400 + kk * 256 + x.toNat) := by
  interval_cases kk <;> rfl

theorem opcodeWord_rotateOf (h : kk < 4) (n : BitVec 2) (aw : BitVec 1) (r : BitVec 4) : (rotateOf kk n aw r).opcodeWord = rotateWord kk n aw r := by
  interval_cases kk <;> rfl

theorem bits_fmt1Word (h : op < 16) (bw : Width) (src : Src) (dst : Dst) :
    bits (fmt1Word op bw src dst) 15 12 = op ∧ bits (fmt1Word op bw src dst) 11 8 = src.regField ∧
    bits (fmt1Word op bw src dst) 7 7 = dst.adBit ∧ bits (fmt1Word op bw src dst) 6 6 = bw.bw ∧
    bits (fmt1Word op bw src dst) 5 4 = src.asBits ∧ bits (fmt1Word op bw src dst) 3 0 = dst.regField := by
  obtain ⟨has, hrs⟩ := src_fields_lt src
  obtain ⟨had, hrd⟩ := dst_fields_lt dst
  have hbw := bw_lt bw
  simp only [bits, fmt1Word, BitVec.toNat_ofNat]
  omega

theorem bits_fmt2Word (h : op < 8) (bw : Width) (src : Src) :
    bits (fmt2Word op bw src) 15 10 = 4 ∧ bits (fmt2Word op bw src) 9 7 = op ∧ bits (fmt2Word op bw src) 6 6 = bw.bw ∧
    bits (fmt2Word op bw src) 5 4 = src.asBits ∧ bits (fmt2Word op bw src) 3 0 = src.regField := by
  obtain ⟨has, hrs⟩ := src_fields_lt src
  have hbw := bw_lt bw
  simp only [bits, fmt2Word, BitVec.toNat_ofNat]
  omega

theorem bits_jumpWord (h : c < 8) (off : BitVec 10) :
    bits (jumpWord c off) 15 13 = 1 ∧ bits (jumpWord c off) 12 10 = c ∧ bits (jumpWord c off) 9 0 = off.toNat := by
  have := off.isLt
  simp only [bits, jumpWord, BitVec.toNat_ofNat]
  omega

theorem bits_extWord (x : BitVec 11) :
    bits (Instr.ext x).opcodeWord 15 11 = 3 ∧ bits (Instr.ext x).opcodeWord 10 0 = x.toNat := by
  have := x.isLt
  simp only [bits, Instr.opcodeWord, BitVec.toNat_ofNat]
  omega

theorem bits_multipleOf (h : kk < 4) (x : BitVec 8) :
    bits (multipleOf kk x).opcodeWord 15 10 = 5 ∧ bits (multipleOf kk x).opcodeWord 9 8 = kk ∧ bits (multipleOf kk x).opcodeWord 7 0 = x.toNat := by
  have := x.isLt
  simp only [opcodeWord_multipleOf h, bits, BitVec.toNat_ofNat]
  omega

theorem bits_rotateWord (h : kk < 4) (n : BitVec 2) (aw : BitVec 1) (r : BitVec 4) :
    bits (rotateWord kk n aw r) 15 12 = 0 ∧ bits (rotateWord kk n aw r) 11 10 = n.toNat ∧ bits (rotateWord kk n aw r) 9 8 = kk ∧
    bits (rotateWord kk n aw r) 7 5 = 2 ∧ bits (rotateWord kk n aw r) 4 4 = aw.toNat ∧ bits (rotateWord kk n aw r) 3 0 = r.toNat := by
  have hn := n.isLt
  have ha := aw.isLt
  have hr := r.isLt
  simp only [bits, rotateWord, BitVec.toNat_ofNat]
  omega

/-! ### Decode after encode (R104) -/

theorem decodeWord_fmt1Of (h4 : 4 ≤ op) (h : op < 16) (hwf : src.wellFormed && dst.wellFormed) :
    decodeWord (fmt1Of op bw src dst).opcodeWord = .instr (fmt1Of op bw src dst) := by
  obtain ⟨hs, hd⟩ := Bool.and_eq_true_iff.1 hwf
  rw [opcodeWord_fmt1Of h4 h]
  obtain ⟨ho, hrs, had, hb, has, hrd⟩ := bits_fmt1Word h bw src dst
  have := Says.fmt1 (ho.symm ▸ h4)
  rwa [ho, hrs, had, hb, has, hrd, ofBw_bw, ofFields_src src hs, ofFields_dst dst hd, ← decodeWord_eq_iff] at this

theorem decodeWord_fmt2Of (h : op < 6) (hb : op % 2 = 0 ∨ bw = .word) (hs : src.wellFormed) :
    decodeWord (fmt2Of op bw src).opcodeWord = .instr (fmt2Of op bw src) := by
  rw [opcodeWord_fmt2Of h hb]
  obtain ⟨hhi, ho, hbw, has, hrs⟩ := bits_fmt2Word (by omega : op < 8) bw src
  have := Says.fmt2 hhi (ho.symm ▸ h) (by rw [ho, hbw]; exact hb.imp_right fun hw => by rw [hw]; rfl)
  rwa [ho, hbw, has, hrs, ofBw_bw, ofFields_src src hs, ← decodeWord_eq_iff] at this

theorem decodeWord_jumpOf (h : c < 8) (off : BitVec 10) : decodeWord (jumpOf c off).opcodeWord = .instr (jumpOf c off) := by
  rw [opcodeWord_jumpOf h]
  obtain ⟨hhi, hc, hoff⟩ := bits_jumpWord h off
  have := Says.jump hhi
  rwa [hc, hoff, BitVec.ofNat_toNat, BitVec.setWidth_eq, ← decodeWord_eq_iff] at this

theorem decodeWord_ext (x : BitVec 11) : decodeWord (Instr.ext x).opcodeWord = .instr (.ext x) := by
  obtain ⟨hhi, hx⟩ := bits_extWord x
  have := Says.ext hhi
  rwa [hx, BitVec.ofNat_toNat, BitVec.setWidth_eq, ← decodeWord_eq_iff] at this

theorem decodeWord_multipleOf (h : kk < 4) (x : BitVec 8) : decodeWord (multipleOf kk x).opcodeWord = .instr (multipleOf kk x) := by
  obtain ⟨hhi, hk, hx⟩ := bits_multipleOf h x
  have := Says.multiple hhi
  rwa [hk, hx, BitVec.ofNat_toNat, BitVec.setWidth_eq, ← decodeWord_eq_iff] at this

theorem decodeWord_rotateOf (h : kk < 4) (n : BitVec 2) (aw : BitVec 1) (r : BitVec 4) :
    decodeWord (rotateOf kk n aw r).opcodeWord = .instr (rotateOf kk n aw r) := by
  rw [opcodeWord_rotateOf h]
  obtain ⟨hhi, hn, hk, h5, ha, hr⟩ := bits_rotateWord h n aw r
  have := Says.rotate hhi h5
  rwa [hn, hk, ha, hr, BitVec.ofNat_toNat, BitVec.setWidth_eq, BitVec.ofNat_toNat, BitVec.setWidth_eq, BitVec.ofNat_toNat, BitVec.setWidth_eq,
    ← decodeWord_eq_iff] at this

end

theorem decodeWord_opcodeWord (i : Instr) (h : i.wellFormed) : decodeWord i.opcodeWord = .instr i := by
  cases i with
  | mov _ _ _ => exact decodeWord_fmt1Of (op := 4) (by decide) (by decide) h
  | add _ _ _ => exact decodeWord_fmt1Of (op := 5) (by decide) (by decide) h
  | addc _ _ _ => exact decodeWord_fmt1Of (op := 6) (by decide) (by decide) h
  | subc _ _ _ => exact decodeWord_fmt1Of (op := 7) (by decide) (by decide) h
  | sub _ _ _ => exact decodeWord_fmt1Of (op := 8) (by decide) (by decide) h
  | cmp _ _ _ => exact decodeWord_fmt1Of (op := 9) (by decide) (by decide) h
  | dadd _ _ _ => exact decodeWord_fmt1Of (op := 10) (by decide) (by decide) h
  | bit _ _ _ => exact decodeWord_fmt1Of (op := 11) (by decide) (by decide) h
  | bic _ _ _ => exact decodeWord_fmt1Of (op := 12) (by decide) (by decide) h
  | bis _ _ _ => exact decodeWord_fmt1Of (op := 13) (by decide) (by decide) h
  | xor _ _ _ => exact decodeWord_fmt1Of (op := 14) (by decide) (by decide) h
  | and _ _ _ => exact decodeWord_fmt1Of (op := 15) (by decide) (by decide) h
  | rrc _ _ => exact decodeWord_fmt2Of (op := 0) (by decide) (.inl rfl) h
  | swpb _ => exact decodeWord_fmt2Of (op := 1) (by decide) (.inr rfl) h
  | rra _ _ => exact decodeWord_fmt2Of (op := 2) (by decide) (.inl rfl) h
  | sxt _ => exact decodeWord_fmt2Of (op := 3) (by decide) (.inr rfl) h
  | push _ _ => exact decodeWord_fmt2Of (op := 4) (by decide) (.inl rfl) h
  | call _ => exact decodeWord_fmt2Of (op := 5) (by decide) (.inr rfl) h
  | reti => exact (Says.reti rfl).decodeWord_eq
  | jne off => exact decodeWord_jumpOf (c := 0) (by decide) off
  | jeq off => exact decodeWord_jumpOf (c := 1) (by decide) off
  | jnc off => exact decodeWord_jumpOf (c := 2) (by decide) off
  | jc off => exact decodeWord_jumpOf (c := 3) (by decide) off
  | jn off => exact decodeWord_jumpOf (c := 4) (by decide) off
  | jge off => exact decodeWord_jumpOf (c := 5) (by decide) off
  | jl off => exact decodeWord_jumpOf (c := 6) (by decide) off
  | jmp off => exact decodeWord_jumpOf (c := 7) (by decide) off
  | ext x => exact decodeWord_ext x
  | pushmA x => exact decodeWord_multipleOf (kk := 0) (by decide) x
  | pushmW x => exact decodeWord_multipleOf (kk := 1) (by decide) x
  | popmA x => exact decodeWord_multipleOf (kk := 2) (by decide) x
  | popmW x => exact decodeWord_multipleOf (kk := 3) (by decide) x
  | rrcm n aw r => exact decodeWord_rotateOf (kk := 0) (by decide) n aw r
  | rram n aw r => exact decodeWord_rotateOf (kk := 1) (by decide) n aw r
  | rlam n aw r => exact decodeWord_rotateOf (kk := 2) (by decide) n aw r
  | rrum n aw r => exact decodeWord_rotateOf (kk := 3) (by decide) n aw r

theorem decodeBytes_bytesOfWord (w : Word) (rest : List Byte) : decodeBytes (bytesOfWord w ++ rest) = (decodeWord w, rest) := by
  show (decodeWord (wordOfBytes (lowByte w) (highByte w)), rest) = _
  rw [wordOfBytes_bytes]

/-! ### Encode after decode -/

theorem fmt1Word_bits (w : Word) : fmt1Word (bits w 15 12) (Width.ofBw (bits w 6 6)) (Src.ofFields (bits w 5 4) (bits w 11 8))
    (Dst.ofFields (bits w 7 7) (bits w 3 0)) = w := by
  obtain ⟨-, has, hrs⟩ := src_ofFields (bits_lt w 5 4) (bits_lt w 11 8)
  obtain ⟨-, had, hrd⟩ := dst_ofFields (bits_lt w 7 7) (bits_lt w 3 0)
  apply BitVec.eq_of_toNat_eq
  rw [fmt1Word, has, hrs, had, hrd, bw_ofBw (bits_lt w 6 6), BitVec.toNat_ofNat]
  simp only [bits]
  omega

theorem fmt2Word_bits {w : Word} (h : bits w 15 10 = 4) :
    fmt2Word (bits w 9 7) (Width.ofBw (bits w 6 6)) (Src.ofFields (bits w 5 4) (bits w 3 0)) = w := by
  obtain ⟨-, has, hrs⟩ := src_ofFields (bits_lt w 5 4) (bits_lt w 3 0)
  apply BitVec.eq_of_toNat_eq
  rw [fmt2Word, has, hrs, bw_ofBw (bits_lt w 6 6), BitVec.toNat_ofNat]
  simp only [bits] at *
  omega

theorem opcodeWord_of_says {w : Word} {i : Instr} (h : Says w (.instr i)) : i.opcodeWord = w := by
  cases h with
  | fmt1 h => rw [opcodeWord_fmt1Of h (bits_lt w 15 12), fmt1Word_bits]
  | fmt2 h ho hb => rw [opcodeWord_fmt2Of ho (hb.imp_right fun h6 => by rw [h6]; rfl), fmt2Word_bits h]
  | reti h => exact h.symm
  | jump h =>
    rw [opcodeWord_jumpOf (bits_lt w 12 10)]
    apply BitVec.eq_of_toNat_eq
    simp only [jumpWord, bits, BitVec.toNat_ofNat] at *
    omega
  | ext h =>
    apply BitVec.eq_of_toNat_eq
    simp only [Instr.opcodeWord, bits, BitVec.toNat_ofNat] at *
    omega
  | multiple h =>
    rw [opcodeWord_multipleOf (bits_lt w 9 8)]
    apply BitVec.eq_of_toNat_eq
    simp only [bits, BitVec.toNat_ofNat] at *
    omega
  | rotate h h5 =>
    rw [opcodeWord_rotateOf (bits_lt w 9 8)]
    apply BitVec.eq_of_toNat_eq
    simp only [rotateWord, bits, BitVec.toNat_ofNat] at *
    omega

/-! ### The words that match nothing (R105) -/

theorem says_lowSpace_iff {w : Word} : Says w (.noMatch .lowSpace) ↔ w.toNat < 0x1000 ∧ w.toNat / 32 % 8 ≠ 2 := by
  have hw := w.isLt
  have hbits : bits w 15 12 = 0 ∧ bits w 7 5 ≠ 2 ↔ w.toNat < 0x1000 ∧ w.toNat / 32 % 8 ≠ 2 := by simp only [bits]; omega
  rw [← hbits]
  exact ⟨fun | .lowSpace h h5 => ⟨h, h5⟩, fun ⟨h, h5⟩ => .lowSpace h h5⟩

theorem says_byteForm_iff {w : Word} : Says w (.noMatch .byteForm) ↔
    (0x10C0 ≤ w.toNat ∧ w.toNat ≤ 0x10FF) ∨ (0x11C0 ≤ w.toNat ∧ w.toNat ≤ 0x11FF) ∨ (0x12C0 ≤ w.toNat ∧ w.toNat ≤ 0x12FF) := by
  have hw := w.isLt
  have hbits : bits w 15 10 = 4 ∧ bits w 9 7 < 6 ∧ bits w 9 7 % 2 = 1 ∧ bits w 6 6 = 1 ↔
      (0x10C0 ≤ w.toNat ∧ w.toNat ≤ 0x10FF) ∨ (0x11C0 ≤ w.toNat ∧ w.toNat ≤ 0x11FF) ∨ (0x12C0 ≤ w.toNat ∧ w.toNat ≤ 0x12FF) := by
    simp only [bits]; omega
  rw [← hbits]
  exact ⟨fun | .byteForm h ho hb => ⟨h, ho, hb⟩, fun ⟨h, ho, hb⟩ => .byteForm h ho hb⟩

theorem says_retiSpace_iff {w : Word} : Says w (.noMatch .retiSpace) ↔ 0x1301 ≤ w.toNat ∧ w.toNat ≤ 0x13FF := by
  have hw := w.isLt
  have hbits : bits w 15 10 = 4 ∧ 6 ≤ bits w 9 7 ∧ w ≠ 0x1300#16 ↔ 0x1301 ≤ w.toNat ∧ w.toNat ≤ 0x13FF := by
    simp only [bits, ne_eq, ← BitVec.toNat_inj, BitVec.toNat_ofNat]; omega
  rw [← hbits]
  exact ⟨fun | .retiSpace h ho hn => ⟨h, ho, hn⟩, fun ⟨h, ho, hn⟩ => .retiSpace h ho hn⟩

end Sys2Proof

namespace Sys2Proof.Machine

/-! ### The word at PC -/

theorem wordAt_of_bytes {s : State} {a w : Word} (ha : a.toNat % 2 = 0)
    (h : [byteRead s a, byteRead s (a + 1#16)] = (bytesOfWord w).map some) : wordAt s a = some w := by
  obtain ⟨hlo, hhi⟩ : byteRead s a = some (lowByte w) ∧ byteRead s (a + 1#16) = some (highByte w) := by simpa [bytesOfWord] using h
  simp [wordAt, (isOdd_false_iff a).2 ha, hlo, hhi, wordOfBytes_bytes]

/-- A step whose word at PC is an instruction other than the halt word runs it (40_pipeline.md R120). -/
theorem step_of_wordAt {s : State} {w : Word} {i : Instr} (hc : wellFormedParams s.params) (hf : s.faulted = none)
    (hw : wordAt s s.pc = some w) (hn : w ≠ s.params.haltWord) (hd : decodeWord w = .instr i) : step s = exec i s := by
  have hfetch := fetchWord_ok (s := { s with trace := [] }) hw
  rw [step_ready hc hf, fetchDecode, hfetch]
  simp only [if_neg hn, hd]

end Sys2Proof.Machine

namespace Sys2Proof.Proofs

open Sys2Proof.Machine Sys2Proof.Claims

/-- Settles O2, by the class of the instruction: the fields of its word are the fields it was built from, and they select its operands again. -/
theorem decodeOfEncode : Obligations.DecodeOfEncode := by
  unfold Obligations.DecodeOfEncode
  intro i h
  refine ⟨decodeWord_opcodeWord i h, fun rest => ?_⟩
  rw [encode, decodeBytes_bytesOfWord, decodeWord_opcodeWord i h]

/-- Settles O3, by what the word says: the fields that select the instruction are the word's own. -/
theorem encodeOfDecode : Obligations.EncodeOfDecode := by
  unfold Obligations.EncodeOfDecode
  intro w i h
  exact ⟨decodeWord_wellFormed h, opcodeWord_of_says (decodeWord_eq_iff.1 h)⟩

/-- Settles O4: each class of R105 is one clause of `Says`, and its fields are a range of numbers. -/
theorem noMatchWords : Obligations.NoMatchWords := by
  unfold Obligations.NoMatchWords
  intro w
  exact ⟨decodeWord_eq_iff.trans says_lowSpace_iff, decodeWord_eq_iff.trans says_byteForm_iff, decodeWord_eq_iff.trans says_retiSpace_iff,
    fun h => nomatch decodeWord_eq_iff.1 h⟩

/-- Settles O45: the word at PC is the encoding, and decodes to the instruction by the round trip. -/
theorem stepRunsEncoded : Obligations.StepRunsEncoded := by
  unfold Obligations.StepRunsEncoded
  intro s i hwf hc hf hpc hbytes hn
  exact step_of_wordAt hc hf (wordAt_of_bytes hpc hbytes) hn (decodeWord_opcodeWord i hwf)

/-- Settles O1, by evaluating the decoder on the ten words. -/
theorem sampleWordsDecode : Obligations.SampleWordsDecode := by
  unfold Obligations.SampleWordsDecode
  decide

end Sys2Proof.Proofs
end

section
/-! The decision tree for any list of descriptors (30_encoding.md R98–R101): its build succeeds where every word's leaf resolves, and its walk is
that resolution. -/

namespace Sys2Proof.Machine

/-! ### Positions and matching -/

/-- A position of a template agrees with a bit: it fixes none, or this one. -/
def TPos.admits (p : TPos) (b : Bool) : Bool := p != if b then .zero else .one

theorem matchesBelow_succ (t : Template) (w : Word) (k : Nat) :
    matchesBelow t w (k + 1) = ((bitAt t k).admits (w.getLsbD k) && matchesBelow t w k) := by
  rw [matchesBelow]
  cases bitAt t k <;> cases w.getLsbD k <;> rfl

theorem matchesBelow_iff (t : Template) (w : Word) (n : Nat) :
    matchesBelow t w n = true ↔ ∀ k, k < n → (bitAt t k).admits (w.getLsbD k) = true := by
  induction n with
  | zero => simp [matchesBelow]
  | succ n ih => rw [matchesBelow_succ, Bool.and_eq_true, ih, Nat.forall_lt_succ_right, and_comm]

theorem matchesBelow_congr (t : Template) {v w : Word} {n : Nat} (h : ∀ k, k < n → v.getLsbD k = w.getLsbD k) :
    matchesBelow t v n = matchesBelow t w n := by
  rw [Bool.eq_iff_iff, matchesBelow_iff, matchesBelow_iff]
  exact forall₂_congr fun k hk => by rw [h k hk]

/-- The descriptors that agree with a word below `n`. -/
def matching (S : List Descriptor) (w : Word) (n : Nat) : List Descriptor := S.filter fun d => matchesBelow d.template w n

/-- The descriptors that go with a bit at position `k`. -/
def branch (S : List Descriptor) (k : Nat) (b : Bool) : List Descriptor := S.filter fun d => (bitAt d.template k).admits b

theorem matching_zero (S : List Descriptor) (w : Word) : matching S w 0 = S := List.filter_eq_self.2 fun _ _ => rfl

theorem matching_succ (S : List Descriptor) (w : Word) (k : Nat) :
    matching S w (k + 1) = matching (branch S k (w.getLsbD k)) w k := by
  simp only [matching, branch, List.filter_filter, matchesBelow_succ, Bool.and_comm]

/-- No descriptor fixes position `k`. -/
def FreeAt (S : List Descriptor) (k : Nat) : Prop := S.all fun d => bitAt d.template k != .zero && bitAt d.template k != .one

theorem FreeAt.branch_eq {S : List Descriptor} {k : Nat} (h : FreeAt S k) (b : Bool) : branch S k b = S := by
  refine List.filter_eq_self.2 fun d hd => ?_
  obtain ⟨h0, h1⟩ := Bool.and_eq_true_iff.1 (List.all_eq_true.1 h d hd)
  cases b <;> assumption

theorem buildTrie_free {S : List Descriptor} {k : Nat} (h : FreeAt S k) : buildTrie (k + 1) S = buildTrie k S := if_pos h

theorem buildTrie_node {S : List Descriptor} {k : Nat} (h : ¬FreeAt S k) {t : Trie} : buildTrie (k + 1) S = .ok t ↔
    ∃ z o, buildTrie k (branch S k false) = .ok z ∧ buildTrie k (branch S k true) = .ok o ∧ t = .node k z o := by
  have h0 : (S.filter fun d => bitAt d.template k != .one) = branch S k false := rfl
  have h1 : (S.filter fun d => bitAt d.template k != .zero) = branch S k true := rfl
  rw [show buildTrie (k + 1) S = _ from if_neg h, h0, h1]
  cases buildTrie k (branch S k false) <;> cases buildTrie k (branch S k true) <;> simp [eq_comm]

/-! ### The walk is the resolution, and the build succeeds where every word resolves -/

theorem resolveLeaf_matching {n : Nat} {S : List Descriptor} {t : Trie} (h : buildTrie n S = .ok t) (w : Word) :
    resolveLeaf (matching S w n) = .ok (walkTrie t w) := by
  induction n generalizing S t with
  | zero =>
    rw [matching_zero]
    rw [buildTrie] at h
    cases hr : resolveLeaf S with
    | error e => rw [hr] at h; cases h
    | ok d => rw [hr] at h; cases h; rfl
  | succ k ih =>
    rw [matching_succ]
    by_cases hf : FreeAt S k
    · rw [hf.branch_eq]
      exact ih (buildTrie_free hf ▸ h)
    · obtain ⟨z, o, hz, ho, rfl⟩ := (buildTrie_node hf).1 h
      rw [walkTrie]
      cases w.getLsbD k with
      | false => exact ih hz
      | true => exact ih ho

/-- A word with bit `k` set to `b`. -/
def withBit (w : Word) (k : Nat) (b : Bool) : Word := if b then w ||| BitVec.twoPow 16 k else w &&& ~~~BitVec.twoPow 16 k

theorem getLsbD_withBit_same (w : Word) {k : Nat} (hk : k < 16) (b : Bool) : (withBit w k b).getLsbD k = b := by
  cases b <;> simp [withBit, hk]

theorem getLsbD_withBit_of_lt (w : Word) {j k : Nat} (h : j < k) (b : Bool) : (withBit w k b).getLsbD j = w.getLsbD j := by
  cases b with
  | true => simp [withBit, h.ne']
  | false => simpa [withBit, h.ne'] using BitVec.lt_of_getLsbD

theorem exists_buildTrie {n : Nat} (hn : n ≤ 16) {S : List Descriptor} (h : ∀ w : Word, ∃ r, resolveLeaf (matching S w n) = .ok r) :
    ∃ t, buildTrie n S = .ok t := by
  induction n generalizing S with
  | zero =>
    obtain ⟨r, hr⟩ := h 0#16
    rw [matching_zero] at hr
    exact ⟨.leaf r, by rw [buildTrie, hr]; rfl⟩
  | succ k ih =>
    have hbranch : ∀ b, ∃ t, buildTrie k (branch S k b) = .ok t := fun b => by
      refine ih (by omega) fun w => ?_
      obtain ⟨r, hr⟩ := h (withBit w k b)
      rw [matching_succ, getLsbD_withBit_same w hn] at hr
      refine ⟨r, hr ▸ congrArg resolveLeaf (List.filter_congr fun d _ => ?_)⟩
      exact matchesBelow_congr d.template fun j hj => (getLsbD_withBit_of_lt w hj b).symm
    obtain ⟨z, hz⟩ := hbranch false
    obtain ⟨o, ho⟩ := hbranch true
    by_cases hf : FreeAt S k
    · exact ⟨z, by rw [buildTrie_free hf, ← hf.branch_eq false, hz]⟩
    · exact ⟨.node k z o, (buildTrie_node hf).2 ⟨z, o, hz, ho, rfl⟩⟩

/-! ### Leaf resolution (R100) -/

theorem foldl_max_le {L : List Descriptor} {n m : Nat} (hn : n ≤ m) (h : ∀ e ∈ L, fixedCount e ≤ m) :
    L.foldl (fun n d => max n (fixedCount d)) n ≤ m := by
  induction L generalizing n with
  | nil => exact hn
  | cons e L ih => exact ih (max_le hn (h e (by simp))) fun x hx => h x (by simp [hx])

theorem le_foldl_max (L : List Descriptor) (n : Nat) :
    n ≤ L.foldl (fun n d => max n (fixedCount d)) n ∧ ∀ e ∈ L, fixedCount e ≤ L.foldl (fun n d => max n (fixedCount d)) n := by
  induction L generalizing n with
  | nil => simp
  | cons e L ih =>
    obtain ⟨hn, hL⟩ := ih (max n (fixedCount e))
    exact ⟨(le_max_left ..).trans hn, List.forall_mem_cons.2 ⟨(le_max_right ..).trans hn, hL⟩⟩

/-- A descriptor with more fixed bits than every other one in the list is what its leaf resolves to. -/
theorem resolveLeaf_eq_some {L : List Descriptor} {d : Descriptor} (hL : L.Nodup) (hd : d ∈ L)
    (h : ∀ e ∈ L, e = d ∨ fixedCount e < fixedCount d) : resolveLeaf L = .ok (some d) := by
  have hmost : L.foldl (fun n d => max n (fixedCount d)) 0 = fixedCount d :=
    (foldl_max_le (Nat.zero_le _) fun e he => (h e he).elim (fun e => e ▸ le_rfl) le_of_lt).antisymm ((le_foldl_max L 0).2 d hd)
  have hone : L.filter (fun e => fixedCount e == fixedCount d) = [d] := by
    refine List.perm_singleton.1 ((List.perm_ext_iff_of_nodup (hL.filter _) (List.nodup_singleton d)).2 fun e => ?_)
    simp only [List.mem_filter, beq_iff_eq, List.mem_singleton]
    exact ⟨fun ⟨he, hc⟩ => (h e he).resolve_right hc.not_lt, by rintro rfl; exact ⟨hd, rfl⟩⟩
  simp only [resolveLeaf, hmost, hone]

end Sys2Proof.Machine

namespace Sys2Proof.Proofs

open Sys2Proof.Machine

/-- Settles O5, by induction on the number of bits that the build has still to decide. -/
theorem trieFindsMostSpecific : Obligations.TrieFindsMostSpecific := by
  unfold Obligations.TrieFindsMostSpecific
  intro S t h w
  exact resolveLeaf_matching h w

end Sys2Proof.Proofs
end

section
/-! The catalog (30_encoding.md R95–R97): its descriptors written out, which words each one matches and with how many fixed bits, and that among those
that match a word the one of its instruction is the most specific (R100, R101). -/

namespace Sys2Proof.Machine

/-! ### Templates as runs -/

/-- A template agrees with the bits of a number, from bit 0 up. -/
def Agrees : Template → Nat → Prop
  | [], _ => True
  | p :: t, x => p.admits (x.testBit 0) = true ∧ Agrees t (x / 2)

theorem agrees_iff (t : Template) (x : Nat) : Agrees t x ↔ ∀ k, k < t.length → (bitAt t k).admits (x.testBit k) = true := by
  induction t generalizing x with
  | nil => simp [Agrees]
  | cons p t ih =>
    rw [Agrees, ih, List.length_cons, Nat.forall_lt_succ_left]
    simp only [Nat.testBit_succ]
    rfl

theorem matchesWord_iff {d : Descriptor} (h : d.template.length = 16) (w : Word) : matchesWord d w = true ↔ Agrees d.template w.toNat := by
  rw [matchesWord, matchesBelow_iff, agrees_iff, h]
  rfl

theorem agrees_append (t u : Template) (x : Nat) : Agrees (t ++ u) x ↔ Agrees t x ∧ Agrees u (x / 2 ^ t.length) := by
  induction t generalizing x with
  | nil => simp [Agrees]
  | cons p t ih => rw [List.cons_append, Agrees, Agrees, ih, and_assoc, Nat.div_div_eq_div_mul, List.length_cons, Nat.pow_succ']

@[simp] theorem agrees_fieldRun (n : Nat) (f : FieldName) (x : Nat) : Agrees (fieldRun n f) x := by
  induction n generalizing x with
  | zero => trivial
  | succ n ih => exact ⟨by cases x.testBit 0 <;> rfl, ih _⟩

theorem fixedBit_admits (v x : Nat) : (fixedBit v).admits (x.testBit 0) = true ↔ x % 2 = v % 2 := by
  rw [fixedBit, Nat.testBit_zero]
  rcases Nat.mod_two_eq_zero_or_one v with hv | hv <;> rcases Nat.mod_two_eq_zero_or_one x with hx | hx <;> simp [hv, hx, TPos.admits]

theorem agrees_fixedRun {n v : Nat} (hv : v < 2 ^ n) (x : Nat) : Agrees (fixedRun n v) x ↔ x % 2 ^ n = v := by
  induction n generalizing v x with
  | zero => simp [fixedRun, Agrees, Nat.mod_one]; omega
  | succ n ih =>
    rw [Nat.pow_succ'] at hv
    rw [fixedRun, Agrees, fixedBit_admits, ih (by omega), Nat.pow_succ', Nat.mod_mul]
    omega

/-- The positions of a template that are literally fixed. -/
def fixedIn (t : Template) : Nat := t.countP fun p => p == .zero || p == .one

theorem fixedCount_eq (d : Descriptor) : fixedCount d = fixedIn d.template := rfl

@[simp] theorem fixedIn_append (t u : Template) : fixedIn (t ++ u) = fixedIn t + fixedIn u := List.countP_append

@[simp] theorem fixedIn_fieldRun (n : Nat) (f : FieldName) : fixedIn (fieldRun n f) = 0 := by simp [fixedIn, fieldRun, List.countP_replicate]

@[simp] theorem fixedIn_fixedRun (n v : Nat) : fixedIn (fixedRun n v) = n := by
  induction n generalizing v with
  | zero => rfl
  | succ n ih =>
    have hbit : fixedBit v = .zero ∨ fixedBit v = .one := by rw [fixedBit]; split <;> simp
    have := ih (v / 2)
    rcases hbit with h | h <;> simp_all [fixedRun, fixedIn]

@[simp] theorem length_fieldRun (n : Nat) (f : FieldName) : (fieldRun n f).length = n := List.length_replicate

@[simp] theorem length_fixedRun (n v : Nat) : (fixedRun n v).length = n := by
  induction n generalizing v with
  | zero => rfl
  | succ n ih => rw [fixedRun, List.length_cons, ih]

/-- A field of a template, fixed where the mode fixes it. -/
def runOf (n : Nat) (f : FieldName) : Option Nat → Template
  | some v => fixedRun n v
  | none => fieldRun n f

@[simp] theorem length_runOf (n : Nat) (f : FieldName) (o : Option Nat) : (runOf n f o).length = n := by cases o <;> simp [runOf]

theorem agrees_runOf {n : Nat} {o : Option Nat} (ho : ∀ v ∈ o, v < 2 ^ n) (f : FieldName) (x : Nat) :
    Agrees (runOf n f o) x ↔ ∀ v ∈ o, x % 2 ^ n = v := by
  cases o with
  | none => simp [runOf]
  | some v => simp [runOf, agrees_fixedRun (ho v rfl)]

@[simp] theorem fixedIn_runOf (n : Nat) (f : FieldName) (o : Option Nat) : fixedIn (runOf n f o) = if o.isSome then n else 0 := by
  cases o <;> simp [runOf]

/-! ### The catalog written out (R96) -/

/-- What `fmt1Descriptor` builds. -/
def fmt1Entry (m : Mnemonic) (op : Nat) (sm : SMode) (dm : DMode) : Descriptor where
  mnemonic := m
  format := .fmt1
  smode := some sm
  dmode := some dm
  template := runOf 4 .rd (dmodeReg dm) ++ fixedRun 2 (modeAs sm) ++ fieldRun 1 .bw ++ fixedRun 1 (dmodeAd dm) ++ runOf 4 .rs (modeReg sm) ++ fixedRun 4 op
  length := some (2 * (1 + modeExt sm + dmodeExt dm))

/-- What `fmt2Descriptor` builds. -/
def fmt2Entry (m : Mnemonic) (op : Nat) (bwFree : Bool) (sm : SMode) : Descriptor where
  mnemonic := m
  format := .fmt2
  smode := some sm
  dmode := none
  template := runOf 4 .r (modeReg sm) ++ fixedRun 2 (modeAs sm) ++ runOf 1 .bw (if bwFree then none else some 0) ++ fixedRun 3 op ++ fixedRun 6 4
  length := some (2 * (1 + modeExt sm))

/-- What `retiDescriptor` builds: every position is fixed (R86). -/
def retiEntry : Descriptor where
  mnemonic := .reti
  format := .fmt2
  smode := none
  dmode := none
  template := fixedRun 16 0x1300
  length := some 2

/-- What `jumpDescriptor` builds. -/
def jumpEntry (m : Mnemonic) (c : Nat) : Descriptor where
  mnemonic := m
  format := .jump
  smode := none
  dmode := none
  template := fieldRun 10 .offset ++ fixedRun 3 c ++ fixedRun 3 1
  length := some 2

/-- What `stubDescriptor` builds. -/
def stubEntry (m : Mnemonic) (t : Template) : Descriptor where
  mnemonic := m
  format := .unsupported
  smode := none
  dmode := none
  template := t
  length := none

/-- The descriptors of each format class, in the order of `descriptorBuilds`. -/
def fmt1Entries : List Descriptor := fmt1Opcodes.flatMap fun p => sourceModes.flatMap fun sm => destModes.map fun dm => fmt1Entry p.1 p.2 sm dm

def fmt2Entries : List Descriptor := fmt2Opcodes.flatMap fun p => sourceModes.map fun sm => fmt2Entry p.1 p.2.1 p.2.2 sm

def jumpEntries : List Descriptor := jumpConds.map fun p => jumpEntry p.1 p.2

def stubEntries : List Descriptor := stubTemplates.map fun p => stubEntry p.1 p.2

/-- The templates of stubTemplates, by class (44_unsupported.md R231–R234). -/
def extTemplate : Template := fieldRun 11 .raw ++ fixedRun 5 3
def multipleTemplate (kk : Nat) : Template := fieldRun 8 .raw ++ fixedRun 8 (0x14 + kk)
def rotateTemplate (kk : Nat) : Template := fieldRun 5 .raw ++ fixedRun 3 2 ++ fixedRun 2 kk ++ fieldRun 2 .raw ++ fixedRun 4 0

/-- The stubs of each pattern, by the field that tells them apart. -/
def multiples : List (Mnemonic × Nat) := [(.pushmA, 0), (.pushmW, 1), (.popmA, 2), (.popmW, 3)]
def rotates : List (Mnemonic × Nat) := [(.rrcm, 0), (.rram, 1), (.rlam, 2), (.rrum, 3)]

theorem stubTemplates_eq : stubTemplates =
    (.ext, extTemplate) :: multiples.map (fun p => (p.1, multipleTemplate p.2)) ++ rotates.map fun p => (p.1, rotateTemplate p.2) := rfl

/-- The descriptors of the catalog. -/
def entries : List Descriptor := fmt1Entries ++ fmt2Entries ++ [retiEntry] ++ jumpEntries ++ stubEntries

theorem fmt1Descriptor_eq {op : Nat} (h : op < 16) (m : Mnemonic) (sm : SMode) (dm : DMode) :
    fmt1Descriptor m op sm dm = .ok (fmt1Entry m op sm dm) := by
  rw [fmt1Descriptor, show insertField .opcode 12 4 op fmt1Template = _ from if_pos h]
  cases sm <;> cases dm <;> rfl

theorem fmt2Descriptor_eq {op : Nat} (h : op < 8) (m : Mnemonic) (bwFree : Bool) (sm : SMode) :
    fmt2Descriptor m op bwFree sm = .ok (fmt2Entry m op bwFree sm) := by
  rw [fmt2Descriptor, show insertField .opcode 7 3 op fmt2Template = _ from if_pos h]
  cases bwFree <;> cases sm <;> rfl

theorem jumpDescriptor_eq {c : Nat} (h : c < 8) (m : Mnemonic) : jumpDescriptor m c = .ok (jumpEntry m c) := by
  rw [jumpDescriptor, show insertField .cond 10 3 c jumpTemplate = _ from if_pos h]
  rfl

theorem retiDescriptor_eq : retiDescriptor = .ok retiEntry := rfl

theorem fmt1Opcodes_range : ∀ p ∈ fmt1Opcodes, 4 ≤ p.2 ∧ p.2 < 16 := by decide
theorem fmt2Opcodes_range : ∀ p ∈ fmt2Opcodes, p.2.1 < 6 ∧ (p.2.2 = true ↔ p.2.1 % 2 = 0) := by decide
theorem jumpConds_range : ∀ p ∈ jumpConds, p.2 < 8 := by decide
theorem multiples_range : ∀ p ∈ multiples, p.2 < 4 := by decide
theorem rotates_range : ∀ p ∈ rotates, p.2 < 4 := by decide

theorem collect_map_ok {α : Type} (l : List α) : collect (l.map .ok) = .ok l := by
  induction l with
  | nil => rfl
  | cons a l ih => rw [List.map_cons, collect, ih]; rfl

theorem catalog_eq : catalog = .ok entries := by
  have h1 : (fmt1Opcodes.flatMap fun p => sourceModes.flatMap fun sm => destModes.map fun dm => fmt1Descriptor p.1 p.2 sm dm) = fmt1Entries.map .ok := by
    simp only [fmt1Entries, List.map_flatMap, List.map_map]
    exact List.flatMap_congr fun p hp => by simp only [fmt1Descriptor_eq (fmt1Opcodes_range p hp).2]; rfl
  have h2 : (fmt2Opcodes.flatMap fun p => sourceModes.map fun sm => fmt2Descriptor p.1 p.2.1 p.2.2 sm) = fmt2Entries.map .ok := by
    simp only [fmt2Entries, List.map_flatMap, List.map_map]
    exact List.flatMap_congr fun p hp => by
      have := (fmt2Opcodes_range p hp).1
      simp only [fmt2Descriptor_eq (by omega : p.2.1 < 8)]; rfl
  have h3 : (jumpConds.map fun p => jumpDescriptor p.1 p.2) = jumpEntries.map .ok := by
    rw [jumpEntries, List.map_map]
    exact List.map_congr_left fun p hp => jumpDescriptor_eq (jumpConds_range p hp) p.1
  have h4 : (stubTemplates.map fun p => stubDescriptor p.1 p.2) = stubEntries.map .ok := by
    rw [stubEntries, List.map_map]
    rfl
  rw [catalog, ← collect_map_ok, entries, List.map_append, List.map_append, List.map_append, List.map_append, ← h1, ← h2, ← h3, ← h4]
  rfl

theorem entries_length : entries.length = 720 := by
  simp only [entries, fmt1Entries, fmt2Entries, jumpEntries, stubEntries, List.length_append, List.length_flatMap, List.length_map]
  rfl

/-! ### Each descriptor stands once -/

/-- What names a descriptor: its mnemonic and modes. -/
def Descriptor.key (d : Descriptor) : Mnemonic × Option SMode × Option DMode := (d.mnemonic, d.smode, d.dmode)

theorem keys_eq : entries.map Descriptor.key =
    (fmt1Opcodes.map Prod.fst) ×ˢ (sourceModes.map some) ×ˢ (destModes.map some) ++
      (fmt2Opcodes.map Prod.fst) ×ˢ (sourceModes.map fun sm => (some sm, none)) ++
      (.reti :: jumpConds.map Prod.fst ++ stubTemplates.map Prod.fst).map (·, none, none) := by
  simp [entries, fmt1Entries, fmt2Entries, jumpEntries, stubEntries, Descriptor.key, fmt1Entry, fmt2Entry, jumpEntry, stubEntry, retiEntry,
    List.map_flatMap, SProd.sprod, List.product, List.flatMap_map, Function.comp_def]

theorem nodup_keys : (entries.map Descriptor.key).Nodup := by
  rw [keys_eq, List.nodup_append', List.nodup_append']
  refine ⟨⟨.product (by decide) (.product (by decide) (by decide)), .product (by decide) (by decide), ?_⟩, by decide, ?_⟩
  · rintro ⟨m, sm, dm⟩ h1 h2
    obtain ⟨-, -, hd1⟩ : _ ∧ _ ∧ dm ∈ destModes.map some := by simpa using h1
    obtain ⟨-, _, -, hd2⟩ : _ ∧ ∃ a ∈ sourceModes, some a = sm ∧ none = dm := by simpa using h2
    simp [← hd2] at hd1
  · rintro ⟨m, sm, dm⟩ h1 h2
    obtain ⟨rfl, rfl⟩ : sm = none ∧ dm = none := by simp at h2; grind
    simp at h1

theorem nodup_entries : entries.Nodup := .of_map _ nodup_keys

theorem eq_of_key_eq {d e : Descriptor} (hd : d ∈ entries) (he : e ∈ entries) (h : d.key = e.key) : d = e :=
  List.inj_on_of_nodup_map nodup_keys hd he h

/-! ### Which words a descriptor matches (R98) -/

theorem modeAs_lt (sm : SMode) : modeAs sm < 4 := by cases sm <;> decide
theorem modeReg_lt (sm : SMode) : ∀ v ∈ modeReg sm, v < 16 := by cases sm <;> decide
theorem dmodeAd_lt (dm : DMode) : dmodeAd dm < 2 := by cases dm <;> decide
theorem dmodeReg_lt (dm : DMode) : ∀ v ∈ dmodeReg dm, v < 16 := by cases dm <;> decide

theorem matchesWord_fmt1Entry {op : Nat} (h : op < 16) (m : Mnemonic) (sm : SMode) (dm : DMode) (w : Word) :
    matchesWord (fmt1Entry m op sm dm) w = true ↔ bits w 15 12 = op ∧ (bits w 5 4 = modeAs sm ∧ ∀ v ∈ modeReg sm, bits w 11 8 = v) ∧
      bits w 7 7 = dmodeAd dm ∧ ∀ v ∈ dmodeReg dm, bits w 3 0 = v := by
  rw [matchesWord_iff (by simp [fmt1Entry])]
  simp only [fmt1Entry, agrees_append, agrees_fieldRun, agrees_fixedRun (n := 2) (modeAs_lt sm), agrees_fixedRun (n := 1) (dmodeAd_lt dm),
    agrees_fixedRun (n := 4) h, agrees_runOf (n := 4) (modeReg_lt sm), agrees_runOf (n := 4) (dmodeReg_lt dm),
    List.length_append, length_runOf, length_fixedRun, length_fieldRun, bits]
  simp only [Nat.reduceAdd, Nat.reduceSub, pow_zero, Nat.div_one]
  tauto

theorem matchesWord_fmt2Entry {op : Nat} (h : op < 8) (m : Mnemonic) (bwFree : Bool) (sm : SMode) (w : Word) :
    matchesWord (fmt2Entry m op bwFree sm) w = true ↔ bits w 15 10 = 4 ∧ bits w 9 7 = op ∧ (bwFree = false → bits w 6 6 = 0) ∧
      bits w 5 4 = modeAs sm ∧ ∀ v ∈ modeReg sm, bits w 3 0 = v := by
  rw [matchesWord_iff (by simp [fmt2Entry])]
  have hbw : ∀ v ∈ (if bwFree then none else some 0 : Option Nat), v < 2 ^ 1 := by cases bwFree <;> decide
  simp only [fmt2Entry, agrees_append, agrees_fixedRun (n := 2) (modeAs_lt sm), agrees_fixedRun (n := 3) h,
    agrees_fixedRun (n := 6) (v := 4) (by decide), agrees_runOf (n := 4) (modeReg_lt sm), agrees_runOf hbw,
    List.length_append, length_runOf, length_fixedRun, bits]
  simp only [Nat.reduceAdd, Nat.reduceSub, pow_zero, Nat.div_one]
  cases bwFree <;> simp <;> tauto

theorem matchesWord_retiEntry (w : Word) : matchesWord retiEntry w = true ↔ w = 0x1300#16 := by
  rw [matchesWord_iff rfl, retiEntry, agrees_fixedRun (by decide), Nat.mod_eq_of_lt w.isLt, ← BitVec.toNat_inj]
  rfl

theorem matchesWord_jumpEntry {c : Nat} (h : c < 8) (m : Mnemonic) (w : Word) :
    matchesWord (jumpEntry m c) w = true ↔ bits w 15 13 = 1 ∧ bits w 12 10 = c := by
  rw [matchesWord_iff (by simp [jumpEntry])]
  simp only [jumpEntry, agrees_append, agrees_fieldRun, agrees_fixedRun (n := 3) h, agrees_fixedRun (n := 3) (v := 1) (by decide),
    List.length_append, length_fixedRun, length_fieldRun, bits]
  simp only [Nat.reduceAdd, Nat.reduceSub]
  tauto

theorem matchesWord_extEntry (m : Mnemonic) (w : Word) : matchesWord (stubEntry m extTemplate) w = true ↔ bits w 15 11 = 3 := by
  rw [matchesWord_iff rfl]
  simp [stubEntry, extTemplate, agrees_append, agrees_fixedRun (n := 5) (v := 3) (by decide), bits]

theorem matchesWord_multipleEntry {kk : Nat} (h : kk < 4) (m : Mnemonic) (w : Word) :
    matchesWord (stubEntry m (multipleTemplate kk)) w = true ↔ bits w 15 10 = 5 ∧ bits w 9 8 = kk := by
  rw [matchesWord_iff (by simp [stubEntry, multipleTemplate])]
  simp only [stubEntry, multipleTemplate, agrees_append, agrees_fieldRun, agrees_fixedRun (n := 8) (v := 0x14 + kk) (by omega), length_fieldRun, bits]
  simp only [Nat.reduceAdd, Nat.reduceSub, Nat.reducePow, true_and]
  omega

theorem matchesWord_rotateEntry {kk : Nat} (h : kk < 4) (m : Mnemonic) (w : Word) :
    matchesWord (stubEntry m (rotateTemplate kk)) w = true ↔ bits w 15 12 = 0 ∧ bits w 9 8 = kk ∧ bits w 7 5 = 2 := by
  rw [matchesWord_iff (by simp [stubEntry, rotateTemplate])]
  simp only [stubEntry, rotateTemplate, agrees_append, agrees_fieldRun, agrees_fixedRun (n := 2) h, agrees_fixedRun (n := 3) (v := 2) (by decide),
    agrees_fixedRun (n := 4) (v := 0) (by decide), List.length_append, length_fixedRun, length_fieldRun, bits]
  simp only [Nat.reduceAdd, Nat.reduceSub]
  tauto

/-! ### Modes (R88, R89, R91, R92) -/

theorem mem_sourceModes (sm : SMode) : sm ∈ sourceModes := by cases sm <;> decide
theorem mem_destModes (dm : DMode) : dm ∈ destModes := by cases dm <;> decide

theorem modeAs_smodeOf (src : Src) : modeAs (smodeOf src) = src.asBits := by cases src <;> rfl
theorem modeExt_smodeOf (src : Src) : modeExt (smodeOf src) = src.extWords := by cases src <;> rfl
theorem dmodeAd_dmodeOf (dst : Dst) : dmodeAd (dmodeOf dst) = dst.adBit := by cases dst <;> rfl
theorem dmodeExt_dmodeOf (dst : Dst) : dmodeExt (dmodeOf dst) = dst.extWords := by cases dst <;> rfl

theorem regField_of_modeReg (src : Src) : ∀ v ∈ modeReg (smodeOf src), src.regField = v := by
  cases src <;> simp [smodeOf, modeReg, Src.regField]

theorem regField_of_dmodeReg (dst : Dst) : ∀ v ∈ dmodeReg (dmodeOf dst), dst.regField = v := by
  cases dst <;> simp [dmodeOf, dmodeReg, Dst.regField]

/-- A source mode that accepts a register field is the mode that the fields select, or a generic one where that mode fixes the register. -/
theorem smode_eq_or_generic : ∀ sm ∈ sourceModes, ∀ n < 16, (∀ v ∈ modeReg sm, n = v) →
    sm = smodeOf (Src.ofFields (modeAs sm) n) ∨ modeReg sm = none ∧ (modeReg (smodeOf (Src.ofFields (modeAs sm) n))).isSome := by decide

/-- A destination mode that accepts a register field is the mode that the fields select, or the generic one where that mode fixes the register. -/
theorem dmode_eq_or_generic : ∀ dm ∈ destModes, ∀ n < 16, (∀ v ∈ dmodeReg dm, n = v) →
    dm = dmodeOf (Dst.ofFields (dmodeAd dm) n) ∨ dmodeReg dm = none ∧ (dmodeReg (dmodeOf (Dst.ofFields (dmodeAd dm) n))).isSome := by decide

/-! ### The descriptor of an instruction -/

/-- A descriptor is that of an instruction: the same mnemonic, modes and length (R96, R109). -/
def Describes (d : Descriptor) (i : Instr) : Prop := d.key = descriptorKey i ∧ d.length = i.length

theorem fmt1Entry_describes {p : Mnemonic × Nat} (hp : p ∈ fmt1Opcodes) (bw : Width) (src : Src) (dst : Dst) :
    Describes (fmt1Entry p.1 p.2 (smodeOf src) (dmodeOf dst)) (fmt1Of p.2 bw src dst) := by
  have hlen : (fmt1Entry p.1 p.2 (smodeOf src) (dmodeOf dst)).length = some (fmt1Length src dst) := by
    simp [fmt1Entry, fmt1Length, modeExt_smodeOf, dmodeExt_dmodeOf]
  fin_cases hp <;> exact ⟨rfl, hlen⟩

theorem fmt2Entry_describes {p : Mnemonic × Nat × Bool} (hp : p ∈ fmt2Opcodes) (bw : Width) (src : Src) :
    Describes (fmt2Entry p.1 p.2.1 p.2.2 (smodeOf src)) (fmt2Of p.2.1 bw src) := by
  have hlen : (fmt2Entry p.1 p.2.1 p.2.2 (smodeOf src)).length = some (fmt2Length src) := by
    simp [fmt2Entry, fmt2Length, modeExt_smodeOf]
  fin_cases hp <;> exact ⟨rfl, hlen⟩

theorem jumpEntry_describes {p : Mnemonic × Nat} (hp : p ∈ jumpConds) (off : BitVec 10) : Describes (jumpEntry p.1 p.2) (jumpOf p.2 off) := by
  fin_cases hp <;> exact ⟨rfl, rfl⟩

theorem multipleEntry_describes {p : Mnemonic × Nat} (hp : p ∈ multiples) (x : BitVec 8) :
    Describes (stubEntry p.1 (multipleTemplate p.2)) (multipleOf p.2 x) := by
  fin_cases hp <;> exact ⟨rfl, rfl⟩

theorem rotateEntry_describes {p : Mnemonic × Nat} (hp : p ∈ rotates) (n : BitVec 2) (aw : BitVec 1) (r : BitVec 4) :
    Describes (stubEntry p.1 (rotateTemplate p.2)) (rotateOf p.2 n aw r) := by
  fin_cases hp <;> exact ⟨rfl, rfl⟩

/-! ### Members of the catalog -/

/-- A descriptor of the catalog, by its class. -/
inductive Entry : Descriptor → Prop
  | fmt1 {p} (hp : p ∈ fmt1Opcodes) (sm : SMode) (dm : DMode) : Entry (fmt1Entry p.1 p.2 sm dm)
  | fmt2 {p} (hp : p ∈ fmt2Opcodes) (sm : SMode) : Entry (fmt2Entry p.1 p.2.1 p.2.2 sm)
  | reti : Entry retiEntry
  | jump {p} (hp : p ∈ jumpConds) : Entry (jumpEntry p.1 p.2)
  | ext : Entry (stubEntry .ext extTemplate)
  | multiple {p} (hp : p ∈ multiples) : Entry (stubEntry p.1 (multipleTemplate p.2))
  | rotate {p} (hp : p ∈ rotates) : Entry (stubEntry p.1 (rotateTemplate p.2))

theorem mem_entries {d : Descriptor} : d ∈ entries ↔ Entry d := by
  have hmem : d ∈ entries ↔ (∃ p ∈ fmt1Opcodes, ∃ sm dm, fmt1Entry p.1 p.2 sm dm = d) ∨
      (∃ p ∈ fmt2Opcodes, ∃ sm, fmt2Entry p.1 p.2.1 p.2.2 sm = d) ∨ d = retiEntry ∨ (∃ p ∈ jumpConds, jumpEntry p.1 p.2 = d) ∨
      d = stubEntry .ext extTemplate ∨ (∃ p ∈ multiples, stubEntry p.1 (multipleTemplate p.2) = d) ∨
      ∃ p ∈ rotates, stubEntry p.1 (rotateTemplate p.2) = d := by
    simp only [entries, fmt1Entries, fmt2Entries, jumpEntries, stubEntries, stubTemplates_eq, List.mem_append, List.mem_flatMap, List.mem_map,
      List.map_append, List.map_cons, List.map_map, List.mem_cons, mem_sourceModes, mem_destModes, true_and, or_assoc, Function.comp_apply,
      List.not_mem_nil, false_or]
  rw [hmem]
  constructor
  · rintro (⟨p, hp, sm, dm, rfl⟩ | ⟨p, hp, sm, rfl⟩ | rfl | ⟨p, hp, rfl⟩ | rfl | ⟨p, hp, rfl⟩ | ⟨p, hp, rfl⟩)
    · exact .fmt1 hp sm dm
    · exact .fmt2 hp sm
    · exact .reti
    · exact .jump hp
    · exact .ext
    · exact .multiple hp
    · exact .rotate hp
  · intro h
    cases h with
    | fmt1 hp sm dm => exact .inl ⟨_, hp, sm, dm, rfl⟩
    | fmt2 hp sm => exact .inr (.inl ⟨_, hp, sm, rfl⟩)
    | reti => simp
    | jump hp => exact .inr (.inr (.inr (.inl ⟨_, hp, rfl⟩)))
    | ext => simp
    | multiple hp => exact .inr (.inr (.inr (.inr (.inr (.inl ⟨_, hp, rfl⟩)))))
    | rotate hp => exact .inr (.inr (.inr (.inr (.inr (.inr ⟨_, hp, rfl⟩)))))

theorem exists_fmt1Opcode : ∀ op < 16, 4 ≤ op → ∃ p ∈ fmt1Opcodes, p.2 = op := by decide
theorem exists_fmt2Opcode : ∀ op < 6, ∃ p ∈ fmt2Opcodes, p.2.1 = op := by decide
theorem exists_jumpCond : ∀ c < 8, ∃ p ∈ jumpConds, p.2 = c := by decide
theorem exists_multiple : ∀ kk < 4, ∃ p ∈ multiples, p.2 = kk := by decide
theorem exists_rotate : ∀ kk < 4, ∃ p ∈ rotates, p.2 = kk := by decide

/-- An instruction that a word decodes to has a descriptor, which matches the word. -/
theorem exists_describes {w : Word} {i : Instr} (h : Says w (.instr i)) : ∃ d, Entry d ∧ matchesWord d w = true ∧ Describes d i := by
  cases h with
  | fmt1 h =>
    obtain ⟨-, has, hrs⟩ := src_ofFields (bits_lt w 5 4) (bits_lt w 11 8)
    obtain ⟨-, had, hrd⟩ := dst_ofFields (bits_lt w 7 7) (bits_lt w 3 0)
    obtain ⟨p, hp, ho⟩ := exists_fmt1Opcode _ (bits_lt w 15 12) h
    refine ⟨fmt1Entry p.1 p.2 _ _, .fmt1 hp _ _, ?_, ho ▸ fmt1Entry_describes hp _ _ _⟩
    rw [matchesWord_fmt1Entry (fmt1Opcodes_range p hp).2, modeAs_smodeOf, dmodeAd_dmodeOf, has, had]
    exact ⟨ho.symm, ⟨rfl, fun v hv => hrs.symm.trans (regField_of_modeReg _ v hv)⟩, rfl, fun v hv => hrd.symm.trans (regField_of_dmodeReg _ v hv)⟩
  | fmt2 h hop hb =>
    obtain ⟨-, has, hrs⟩ := src_ofFields (bits_lt w 5 4) (bits_lt w 3 0)
    obtain ⟨p, hp, ho⟩ := exists_fmt2Opcode _ hop
    obtain ⟨hlt, hfree⟩ := fmt2Opcodes_range p hp
    refine ⟨fmt2Entry p.1 p.2.1 p.2.2 _, .fmt2 hp _, ?_, ho ▸ fmt2Entry_describes hp _ _⟩
    rw [matchesWord_fmt2Entry (by omega), modeAs_smodeOf, has]
    have hbw : p.2.2 = false → bits w 6 6 = 0 := fun hf => hb.resolve_left fun he => by
      rw [hfree.2 (ho ▸ he)] at hf; cases hf
    exact ⟨h, ho.symm, hbw, rfl, fun v hv => hrs.symm.trans (regField_of_modeReg _ v hv)⟩
  | reti h => exact ⟨_, .reti, (matchesWord_retiEntry w).2 h, rfl, rfl⟩
  | jump h =>
    obtain ⟨p, hp, hc⟩ := exists_jumpCond _ (bits_lt w 12 10)
    exact ⟨_, .jump hp, (matchesWord_jumpEntry (jumpConds_range p hp) _ w).2 ⟨h, hc.symm⟩, hc ▸ jumpEntry_describes hp _⟩
  | ext h => exact ⟨_, .ext, (matchesWord_extEntry _ w).2 h, rfl, rfl⟩
  | multiple h =>
    obtain ⟨p, hp, hk⟩ := exists_multiple _ (bits_lt w 9 8)
    exact ⟨_, .multiple hp, (matchesWord_multipleEntry (multiples_range p hp) _ w).2 ⟨h, hk.symm⟩, hk ▸ multipleEntry_describes hp _⟩
  | rotate h h5 =>
    obtain ⟨p, hp, hk⟩ := exists_rotate _ (bits_lt w 9 8)
    exact ⟨_, .rotate hp, (matchesWord_rotateEntry (rotates_range p hp) _ w).2 ⟨h, hk.symm, h5⟩, hk ▸ rotateEntry_describes hp _ _ _⟩

/-! ### Among the descriptors that match a word, the one of its instruction has the most fixed bits (R98, R100) -/

theorem fixedCount_fmt1Entry (m : Mnemonic) (op : Nat) (sm : SMode) (dm : DMode) : fixedCount (fmt1Entry m op sm dm) =
    7 + (if (modeReg sm).isSome then 4 else 0) + (if (dmodeReg dm).isSome then 4 else 0) := by
  simp only [fixedCount_eq, fmt1Entry, fixedIn_append, fixedIn_runOf, fixedIn_fixedRun, fixedIn_fieldRun]
  omega

theorem fmt1Entry_eq_or_fewer (m : Mnemonic) (op : Nat) {sm : SMode} {dm : DMode} {rs rd : Nat} (hrs : rs < 16) (hrd : rd < 16)
    (hs : ∀ v ∈ modeReg sm, rs = v) (hd : ∀ v ∈ dmodeReg dm, rd = v) :
    let d := fmt1Entry m op (smodeOf (Src.ofFields (modeAs sm) rs)) (dmodeOf (Dst.ofFields (dmodeAd dm) rd))
    fmt1Entry m op sm dm = d ∨ fixedCount (fmt1Entry m op sm dm) < fixedCount d := by
  rcases smode_eq_or_generic sm (mem_sourceModes sm) rs hrs hs with hs | ⟨hs, hs'⟩ <;>
    rcases dmode_eq_or_generic dm (mem_destModes dm) rd hrd hd with hd | ⟨hd, hd'⟩
  · exact .inl (by rw [← hs, ← hd])
  · right; rw [← hs]; simp [fixedCount_fmt1Entry, hd, hd']
  · right; rw [← hd]; simp [fixedCount_fmt1Entry, hs, hs']
  · right; simp [fixedCount_fmt1Entry, hs, hs', hd, hd']

theorem fmt2Entry_eq_or_fewer (m : Mnemonic) (op : Nat) (bwFree : Bool) {sm : SMode} {r : Nat} (hr : r < 16) (hs : ∀ v ∈ modeReg sm, r = v) :
    let d := fmt2Entry m op bwFree (smodeOf (Src.ofFields (modeAs sm) r))
    fmt2Entry m op bwFree sm = d ∨ fixedCount (fmt2Entry m op bwFree sm) < fixedCount d := by
  rcases smode_eq_or_generic sm (mem_sourceModes sm) r hr hs with hs | ⟨hs, hs'⟩
  · exact .inl (by rw [← hs])
  · right; simp [fixedCount_eq, fmt2Entry, hs, hs']

/-- A descriptor that matches a word: the word decodes, and the descriptor is its instruction's or has fewer fixed bits. -/
theorem eq_or_fewer_of_matchesWord {e : Descriptor} {w : Word} (he : Entry e) (hm : matchesWord e w = true) :
    ∃ i, Says w (.instr i) ∧ ∃ d, Entry d ∧ Describes d i ∧ (e = d ∨ fixedCount e < fixedCount d) := by
  cases he with
  | @fmt1 p hp sm dm =>
    obtain ⟨h4, h16⟩ := fmt1Opcodes_range p hp
    obtain ⟨ho, ⟨has, hrs⟩, had, hrd⟩ := (matchesWord_fmt1Entry h16 _ sm dm w).1 hm
    exact ⟨_, .fmt1 (ho ▸ h4), fmt1Entry p.1 p.2 _ _, .fmt1 hp _ _, ho ▸ fmt1Entry_describes hp _ _ _,
      has ▸ had ▸ fmt1Entry_eq_or_fewer _ _ (bits_lt w 11 8) (bits_lt w 3 0) hrs hrd⟩
  | @fmt2 p hp sm =>
    obtain ⟨hlt, hfree⟩ := fmt2Opcodes_range p hp
    obtain ⟨hhi, ho, hbw, has, hrs⟩ := (matchesWord_fmt2Entry (by omega) _ _ sm w).1 hm
    have hb : bits w 9 7 % 2 = 0 ∨ bits w 6 6 = 0 := by
      cases hf : p.2.2 with
      | false => exact .inr (hbw hf)
      | true => exact .inl (ho ▸ hfree.1 hf)
    exact ⟨_, .fmt2 hhi (ho ▸ hlt) hb, fmt2Entry p.1 p.2.1 p.2.2 _, .fmt2 hp _, ho ▸ fmt2Entry_describes hp _ _,
      has ▸ fmt2Entry_eq_or_fewer _ _ _ (bits_lt w 3 0) hrs⟩
  | reti => exact ⟨_, .reti ((matchesWord_retiEntry w).1 hm), _, .reti, ⟨rfl, rfl⟩, .inl rfl⟩
  | @jump p hp =>
    obtain ⟨hhi, hc⟩ := (matchesWord_jumpEntry (jumpConds_range p hp) _ w).1 hm
    exact ⟨_, .jump hhi, _, .jump hp, hc ▸ jumpEntry_describes hp _, .inl rfl⟩
  | ext => exact ⟨_, .ext ((matchesWord_extEntry _ w).1 hm), _, .ext, ⟨rfl, rfl⟩, .inl rfl⟩
  | @multiple p hp =>
    obtain ⟨hhi, hk⟩ := (matchesWord_multipleEntry (multiples_range p hp) _ w).1 hm
    exact ⟨_, .multiple hhi, _, .multiple hp, hk ▸ multipleEntry_describes hp _, .inl rfl⟩
  | @rotate p hp =>
    obtain ⟨hhi, hk, h5⟩ := (matchesWord_rotateEntry (rotates_range p hp) _ w).1 hm
    exact ⟨_, .rotate hhi h5, _, .rotate hp, hk ▸ rotateEntry_describes hp _ _ _, .inl rfl⟩

/-! ### Leaf resolution of a word (R100, R101) -/

theorem resolveLeaf_of_instr {w : Word} {i : Instr} (h : decodeWord w = .instr i) :
    ∃ d, resolveLeaf (matching entries w 16) = .ok (some d) ∧ Describes d i := by
  obtain ⟨d, hd, hm, hdi⟩ := exists_describes (decodeWord_eq_iff.1 h)
  refine ⟨d, resolveLeaf_eq_some (nodup_entries.filter _) (List.mem_filter.2 ⟨mem_entries.2 hd, hm⟩) fun e he => ?_, hdi⟩
  obtain ⟨he, hme⟩ := List.mem_filter.1 he
  obtain ⟨j, hj, d', hd', hdj, hle⟩ := eq_or_fewer_of_matchesWord (mem_entries.1 he) hme
  obtain rfl : i = j := by simpa [h] using hj.decodeWord_eq
  obtain rfl : d = d' := eq_of_key_eq (mem_entries.2 hd) (mem_entries.2 hd') (hdi.1.trans hdj.1.symm)
  exact hle

theorem resolveLeaf_of_noMatch {w : Word} {why : NoMatch} (h : decodeWord w = .noMatch why) :
    resolveLeaf (matching entries w 16) = .ok none := by
  have hnil : matching entries w 16 = [] := List.filter_eq_nil_iff.2 fun e he hm => by
    obtain ⟨i, hi, -⟩ := eq_or_fewer_of_matchesWord (mem_entries.1 he) hm
    cases h.symm.trans hi.decodeWord_eq
  rw [hnil]
  rfl

theorem trie_of_catalog {S : List Descriptor} (h : catalog = .ok S) : trie = buildTrie 16 S := by
  unfold trie
  rw [h]

theorem trie_eq : trie = buildTrie 16 entries := trie_of_catalog catalog_eq

theorem exists_trie : ∃ t, trie = .ok t := by
  obtain ⟨t, ht⟩ := exists_buildTrie (S := entries) le_rfl fun w => by
    cases h : decodeWord w with
    | instr i =>
      obtain ⟨d, hd, -⟩ := resolveLeaf_of_instr h
      exact ⟨some d, hd⟩
    | noMatch why => exact ⟨none, resolveLeaf_of_noMatch h⟩
  exact ⟨t, trie_eq.trans ht⟩

theorem walkTrie_of_resolveLeaf {t : Trie} (ht : trie = .ok t) {w : Word} {r : Option Descriptor}
    (h : resolveLeaf (matching entries w 16) = .ok r) : walkTrie t w = r := by
  rw [resolveLeaf_matching (trie_eq ▸ ht) w] at h
  exact Except.ok.inj h

end Sys2Proof.Machine

namespace Sys2Proof.Proofs

open Sys2Proof.Machine

/-- Settles O6: the catalog written out has 720 entries, and the trie is built because every word's leaf resolves. -/
theorem catalogBuilds : Obligations.CatalogBuilds := by
  unfold Obligations.CatalogBuilds
  exact ⟨⟨entries, catalog_eq, entries_length⟩, exists_trie⟩

/-- Settles O7: the walk is the leaf resolution of the word, and that is the descriptor of what the decoder gives. -/
theorem trieAgreesWithDecoder : Obligations.TrieAgreesWithDecoder := by
  unfold Obligations.TrieAgreesWithDecoder
  obtain ⟨t, ht⟩ := exists_trie
  refine ⟨t, ht, fun w => ?_⟩
  cases h : decodeWord w with
  | instr i =>
    obtain ⟨d, hd, hkey, hlen⟩ := resolveLeaf_of_instr h
    exact ⟨d, walkTrie_of_resolveLeaf ht hd, hkey, hlen⟩
  | noMatch why => exact walkTrie_of_resolveLeaf ht (resolveLeaf_of_noMatch h)

end Sys2Proof.Proofs
end

section
/-! The step around its fetch: what follows an opcode word that decodes, the halt word, and a word that matches nothing (40_pipeline.md R120–R123,
60_exceptions.md R241). -/

namespace Sys2Proof.Machine

section
variable {s : State} {w : Word}

/-- The halt word ends the step before decode (40_pipeline.md R122). -/
theorem step_of_haltWord (hc : wellFormedParams s.params) (hf : s.faulted = none) (hw : wordAt s s.pc = some s.params.haltWord) :
    step s = .next { s with trace := [.fetch s.pc s.params.haltWord], outcome := some (.halted false) } := by
  have hfetch := fetchWord_ok (s := { s with trace := [] }) hw
  rw [step_ready hc hf, fetchDecode, hfetch]
  simp only [↓reduceIte]
  rfl

/-- A word that matches nothing ends the step after its fetch (40_pipeline.md R123). -/
theorem step_of_noMatch {why : NoMatch} (hc : wellFormedParams s.params) (hf : s.faulted = none) (hw : wordAt s s.pc = some w)
    (hn : w ≠ s.params.haltWord) (hd : decodeWord w = .noMatch why) :
    step s = .fault (takeFault (.decodeFailure w s.pc) { s with trace := [.fetch s.pc w] }) := by
  have hfetch := fetchWord_ok (s := { s with trace := [] }) hw
  rw [step_ready hc hf, fetchDecode, hfetch]
  simp only [if_neg hn, hd]
  rfl

end

end Sys2Proof.Machine

namespace Sys2Proof.Proofs

open Sys2Proof.Machine

/-- Settles O44: a word at PC that decodes is what the step runs. -/
theorem stepRunsDecoded : Obligations.StepRunsDecoded := by
  unfold Obligations.StepRunsDecoded
  exact fun s w i hc hf hw hn hd => step_of_wordAt hc hf hw hn hd

/-- Settles O46. The halted state has the PC, the memory and the configuration it had, so that it halts again, with the same trace and outcome. -/
theorem haltWordHalts : Obligations.HaltWordHalts := by
  unfold Obligations.HaltWordHalts
  intro s hc hf hw
  have hstep := step_of_haltWord hc hf hw
  exact ⟨_, hstep, rfl, hostStep_of_halted hstep rfl, step_of_haltWord hc hf ((wordAt_congr rfl rfl _).trans hw)⟩

/-- Settles O47: the fault is taken on the state that the fetch leaves. -/
theorem noMatchRaisesDecodeFailure : Obligations.NoMatchRaisesDecodeFailure := by
  unfold Obligations.NoMatchRaisesDecodeFailure
  exact fun s w why hc hf hw hn hd => step_of_noMatch hc hf hw hn hd

end Sys2Proof.Proofs
end

section
/-! The whole answer of Execute as the numbers that the statements are said in: the flags beside the results (40_pipeline.md R145–R148), and the
fmt1 instructions that complete with them (41_fmt1.md R172–R182). -/

namespace Sys2Proof.Machine

open Sys2Proof.Claims

/-! ### N and V as numbers -/

theorem isNeg_eq_negative {w : Width} {v : Word} (h : v.toNat < size w) : isNeg w v = negative w v := by
  rw [isNeg_eq, negative, decide_eq_decide]
  cases w <;> simp only [size, half, widthBits] at h ⊢ <;> omega

theorem sumResult_toNat (w : Width) (a b : Word) (cin : Nat) : (sumResult w a b cin).toNat = (a.toNat + b.toNat + cin) % size w := by
  rw [sumResult, BitVec.toNat_ofNat]
  cases w <;> simp only [size] <;> omega

theorem size_pos (w : Width) : 0 < size w := by cases w <;> decide

/-- Operands of one sign and a result of the other: the signed sum does not fit. -/
theorem overflow_eq_outOfRange {w : Width} {a b : Word} (ha : a.toNat < size w) (hb : b.toNat < size w) {cin : Nat} (hc : cin ≤ 1) :
    (negative w a == negative w b && negative w (sumResult w a b cin) != negative w a) =
      outOfRange w (signed w a.toNat + signed w b.toNat + cin) := by
  rw [Bool.eq_iff_iff]
  simp only [negative, outOfRange, Bool.and_eq_true, Bool.or_eq_true, beq_iff_eq, bne_iff_ne, ne_eq, decide_eq_decide, decide_eq_true_eq]
  simp only [sumResult_toNat, signed]
  cases w <;> simp only [size, half] at ha hb ⊢ <;> split_ifs <;> omega

/-! ### Sums and differences with their flags -/

theorem addWithCarry_eq {w : Width} {a b : Word} (ha : a.toNat < size w) (hb : b.toNat < size w) (cin : Bool) :
    addWithCarry w a b cin = ⟨sumResult w a b cin.toNat, some (sumFlags w a b cin.toNat), 0⟩ := by
  have hres := addWithCarry_res ha hb cin
  have hlt : (sumResult w a b cin.toNat).toNat < size w := by rw [sumResult_toNat]; exact Nat.mod_lt _ (size_pos w)
  have hcarry : decide ((widthMask w).toNat < a.toNat + b.toNat + cin.toNat) = decide (size w ≤ a.toNat + b.toNat + cin.toNat) := by
    cases w <;> rfl
  simp only [addWithCarry, trunc_of_lt_size ha, trunc_of_lt_size hb] at hres ⊢
  simp only [hres, hcarry, isNeg_eq_negative ha, isNeg_eq_negative hb, isNeg_eq_negative hlt,
    overflow_eq_outOfRange ha hb (Bool.toNat_le cin), sumFlags]

theorem sumFlags_complement {w : Width} {dst src : Word} (hd : dst.toNat < size w) (hs : src.toNat < size w) (cin : Bool) :
    sumFlags w dst (complement w src) cin.toNat = diffFlags w dst src (1 - cin.toNat) := by
  have hc := complement_toNat hs
  have hlt : (complement w src).toNat < size w := by omega
  have hres : sumResult w dst (complement w src) cin.toNat = diffResult w dst src (1 - cin.toNat) :=
    (addWithCarry_res hd hlt cin).symm.trans (addWithCarry_complement_res hd hs cin)
  have hcin := Bool.toNat_le cin
  have hsigned : signed w (complement w src).toNat = -1 - signed w src.toNat := by
    rw [hc, signed, signed]
    cases w <;> simp only [size, half] at hs ⊢ <;> split_ifs <;> omega
  have hborrow : signed w dst.toNat + signed w (complement w src).toNat + cin.toNat =
      signed w dst.toNat - signed w src.toNat - (1 - cin.toNat : Nat) := by omega
  have hcarry : decide (size w ≤ dst.toNat + (complement w src).toNat + cin.toNat) = decide (src.toNat + (1 - cin.toNat) ≤ dst.toNat) := by
    rw [decide_eq_decide]; omega
  rw [sumFlags, diffFlags, hres, hborrow, hcarry]

theorem addWithCarry_complement_eq {w : Width} {dst src : Word} (hd : dst.toNat < size w) (hs : src.toNat < size w) (cin : Bool) :
    addWithCarry w dst (complement w src) cin =
      ⟨diffResult w dst src (1 - cin.toNat), some (diffFlags w dst src (1 - cin.toNat)), 0⟩ := by
  have hlt : (complement w src).toNat < size w := by rw [complement_toNat hs]; omega
  rw [addWithCarry_eq hd hlt, sumFlags_complement hd hs, ← addWithCarry_complement_res hd hs, addWithCarry_res hd hlt]

/-! ### Logic with its flags -/

theorem withAltCarry_eq {w : Width} {res : Word} (h : res.toNat < size w) (v : Bool) :
    withAltCarry w res v = ⟨res, some (logicFlags w res v), 0⟩ := by
  rw [withAltCarry, isNeg_eq_negative h]; rfl

theorem aluAnd_eq {w : Width} {a b : Word} (hb : b.toNat < size w) (c : Bool) (n : Nat) :
    aluAnd w a b c n = ⟨a &&& b, some (logicFlags w (a &&& b) false), 0⟩ := by
  have hlt : (a &&& b).toNat < size w := by rw [BitVec.toNat_and]; exact Nat.lt_of_le_of_lt Nat.and_le_right hb
  rw [aluAnd, trunc_of_lt_size hlt, withAltCarry_eq hlt]

theorem aluXor_eq {w : Width} {a b : Word} (ha : a.toNat < size w) (hb : b.toNat < size w) (c : Bool) (n : Nat) :
    aluXor w a b c n = ⟨a ^^^ b, some (logicFlags w (a ^^^ b) (decide (half w ≤ a.toNat) && decide (half w ≤ b.toNat))), 0⟩ := by
  have hlt : (a ^^^ b).toNat < size w := by
    rw [BitVec.toNat_xor, size_eq] at *
    exact Nat.xor_lt_two_pow ha hb
  rw [aluXor, trunc_of_lt_size hlt, withAltCarry_eq hlt, isNeg_eq_negative ha, isNeg_eq_negative hb]
  rfl

/-! ### Decimal sums with their flags -/

/-- The carry of a digit-wise sum is whether the sum of the numbers has a digit more. -/
theorem addDigits_snd {k a b c : Nat} (ha : digitsValid k a) (hb : digitsValid k b) (hc : c ≤ 1) :
    (addDigits k a b c).2 = (decimalValue k a + decimalValue k b + c) / 10 ^ k := by
  induction k generalizing a b c with
  | zero => simp [addDigits, decimalValue]
  | succ k ih =>
    simp only [digitsValid, Bool.and_eq_true, decide_eq_true_eq] at ha hb
    obtain ⟨ha0, ha⟩ := ha
    obtain ⟨hb0, hb⟩ := hb
    simp only [addDigits, decimalValue]
    rw [ih ha hb (by split <;> omega), Nat.pow_succ', ← Nat.div_div_eq_div_mul]
    congr 1
    split <;> omega

theorem packDecimal_lt (k n : Nat) : packDecimal k n < 16 ^ k := by
  induction k generalizing n with
  | zero => simp [packDecimal]
  | succ k ih =>
    have := ih (n / 10)
    rw [packDecimal, Nat.pow_succ']
    omega

theorem decimalResult_lt (w : Width) (a b : Word) (cin : Nat) : (decimalResult w a b cin).toNat < size w := by
  have h := packDecimal_lt (digits w) (decimalSum w a b cin % 10 ^ digits w)
  rw [decimalResult, BitVec.toNat_ofNat]
  exact Nat.lt_of_le_of_lt (Nat.mod_le ..) (by cases w <;> exact h)

theorem aluDadd_decimal {s : State} {w : Width} {a b : Word} (ha : isDecimal w a) (hb : isDecimal w b) :
    aluDadd w a b (carryBit s.sr) s.draws =
      ⟨decimalResult w a b (carryIn s), some (decimalFlags w a b (carryIn s) (Config.freeBit s.draws)), 1⟩ := by
  have hva := (digitsValid_iff_isDecimal w a).2 ha
  have hvb := (digitsValid_iff_isDecimal w b).2 hb
  have hres : (aluDadd w a b (carryBit s.sr) s.draws).res = decimalResult w a b (carryIn s) := by
    rw [aluDadd_res, daddResult, if_pos ⟨ha, hb⟩]
  have hcarry : ((addDigits (digitCount w) a.toNat b.toNat (carryBit s.sr).toNat).2 != 0) =
      decide (10 ^ digits w ≤ decimalSum w a b (carryIn s)) := by
    rw [addDigits_snd hva hvb (Bool.toNat_le _), Bool.eq_iff_iff, bne_iff_ne, decide_eq_true_eq, ← digits_eq, Ne, Nat.div_eq_zero_iff_lt (by simp),
      Nat.not_lt]
    rfl
  simp only [aluDadd, hva, hvb, Bool.and_self, ↓reduceIte] at hres ⊢
  simp only [hres, hcarry, isNeg_eq_negative (decimalResult_lt ..), decimalFlags]

theorem aluDadd_other {s : State} {w : Width} {a b : Word} (h : ¬(isDecimal w a ∧ isDecimal w b)) :
    ∃ f, aluDadd w a b (carryBit s.sr) s.draws = ⟨freeResult s w, some f, 5⟩ := by
  have hv : ¬(digitsValid (digitCount w) a.toNat && digitsValid (digitCount w) b.toNat) = true := by
    rwa [Bool.and_eq_true, digitsValid_iff_isDecimal, digitsValid_iff_isDecimal]
  rw [aluDadd, if_neg hv, trunc_eq_ofNat]
  exact ⟨_, rfl⟩

/-! ### Completion with a result and flags that are known -/

/-- The write of nothing does not depend on the value (40_pipeline.md R142). -/
theorem regsAfter_none (ctx : Ctx) (s : State) (src : Src) (v v' : Word) (flags : Option Flags) :
    regsAfter ctx s src .none v flags = regsAfter ctx s src .none v' flags := by
  funext r
  cases r <;> rfl

section
variable {i : Instr} {m : Mnemonic} {alu : Alu} {w : Width} {src : Src} {dst : Dst} {s : State} {a b res : Word} {l : Loc} {flags : Option Flags}
  {n : Nat}

theorem operands_lt_size (ha : srcValue (fmt1Ctx s w src dst) s src = some a) (hb : dstValue (fmt1Ctx s w src dst) s src l = some b) :
    a.toNat < size w ∧ b.toNat < size w := size_eq w ▸ ⟨srcValue_lt ha, dstValue_lt hb⟩

/-- An fmt1 instruction that reads and writes its destination completes with what its operation answers. -/
theorem fmt1_completes_of_alu (hrun : exec i s = runFmt1 i m .readWrite alu w src dst s) (hwf : src.wellFormed)
    (ha : srcValue (fmt1Ctx s w src dst) s src = some a) (hl : dstLoc (fmt1Ctx s w src dst) s src dst = some l)
    (hb : dstValue (fmt1Ctx s w src dst) s src l = some b) (halu : alu w a b (carryBit s.sr) s.draws = ⟨res, flags, n⟩)
    (hw : canWrite s m w res l) :
    ∃ t, exec i s = .next t ∧
      Completed s t (regsAfter (fmt1Ctx s w src dst) s src l res flags) w l.addr res (isConstant src) n := by
  have h := runFmt1_completes (i := i) (m := m) (use := .readWrite) (alu := alu) hwf ha hl hb (by rw [halu]; exact hw)
  rwa [halu, ← hrun] at h

/-- An fmt1 instruction that only reads its destination completes with the flags that its operation answers. -/
theorem fmt1_flags_of_alu (hrun : exec i s = runFmt1 i m .read alu w src dst s) (hwf : src.wellFormed)
    (ha : srcValue (fmt1Ctx s w src dst) s src = some a) (hl : dstLoc (fmt1Ctx s w src dst) s src dst = some l)
    (hb : dstValue (fmt1Ctx s w src dst) s src l = some b) (halu : alu w a b (carryBit s.sr) s.draws = ⟨res, flags, 0⟩) :
    Fmt1Gives i w src dst s .none 0#16 flags := by
  obtain ⟨t, ht, hc⟩ := runFmt1_completes (i := i) (m := m) (use := .read) (alu := alu) hwf ha hl hb rfl
  rw [halu] at hc
  refine ⟨t, hrun.trans ht, regsAfter_none _ _ _ res 0#16 flags ▸ hc.regs, hc.bytes, hc.outcome, hc.params, hc.watch, hc.faulted, hc.draws⟩

end

end Sys2Proof.Machine

namespace Sys2Proof.Proofs

open Sys2Proof.Machine Sys2Proof.Claims

/-- Settles O15: ADD and ADDC are the one adder, without and with C. -/
theorem addCompletes : Obligations.AddCompletes := by
  unfold Obligations.AddCompletes
  intro w src dst s a b l hwf ha hl hb
  have hsrc := fmt1_source_wellFormed (w := w) hwf
  obtain ⟨hlta, hltb⟩ := operands_lt_size ha hb
  exact ⟨fmt1_completes_of_alu rfl hsrc ha hl hb (addWithCarry_eq hltb hlta false),
    fmt1_completes_of_alu rfl hsrc ha hl hb (addWithCarry_eq hltb hlta (carryBit s.sr))⟩

/-- Settles O16: SUB and SUBC add the complement, with a carry in of 1 and of C. -/
theorem subCompletes : Obligations.SubCompletes := by
  unfold Obligations.SubCompletes
  intro w src dst s a b l hwf ha hl hb
  have hsrc := fmt1_source_wellFormed (w := w) hwf
  obtain ⟨hlta, hltb⟩ := operands_lt_size ha hb
  exact ⟨fmt1_completes_of_alu rfl hsrc ha hl hb (addWithCarry_complement_eq hltb hlta true),
    fmt1_completes_of_alu rfl hsrc ha hl hb (addWithCarry_complement_eq hltb hlta (carryBit s.sr))⟩

/-- Settles O17: CMP is the subtraction and BIT the AND of a course that only reads its destination. -/
theorem cmpBitComplete : Obligations.CmpBitComplete := by
  unfold Obligations.CmpBitComplete
  intro w src dst s a b l hwf ha hl hb
  have hsrc := fmt1_source_wellFormed (w := w) hwf
  obtain ⟨hlta, hltb⟩ := operands_lt_size ha hb
  exact ⟨fmt1_flags_of_alu rfl hsrc ha hl hb (addWithCarry_complement_eq hltb hlta true),
    fmt1_flags_of_alu rfl hsrc ha hl hb (aluAnd_eq hltb _ _)⟩

/-- Settles O18. The digit-wise sum is the sum of the numbers that the digits stand for; V is the next free bit. -/
theorem daddCompletes : Obligations.DaddCompletes := by
  unfold Obligations.DaddCompletes
  intro w src dst s a b l hwf ha hl hb hda hdb hw
  obtain ⟨t, ht⟩ := fmt1_completes_of_alu (i := .dadd w src dst) rfl (fmt1_source_wellFormed (w := w) hwf) ha hl hb (aluDadd_decimal hda hdb) hw
  exact ⟨t, _, ht⟩

/-- Settles O19: with a digit above 9, DADD takes the other branch, which draws its result and its flags. -/
theorem daddOnOtherDigits : Obligations.DaddOnOtherDigits := by
  unfold Obligations.DaddOnOtherDigits
  intro w src dst s a b v l hwf ha hl hb hd hv hw
  subst hv
  obtain ⟨f, hf⟩ := aluDadd_other (s := s) hd
  obtain ⟨t, ht⟩ := fmt1_completes_of_alu (i := .dadd w src dst) rfl (fmt1_source_wellFormed (w := w) hwf) ha hl hb hf hw
  exact ⟨t, f, ht⟩

/-- Settles O20, by the operations' results and flags as numbers. -/
theorem xorAndComplete : Obligations.XorAndComplete := by
  unfold Obligations.XorAndComplete
  intro w src dst s a b l hwf ha hl hb
  have hsrc := fmt1_source_wellFormed (w := w) hwf
  obtain ⟨hlta, hltb⟩ := operands_lt_size ha hb
  exact ⟨fmt1_completes_of_alu rfl hsrc ha hl hb (aluXor_eq hlta hltb _ _),
    fmt1_completes_of_alu rfl hsrc ha hl hb (aluAnd_eq hltb _ _)⟩

end Sys2Proof.Proofs
end

section
/-! The flag merge (40_pipeline.md R149), bit by bit and at the end of every course. -/

namespace Sys2Proof.Machine

open Sys2Proof.Claims

/-! ### The bits of SR -/

/-- The flags stand at bits 0, 1, 2 and 8 (40_pipeline.md R149). -/
theorem getLsbD_flagBits (f : Flags) (k : Nat) :
    (flagBits f).getLsbD k = if k = 0 then f.c else if k = 1 then f.z else if k = 2 then f.n else if k = 8 then f.v else false := by
  obtain ⟨c, z, n, v⟩ := f
  by_cases hk : k < 16
  · revert c z n v
    interval_cases k <;> decide
  · rw [BitVec.getLsbD_of_ge _ _ (Nat.not_lt.1 hk), if_neg (by omega), if_neg (by omega), if_neg (by omega), if_neg (by omega)]

theorem getLsbD_flagMask (k : Nat) : (0x0107#16).getLsbD k = decide (k = 0 ∨ k = 1 ∨ k = 2 ∨ k = 8) := by
  by_cases hk : k < 16
  · interval_cases k <;> rfl
  · rw [BitVec.getLsbD_of_ge _ _ (Nat.not_lt.1 hk), eq_comm, decide_eq_false_iff_not]; omega

theorem getLsbD_mergeFlags (sr : Word) (f : Flags) (k : Nat) : (mergeFlags sr f).getLsbD k =
    if k = 0 then f.c else if k = 1 then f.z else if k = 2 then f.n else if k = 8 then f.v else sr.getLsbD k := by
  rw [mergeFlags, BitVec.getLsbD_or, BitVec.getLsbD_and, BitVec.getLsbD_not, getLsbD_flagMask, getLsbD_flagBits]
  split_ifs with h0 h1 h2 h8
  · simp [h0]
  · simp [h1]
  · simp [h2]
  · simp [h8]
  · by_cases hk : k < 16
    · simp [h0, h1, h2, h8, hk]
    · simp [hk, BitVec.getLsbD_of_ge sr k (Nat.not_lt.1 hk)]

/-! ### The end of a step -/

/-- A next state whose trace ends with the PC write and then, if flags are merged, the write of SR. -/
def EndsWithWriteBack (t : State) (merges : Bool) : Prop :=
  ∃ before, t.trace = before ++ if merges then [.regWrite .pc t.pc, .regWrite .sr t.sr] else [.regWrite .pc t.pc]

theorem endsWithWriteBack_retire (cg : Bool) (pcNext : Word) (flags : Option Flags) (wr : Written) (u : State) :
    EndsWithWriteBack (retire cg (writeBack pcNext flags wr u)) (flags.isSome && wr != .sr) :=
  ⟨u.trace, writeBack_trace pcNext flags wr u⟩

/-! ### Which destination was written -/

theorem writtenOf_ne_sr (l : Loc) (v : Word) : (writtenOf l v != .sr) = (l != .reg .sr) := by
  cases l with
  | reg r => cases r <;> rfl
  | none | mem ea => rfl

/-- A write that completes tells the rest of Write-Back which location it wrote. -/
theorem written_of_writeLoc {m : Mnemonic} {w : Width} {l : Loc} {v : Word} {s t : State} {wr : Written} (h : writeLoc m w l v s = .ok wr t) :
    wr = writtenOf l v := by
  cases hw : canWrite s m w v l with
  | true => obtain ⟨u, hu, -⟩ := writeLoc_ok hw; rw [hu] at h; cases h; rfl
  | false => obtain ⟨e, he⟩ := writeLoc_not hw; rw [he] at h; cases h

theorem destLoc_ne_sr {dst : Dst} {c : Word} {s t : State} {l : Loc} (h : destLoc dst c s = .ok l t) : (l != .reg .sr) = (dst != .reg .sr) := by
  cases dst with
  | reg r => cases h; cases r <;> rfl
  | idx r =>
    simp only [destLoc] at h
    split at h
    · cases h
    · obtain ⟨x, u, -, hx⟩ := andThen_eq_ok h
      cases hx; rfl
  | sym | abs =>
    obtain ⟨x, u, -, hx⟩ := andThen_eq_ok h
    cases hx; rfl

theorem srcLoc_ne_sr (ctx : Ctx) (s : State) (src : Src) : (srcLoc ctx s src != .reg .sr) = (src != .reg .sr) := by
  cases src with
  | reg r => cases r <;> rfl
  | imm | cg0 | cg1 | cg2 | cgm1 | cg4 | cg8 => rfl
  | idx r | sym | abs | ind r | inc r =>
    simp only [srcLoc]
    split <;> rfl

/-! ### What a routine that completed has done -/

/-- A source routine that completes has read a source that has a value. -/
theorem readSource_start_eq_ok {i : Instr} {ctx : Ctx} {s t : State} {src : Src} {a : SrcOut} (hwf : src.wellFormed)
    (h : readSource ctx src (s.pc + 2#16) (startStep i s) = .ok a t) :
    a.loc = srcLoc ctx s src ∧ Quiet (startStep i s) t ∧ ∀ r, t.readReg r = regAfterSrc ctx s src r := by
  cases hv : srcValue ctx s src with
  | some v =>
    obtain ⟨u, hu, hq, hr⟩ := readSource_start_ok i hwf hv
    rw [hu] at h
    cases h
    exact ⟨rfl, hq, hr⟩
  | none =>
    obtain ⟨e, u, he⟩ := readSource_none (s := startStep i s) ((srcValue_startStep i ctx s src).trans hv)
    exact nomatch he.symm.trans h

/-- A push that completes has stored its value below SP. -/
theorem pushed_of_pushValue {w : Width} {v : Word} {s t : State} (h : pushValue w v s = .ok () t) : Pushed s t w v := by
  cases hc : !isOdd (s.sp - 2#16) && canStore s w (s.sp - 2#16) with
  | true =>
    simp only [Bool.and_eq_true, Bool.not_eq_true'] at hc
    obtain ⟨u, hu, hp⟩ := pushValue_ok (w := w) v hc.1 hc.2
    rw [hu] at h
    cases h
    exact hp
  | false =>
    obtain ⟨e, u, he⟩ := pushValue_not (w := w) v hc
    exact nomatch he.symm.trans h

/-- The check of a new PC changes nothing. -/
theorem state_of_checkPc {w : Width} {v : Word} {s t : State} {wr : Written} (h : checkPc w v s = .ok wr t) : t = s := by
  unfold checkPc at h
  split at h
  · cases h
  · split at h
    · cases h
    · cases h; rfl

/-! ### The end of each course -/

section
variable {i : Instr} {m : Mnemonic} {use : DstUse} {alu : Alu} {w : Width} {src : Src} {dst : Dst} {s t : State} {sets : Bool}

theorem runFmt1_endsWithWriteBack (hsets : ∀ a b c n, (alu w a b c n).flags.isSome = sets)
    (h : runFmt1 i m use alu w src dst s = .next t) : EndsWithWriteBack t (sets && (use == .read || dst != .reg .sr)) := by
  obtain ⟨cg, v, hr, rfl⟩ := finishStep_eq_next h
  obtain ⟨a, s1, -, hr⟩ := andThen_eq_ok hr
  obtain ⟨l, s2, hl, hr⟩ := andThen_eq_ok hr
  obtain ⟨d, s3, -, hr⟩ := andThen_eq_ok hr
  obtain ⟨wr, s4, hw, hr⟩ := andThen_eq_ok hr
  cases hr
  have hwr : (wr != .sr) = (use == .read || dst != .reg .sr) := by
    cases use with
    | read => cases hw; rfl
    | write | readWrite => rw [written_of_writeLoc hw, writtenOf_ne_sr, destLoc_ne_sr hl]; rfl
  rw [← hwr, ← hsets a.value d (carryBit s.sr) s.draws]
  exact endsWithWriteBack_retire ..

theorem runRmw_endsWithWriteBack (hsets : ∀ a b c n, (alu w a b c n).flags.isSome = sets) (hwf : src.wellFormed)
    (h : runRmw i m alu w src s = .next t) : EndsWithWriteBack t (sets && src != .reg .sr) := by
  obtain ⟨cg, v, hr, rfl⟩ := finishStep_eq_next h
  split at hr
  · cases hr
  obtain ⟨a, s1, ha, hr⟩ := andThen_eq_ok hr
  obtain ⟨wr, s2, hw, hr⟩ := andThen_eq_ok hr
  cases hr
  obtain ⟨hloc, -, -⟩ := readSource_start_eq_ok hwf ha
  have hwr : (wr != .sr) = (src != .reg .sr) := by rw [written_of_writeLoc hw, writtenOf_ne_sr, hloc, srcLoc_ne_sr]
  rw [← hwr, ← hsets a.value 0#16 (carryBit s.sr) s.draws]
  exact endsWithWriteBack_retire ..

/-- PUSH and CALL that complete: the source has been read, a value pushed, and no flag is merged at the end. -/
theorem stackOf_next (hi : i ∈ stackOf w src) (hwf : src.wellFormed) (h : exec i s = .next t) :
    ∃ cg pcNext wr v s1 s2, t = retire cg (writeBack pcNext none wr s2) ∧ Quiet (startStep i s) s1 ∧
      (∀ r, s1.readReg r = regAfterSrc (fmt2Ctx s w src true) s src r) ∧ Pushed s1 s2 w v := by
  have hcases : i = .push w src ∨ i = .call src ∧ w = .word := by
    cases w <;> simpa [stackOf] using hi
  rcases hcases with rfl | ⟨rfl, rfl⟩
  · obtain ⟨cg, v, hr, rfl⟩ := finishStep_eq_next h
    obtain ⟨a, s1, ha, hr⟩ := andThen_eq_ok hr
    obtain ⟨u, s2, hp, hr⟩ := andThen_eq_ok hr
    cases hr
    obtain ⟨-, q1, r1⟩ := readSource_start_eq_ok hwf ha
    exact ⟨_, _, _, _, s1, s2, rfl, q1, r1, pushed_of_pushValue hp⟩
  · obtain ⟨cg, v, hr, rfl⟩ := finishStep_eq_next h
    obtain ⟨a, s1, ha, hr⟩ := andThen_eq_ok hr
    obtain ⟨u, s2, hp, hr⟩ := andThen_eq_ok hr
    obtain ⟨wr, s3, hc, hr⟩ := andThen_eq_ok hr
    cases hr
    obtain ⟨-, q1, r1⟩ := readSource_start_eq_ok hwf ha
    obtain rfl := state_of_checkPc hc
    exact ⟨_, _, wr, _, s1, _, rfl, q1, r1, pushed_of_pushValue hp⟩

theorem stackOf_endsWithWriteBack (hi : i ∈ stackOf w src) (hwf : src.wellFormed) (h : exec i s = .next t) : EndsWithWriteBack t false := by
  obtain ⟨cg, pcNext, wr, v, s1, s2, rfl, -⟩ := stackOf_next hi hwf h
  exact endsWithWriteBack_retire ..

theorem execReti_endsWithWriteBack (h : execReti s = .next t) : EndsWithWriteBack t false := by
  obtain ⟨cg, v, hr, rfl⟩ := finishStep_eq_next h
  obtain ⟨srv, s1, -, hr⟩ := andThen_eq_ok hr
  obtain ⟨pcv, s2, -, hr⟩ := andThen_eq_ok hr
  obtain ⟨-, s3, -, hr⟩ := andThen_eq_ok hr
  obtain ⟨-, s4, -, hr⟩ := andThen_eq_ok hr
  obtain ⟨wr, s5, -, hr⟩ := andThen_eq_ok hr
  cases hr
  exact endsWithWriteBack_retire ..

theorem runJump_endsWithWriteBack {cond : Word → Bool} {off : BitVec 10} (h : runJump i cond off s = .next t) : EndsWithWriteBack t false := by
  cases h
  exact endsWithWriteBack_retire ..

theorem runStub_ne_next : runStub i s ≠ .next t := nofun

end

theorem aluDadd_setsFlags (w : Width) (a b : Word) (c : Bool) (n : Nat) : (aluDadd w a b c n).flags.isSome = true := by
  unfold aluDadd
  split <;> rfl

theorem exec_endsWithWriteBack {i : Instr} {s t : State} (hwf : i.wellFormed) (h : exec i s = .next t) : EndsWithWriteBack t (mergesFlags i) := by
  cases i with
  | mov w src dst | bic w src dst | bis w src dst => exact runFmt1_endsWithWriteBack (sets := false) (fun _ _ _ _ => rfl) h
  | add w src dst | addc w src dst | subc w src dst | sub w src dst | xor w src dst | and w src dst =>
    exact runFmt1_endsWithWriteBack (sets := true) (fun _ _ _ _ => rfl) h
  | dadd w src dst => exact runFmt1_endsWithWriteBack (sets := true) (aluDadd_setsFlags w) h
  | cmp w src dst | bit w src dst => exact runFmt1_endsWithWriteBack (sets := true) (fun _ _ _ _ => rfl) h
  | rrc w src | rra w src | sxt src => exact runRmw_endsWithWriteBack (sets := true) (fun _ _ _ _ => rfl) hwf h
  | swpb src => exact runRmw_endsWithWriteBack (sets := false) (fun _ _ _ _ => rfl) hwf h
  | push w src => exact stackOf_endsWithWriteBack (w := w) (by cases w <;> simp [stackOf]) hwf h
  | call src => exact stackOf_endsWithWriteBack (w := .word) (by simp [stackOf]) hwf h
  | reti => exact execReti_endsWithWriteBack h
  | jne off | jeq off | jnc off | jc off | jn off | jge off | jl off | jmp off => exact runJump_endsWithWriteBack h
  | ext x | pushmA x | pushmW x | popmA x | popmW x => exact absurd h runStub_ne_next
  | rrcm n aw r | rram n aw r | rlam n aw r | rrum n aw r => exact absurd h runStub_ne_next

end Sys2Proof.Machine

namespace Sys2Proof.Proofs

open Sys2Proof.Machine Sys2Proof.Claims

/-- Settles O13. The merge is known bit by bit; `writeBack` ends every course, and whether it merges is whether the operation sets flags and SR was
not what it wrote. -/
theorem flagMerge : Obligations.FlagMerge := by
  unfold Obligations.FlagMerge
  refine ⟨getLsbD_mergeFlags, fun pcNext v f s => ⟨⟨?_, ?_⟩, ⟨?_, ?_, ?_⟩, ⟨?_, ?_⟩, fun wr => ⟨?_, ?_⟩⟩, fun i s t => exec_endsWithWriteBack⟩
  · exact writeBack_regs pcNext (some f) .plain s .sr
  · exact writeBack_trace pcNext (some f) .plain s
  · exact writeBack_regs pcNext (some f) (.pc v) s .sr
  · exact writeBack_pc pcNext (some f) (.pc v) s
  · exact writeBack_trace pcNext (some f) (.pc v) s
  · exact writeBack_regs pcNext (some f) .sr s .sr
  · exact writeBack_trace pcNext (some f) .sr s
  · have hsr := writeBack_regs pcNext none wr s .sr
    simpa using hsr
  · exact writeBack_trace pcNext none wr s

end Sys2Proof.Proofs
end

section
/-! What a completed instruction leaves as it was, read off what `Completed` says, family by family (40_pipeline.md R142, R149–R152); and the
operands of PUSH and CALL (R131, R135, R136). -/

namespace Sys2Proof.Machine

open Sys2Proof.Claims

/-! ### Operands -/

theorem regAfterSrc_of_ne {ctx : Ctx} {s : State} {src : Src} {r : Reg} (h : src ≠ .inc r) : regAfterSrc ctx s src r = s.readReg r :=
  if_neg fun hi => h hi.1

/-- Outside PUSH and CALL every increment is done (40_pipeline.md R135). -/
theorem regAfterSrc_inc {ctx : Ctx} (h : ctx.stack = false) (s : State) (r : Reg) :
    regAfterSrc ctx s (.inc r) r = s.readReg r + incAmount ctx.width r := by
  simp [regAfterSrc, incSuppressed, h]

theorem dstReg_of_dstLoc {ctx : Ctx} {s : State} {src : Src} {dst : Dst} {l : Loc} (h : dstLoc ctx s src dst = some l) (r : Reg)
    (hr : l = .reg r) : dstReg dst = some r := by
  subst hr
  cases dst with
  | reg q => cases h; rfl
  | idx q =>
    simp only [dstLoc] at h
    split at h
    · cases h
    · rw [Option.map_eq_some_iff] at h
      obtain ⟨x, -, hx⟩ := h
      cases hx
  | sym | abs =>
    simp only [dstLoc, Option.map_eq_some_iff] at h
    obtain ⟨x, -, hx⟩ := h
    cases hx

theorem srcReg_of_srcLoc {ctx : Ctx} {s : State} {src : Src} (r : Reg) (h : srcLoc ctx s src = .reg r) : srcReg src = some r := by
  cases src with
  | reg q => cases h; rfl
  | imm | cg0 | cg1 | cg2 | cgm1 | cg4 | cg8 => cases h
  | idx q | sym | abs | ind q | inc q =>
    simp only [srcLoc] at h
    split at h <;> cases h

theorem srcLoc_of_srcAddr {ctx : Ctx} {s : State} {src : Src} {ea : Word} (h : srcAddr ctx s src = some ea) : srcLoc ctx s src = .mem ea := by
  cases src with
  | idx q | sym | abs | ind q | inc q => simp only [srcLoc, h]
  | reg q | imm | cg0 | cg1 | cg2 | cgm1 | cg4 | cg8 => cases h

theorem dstReg_eq_some {dst : Dst} {r : Reg} (h : dstReg dst = some r) : dst = .reg r := by
  cases dst <;> cases h; rfl

theorem srcReg_eq_some {src : Src} {r : Reg} (h : srcReg src = some r) : src = .reg r := by
  cases src <;> cases h; rfl

/-! ### Frames of a completed step -/

section
variable {s t : State} {ctx : Ctx} {src : Src} {l : Loc} {res v : Word} {flags : Option Flags} {w : Width} {stored : Option Word} {cg : Bool}
  {n : Nat}

theorem Completed.specialsKept {regs : Reg → Word} (h : Completed s t regs w stored v cg n) : SpecialsKept s t :=
  ⟨h.params, h.watch, h.faulted⟩

/-- `d` is the register written, if one is. -/
theorem Completed.registersKept {d : Option Reg} (h : Completed s t (regsAfter ctx s src l res flags) w stored v cg n) (hstack : ctx.stack = false)
    (hwf : src.wellFormed) (hd : ∀ r, l = .reg r → d = some r) : RegistersKept ctx.width src d s t := by
  obtain ⟨-, hsr, hcg⟩ := regAfterSrc_special hwf ctx s
  have kept : ∀ r, r ≠ .pc → r ≠ .sr → d ≠ some r → t.readReg r = regAfterSrc ctx s src r := by
    intro r hpc hsr hdr
    have hl : l ≠ .reg r := fun hl => hdr (hd r hl)
    rw [h.regs]
    cases r with
    | pc => exact absurd rfl hpc
    | sr => exact absurd rfl hsr
    | cg => exact hcg.symm
    | sp | gp k => exact if_neg hl
  refine ⟨fun r hpc hsr hdr hinc => (kept r hpc hsr hdr).trans (regAfterSrc_of_ne hinc), ?_⟩
  rintro r hpc hdr rfl
  have hsr : r ≠ .sr := by rintro rfl; simp [Src.wellFormed] at hwf
  exact (kept r hpc hsr hdr).trans (regAfterSrc_inc hstack s r)

theorem Completed.sr_of_noFlags (h : Completed s t (regsAfter ctx s src l res none) w stored v cg n) (hl : l ≠ .reg .sr) : t.sr = s.sr :=
  (h.regs .sr).trans (if_neg hl)

theorem Completed.controlBitsKept (h : Completed s t (regsAfter ctx s src l res flags) w stored v cg n) (hl : l ≠ .reg .sr) :
    ControlBitsKept s t := by
  intro k h0 h1 h2 h8
  cases flags with
  | none => rw [h.sr_of_noFlags hl]
  | some f =>
    have hsr : t.sr = mergeFlags s.sr f := (h.regs .sr).trans (if_neg hl)
    rw [hsr, getLsbD_mergeFlags, if_neg h0, if_neg h1, if_neg h2, if_neg h8]

theorem Completed.bytesKept_outside {regs : Reg → Word} {ea : Word} (h : Completed s t regs w (some ea) v cg n) {a : Word}
    (ha : outside w ea a) : byteRead t a = byteRead s a :=
  (h.bytes a).trans (byteAfter_outside v ha)

theorem Completed.bytesKept {regs : Reg → Word} (h : Completed s t regs w none v cg n) (a : Word) : byteRead t a = byteRead s a := h.bytes a

end

/-! ### fmt1 -/

section
variable {i : Instr} {m : Mnemonic} {use : DstUse} {alu : Alu} {w : Width} {src : Src} {dst : Dst} {s t : State}

/-- The instructions of `fmt1FlagWriters`: none but DADD draws a free value. -/
theorem fmt1FlagWriters_runs (h : i ∈ fmt1FlagWriters w src dst) : ∃ m alu, (∀ s, exec i s = runFmt1 i m .readWrite alu w src dst s) ∧
    (i.wellFormed → src.wellFormed) ∧ (i ≠ .dadd w src dst → ∀ a b c n, (alu w a b c n).draws = 0) := by
  simp only [fmt1FlagWriters, List.mem_cons, List.not_mem_nil, or_false] at h
  rcases h with rfl | rfl | rfl | rfl | rfl | rfl | rfl
  case inr.inr.inr.inr.inl => exact ⟨_, _, fun _ => rfl, fmt1_source_wellFormed (w := w), fun h => absurd rfl h⟩
  all_goals exact ⟨_, _, fun _ => rfl, fmt1_source_wellFormed (w := w), fun _ _ _ _ _ => rfl⟩

/-- MOV, BIC and BIS set no flags and draw nothing. -/
theorem movBicBis_runs (h : i ∈ [.mov w src dst, .bic w src dst, .bis w src dst]) : ∃ m use alu, use ≠ .read ∧
    (∀ s, exec i s = runFmt1 i m use alu w src dst s) ∧ (i.wellFormed → src.wellFormed) ∧
    ∀ a b c n, (alu w a b c n).flags = none ∧ (alu w a b c n).draws = 0 := by
  simp only [List.mem_cons, List.not_mem_nil, or_false] at h
  rcases h with rfl | rfl | rfl
  all_goals exact ⟨_, _, _, by decide, fun _ => rfl, fmt1_source_wellFormed (w := w), fun _ _ _ _ => ⟨rfl, rfl⟩⟩

/-- CMP and BIT only read their destination and draw nothing. -/
theorem cmpBit_runs (h : i ∈ [.cmp w src dst, .bit w src dst]) : ∃ m alu, (∀ s, exec i s = runFmt1 i m .read alu w src dst s) ∧
    (i.wellFormed → src.wellFormed) ∧ ∀ a b c n, (alu w a b c n).draws = 0 := by
  simp only [List.mem_cons, List.not_mem_nil, or_false] at h
  rcases h with rfl | rfl
  all_goals exact ⟨_, _, fun _ => rfl, fmt1_source_wellFormed (w := w), fun _ _ _ _ => rfl⟩

/-- The frame of an fmt1 instruction that writes its destination, with the answer of its operation for SR and the free values. -/
theorem fmt1_writer_frame (hrun : exec i s = runFmt1 i m use alu w src dst s) (hu : use ≠ .read) (hwf : src.wellFormed)
    (h : exec i s = .next t) :
    RegistersKept w src (dstReg dst) s t ∧ SpecialsKept s t ∧
    (∃ a b, (dst ≠ .reg .sr → ControlBitsKept s t ∧ ((alu w a b (carryBit s.sr) s.draws).flags = none → t.sr = s.sr)) ∧
      t.draws = s.draws + (alu w a b (carryBit s.sr) s.draws).draws) ∧
    (∀ ea, dstLoc (fmt1Ctx s w src dst) s src dst = some (.mem ea) → ∀ a, outside w ea a → byteRead t a = byteRead s a) ∧
    (dst.adBit = 0 → ∀ a, byteRead t a = byteRead s a) := by
  obtain ⟨a, b, l, -, hl, -, hc⟩ := runFmt1_next hwf (hrun.symm.trans h)
  have hw : writtenLoc use l = l := by
    cases use with
    | read => exact absurd rfl hu
    | write | readWrite => rfl
  rw [hw] at hc
  refine ⟨hc.registersKept rfl hwf (dstReg_of_dstLoc hl), hc.specialsKept, ⟨a, b, fun hsr => ?_, hc.draws⟩, fun ea hea k hk => ?_,
    fun had k => ?_⟩
  · have hlsr : l ≠ .reg .sr := fun h => hsr (dstReg_eq_some (dstReg_of_dstLoc hl _ h))
    exact ⟨hc.controlBitsKept hlsr, fun hf => by rw [hf] at hc; exact hc.sr_of_noFlags hlsr⟩
  · cases hl.symm.trans hea
    exact hc.bytesKept_outside hk
  · cases dst with
    | reg r => cases hl; exact hc.bytesKept k
    | idx r | sym | abs => cases had

/-- The address after a two-operand instruction (30_encoding.md R93). -/
theorem fmt1Ctx_pcNext (s : State) (w : Width) (src : Src) (dst : Dst) :
    (fmt1Ctx s w src dst).pcNext = s.pc + 2#16 + BitVec.ofNat 16 (2 * src.extWords + 2 * dst.extWords) := by
  rw [BitVec.add_assoc, show (2#16 : Word) = BitVec.ofNat 16 2 from rfl, ← BitVec.ofNat_add]
  simp only [fmt1Ctx, fmt1Length]
  congr 2
  omega

/-! ### fmt2 -/

/-- The read-modify-write instructions draw nothing, and SWPB sets no flags. -/
theorem rmwOf_runs_frame (h : i ∈ rmwOf w src) : ∃ m alu, (∀ s, exec i s = runRmw i m alu w src s) ∧ (i.wellFormed → src.wellFormed) ∧
    ∀ a b c n, (alu w a b c n).draws = 0 ∧ (i = .swpb src → (alu w a b c n).flags = none) := by
  cases w <;> simp only [rmwOf, List.mem_cons, List.not_mem_nil, or_false] at h
  · rcases h with rfl | rfl
    all_goals exact ⟨_, _, fun _ => rfl, id, fun _ _ _ _ => ⟨rfl, nofun⟩⟩
  · rcases h with rfl | rfl | rfl | rfl
    case inr.inr.inl => exact ⟨_, _, fun _ => rfl, id, fun _ _ _ _ => ⟨rfl, fun _ => rfl⟩⟩
    all_goals exact ⟨_, _, fun _ => rfl, id, fun _ _ _ _ => ⟨rfl, nofun⟩⟩

/-- The registers that a completed step without a flag merge leaves, PC apart. -/
theorem readReg_writeBack_noFlags {r : Reg} (h : r ≠ .pc) (pcNext : Word) (wr : Written) (s : State) :
    (writeBack pcNext none wr s).readReg r = s.readReg r := by
  rw [writeBack_regs]
  cases r with
  | pc => exact absurd rfl h
  | sr => exact ite_self _
  | sp | cg | gp k => rfl

/-- The frame of PUSH and CALL: SP is below by 2, and the source's increment is done if it is not suppressed. -/
theorem stackOf_frame (hi : i ∈ stackOf w src) (hwf : src.wellFormed) (h : exec i s = .next t) :
    (∀ r, r ≠ .pc → t.readReg r = if r = .sp then s.sp - 2#16 else regAfterSrc (fmt2Ctx s w src true) s src r) ∧
    SpecialsKept s t ∧ t.draws = s.draws ∧ ∀ a, outside w (s.sp - 2#16) a → byteRead t a = byteRead s a := by
  obtain ⟨cg, pcNext, wr, v, s1, s2, rfl, q1, r1, hp⟩ := stackOf_next hi hwf h
  have hb := writeBack_quiet pcNext none wr s2
  have hsp : s1.sp = s.sp := (r1 .sp).trans regAfterSrc_stack_sp
  refine ⟨fun r hr => ?_, ⟨hb.params.trans (hp.params.trans q1.params), hb.watch.trans (hp.watch.trans q1.watch),
    hb.faulted.trans (hp.faulted.trans q1.faulted)⟩, hb.draws.trans (hp.draws.trans q1.draws), fun a ha => ?_⟩
  · rw [readReg_retire, readReg_writeBack_noFlags hr, hp.regs, hsp, r1]
  · rw [byteRead_retire, hb.byteRead, hp.bytes, hsp, byteAfter_outside v ha, q1.byteRead, byteRead_startStep]

theorem stackOf_source_wellFormed (hi : i ∈ stackOf w src) (h : i.wellFormed) : src.wellFormed := by
  cases w <;> simp only [stackOf, List.mem_cons, List.not_mem_nil, or_false] at hi
  · subst hi; exact h
  · rcases hi with rfl | rfl <;> exact h

/-- What PUSH and CALL leave in the register of an `@Rn+` operand (40_pipeline.md R136). -/
theorem regAfterSrc_stack_gp (s : State) (w : Width) (n : Fin 12) :
    regAfterSrc (fmt2Ctx s w (.inc (.gp n)) true) s (.inc (.gp n)) (.gp n) =
      if s.params.incSuppress = .allRegs then s.readReg (.gp n) else s.readReg (.gp n) + (if w = .word then 2#16 else 1#16) := by
  by_cases h : s.params.incSuppress = .allRegs <;> simp [regAfterSrc, incSuppressed, fmt2Ctx, incAmount, h]

/-- PUSH and CALL never raise `OddSP` at an increment of SP, which they suppress. -/
theorem incRaises_stack (s : State) (w : Width) (src : Src) : incRaises (fmt2Ctx s w src true) s src = false := by
  simp [incRaises, incSuppressed, fmt2Ctx]

end

end Sys2Proof.Machine

namespace Sys2Proof.Proofs

open Sys2Proof.Machine Sys2Proof.Claims

/-- Settles O31, by the frame of the fmt1 writers: none but DADD draws. -/
theorem frameOfFlagWriters : Obligations.FrameOfFlagWriters := by
  unfold Obligations.FrameOfFlagWriters
  intro w src dst s t i hi hwf h
  obtain ⟨m, alu, hrun, hsrc, hdraws⟩ := fmt1FlagWriters_runs hi
  obtain ⟨hregs, hspecial, ⟨a, b, hsr, hd⟩, hmem, hreg⟩ := fmt1_writer_frame (hrun s) (by decide) (hsrc hwf) h
  exact ⟨hregs, fun hne => (hsr hne).1, hspecial, fun hne => by rw [hd, hdraws hne]; rfl, hmem, hreg⟩

/-- Settles O32, by the frame of the fmt1 writers: without flags SR stays. -/
theorem frameOfMovBicBis : Obligations.FrameOfMovBicBis := by
  unfold Obligations.FrameOfMovBicBis
  intro w src dst s t i hi hwf h
  obtain ⟨m, use, alu, hu, hrun, hsrc, halu⟩ := movBicBis_runs hi
  obtain ⟨hregs, hspecial, ⟨a, b, hsr, hd⟩, hmem, hreg⟩ := fmt1_writer_frame (hrun s) hu (hsrc hwf) h
  exact ⟨hregs, fun hne => (hsr hne).2 (halu ..).1, hspecial, by rw [hd, (halu ..).2]; rfl, hmem, hreg⟩

/-- Settles O33: CMP and BIT complete with nothing as their location. -/
theorem frameOfCmpBit : Obligations.FrameOfCmpBit := by
  unfold Obligations.FrameOfCmpBit
  intro w src dst s t i hi hwf h
  obtain ⟨m, alu, hrun, hsrc, hdraws⟩ := cmpBit_runs hi
  obtain ⟨a, b, l, -, -, -, hc⟩ := runFmt1_next (hsrc hwf) ((hrun s).symm.trans h)
  exact ⟨hc.registersKept rfl (hsrc hwf) nofun, hc.controlBitsKept nofun, hc.specialsKept, by rw [hc.draws, hdraws]; rfl,
    (hc.regs .pc).trans (fmt1Ctx_pcNext ..), hc.bytesKept⟩

/-- Settles O34: a read-modify-write instruction completes with its operand's location as the one written. -/
theorem frameOfReadModifyWrite : Obligations.FrameOfReadModifyWrite := by
  unfold Obligations.FrameOfReadModifyWrite
  intro w src s t i hi hwf h
  obtain ⟨m, alu, hrun, hsrc, halu⟩ := rmwOf_runs_frame hi
  obtain ⟨-, a, -, hc⟩ := runRmw_next (hsrc hwf) ((hrun s).symm.trans h)
  obtain ⟨hdraws, hflags⟩ := halu a 0#16 (carryBit s.sr) s.draws
  refine ⟨hc.registersKept rfl (hsrc hwf) srcReg_of_srcLoc, fun hne => ?_, hc.specialsKept, by rw [hc.draws, hdraws]; rfl,
    fun ea hea k hk => ?_, ?_⟩
  · have hlsr : srcLoc (fmt2Ctx s w src false) s src ≠ .reg .sr := fun h => hne (srcReg_eq_some (srcReg_of_srcLoc _ h))
    exact ⟨hc.controlBitsKept hlsr, fun hswpb => by rw [hflags hswpb] at hc; exact hc.sr_of_noFlags hlsr⟩
  · rw [srcLoc_of_srcAddr hea] at hc
    exact hc.bytesKept_outside hk
  · rintro ⟨r, rfl⟩ k
    exact hc.bytesKept k

/-- Settles O35, by the frame of PUSH and CALL. -/
theorem frameOfPushCall : Obligations.FrameOfPushCall := by
  unfold Obligations.FrameOfPushCall
  intro w src s t i hi hwf h
  have hsrc := stackOf_source_wellFormed hi hwf
  obtain ⟨hregs, hspecial, hdraws, hbytes⟩ := stackOf_frame hi hsrc h
  obtain ⟨-, hsr, -⟩ := regAfterSrc_special hsrc (fmt2Ctx s w src true) s
  refine ⟨fun r hpc hsp hinc => ?_, (hregs .sr nofun).trans hsr, hspecial, hdraws, hbytes⟩
  rw [hregs r hpc, if_neg hsp, regAfterSrc_of_ne hinc]

/-- Settles O27: the addresses are `srcAddr`'s, and what an increment leaves is in the frame of PUSH and CALL. -/
theorem stackOperands : Obligations.StackOperands := by
  unfold Obligations.StackOperands
  intro s w x
  refine ⟨fun hx => ⟨?_, fun n => ?_⟩, fun r => rfl, fun r v hv => ?_, fun i t hi h => ?_, fun n i t hi h => ?_⟩
  · show (wordAt s (s.pc + 2#16)).map _ = _
    rw [hx]; rfl
  · show (wordAt s (s.pc + 2#16)).map _ = _
    rw [hx]; rfl
  · rw [srcValue, incRaises_stack]
    exact hv
  · exact (stackOf_frame hi rfl h).1 .sp nofun
  · rw [(stackOf_frame hi rfl h).1 (.gp n) nofun, if_neg nofun, regAfterSrc_stack_gp]

end Sys2Proof.Proofs
end

section
/-! Where an instruction stops by the value or the form of an operand: the source `@PC` (40_pipeline.md R134), the destination `X(R3)` (R139), and
the checks of a new PC (R153) and of a new SP (R154). -/

namespace Sys2Proof.Machine

open Sys2Proof.Claims

/-! ### What raises -/

theorem readSource_indirectPc (ctx : Ctx) (c : Word) (s : State) : readSource ctx (.ind .pc) c s = .raise (.unknown .indirectPC) s := rfl

theorem destLoc_indexedR3 (c : Word) (s : State) : destLoc (.idx .cg) c s = .raise (.unknown .indexedR3Dest) s := rfl

theorem checkPc_byte (v : Word) (s : State) : checkPc .byte v s = .raise (.unknown .bytePCWrite) s := rfl

theorem checkPc_odd {v : Word} (h : v.toNat % 2 = 1) (s : State) : checkPc .word v s = .raise (.unknown .oddPC) s := by
  simp [checkPc, (isOdd_iff v).2 h]

theorem writeLoc_sp_odd {v : Word} (h : v.toNat % 2 = 1) (m : Mnemonic) (w : Width) (s : State) :
    writeLoc m w (.reg .sp) v s = .raise (.unknown .oddSP) s := by
  rw [writeLoc, writeSp_odd ((isOdd_iff v).2 h), andThen_raise]

theorem popSr_ok {s : State} {v : Word} (hv : v &&& ~~~s.params.srMask = 0#16) : popSr v s = .ok () (writeReg .sr v s) := by
  simp [popSr, hasUnimplementedBits, hv]

/-- An odd SP stays odd where SP moves by an even number. -/
theorem isOdd_add_two {v : Word} : isOdd (v + 2#16) = isOdd v := odd_add_even v 1

theorem isOdd_sub_two {v : Word} : isOdd (v - 2#16) = isOdd v := by
  rw [← isOdd_add_two, BitVec.sub_add_cancel]

theorem isOdd_add_four {v : Word} : isOdd (v + 4#16) = isOdd v := odd_add_even v 2

/-- PC as a destination always has a value: the address after the instruction (40_pipeline.md R138). -/
theorem dstValue_pc (ctx : Ctx) (s : State) (src : Src) : dstValue ctx s src (.reg .pc) = some (trunc ctx.width ctx.pcNext) := rfl

/-- An increment that would leave SP odd raises, after the operand's read (40_pipeline.md R135, R154). -/
theorem sourceStops_of_odd_sp {ctx : Ctx} {s : State} {v : Word} (hstack : ctx.stack = false) (hv : valueAt s ctx.width s.sp = some v)
    (ho : s.sp.toNat % 2 = 1) : SourceStops ctx (.inc .sp) s (.unknown .oddSP) := by
  intro i
  let s0 := (startStep i s).note (.regRead .sp s.sp)
  refine ⟨s0.note (.memRead s.sp ctx.width v), ?_, fun r => by simp [s0], rfl⟩
  have hodd : isOdd (s.sp + 2#16) = true := isOdd_add_two.trans ((isOdd_iff _).2 ho)
  have hread : sourceAt ctx s.sp (s.pc + 2#16) s0 = .ok ⟨v, .mem s.sp, s.pc + 2#16⟩ (s0.note (.memRead s.sp ctx.width v)) := sourceAt_ok hv
  have hinc : autoIncrement ctx .sp (s0.note (.memRead s.sp ctx.width v)) = .raise (.unknown .oddSP) (s0.note (.memRead s.sp ctx.width v)) := by
    simp only [autoIncrement, incSuppressed, hstack, Bool.false_and, Bool.false_eq_true, ↓reduceIte, incAmount, or_true]
    exact writeSp_odd hodd
  show (sourceAt ctx s.sp (s.pc + 2#16) s0).andThen _ = _
  rw [hread, andThen_ok, hinc, andThen_raise]

/-! ### The courses of the families -/

section
variable {i : Instr} {m : Mnemonic} {use : DstUse} {alu : Alu} {w : Width} {src : Src} {dst : Dst} {s : State} {a b : Word} {l : Loc}
  {e : Raise} {r : Reg}

theorem allFmt1_raises_indirectPc (hi : i ∈ allFmt1 w (.ind .pc) dst) : Raises i s .indirectPC (startStep i s) := by
  obtain ⟨m, use, alu, hrun, -⟩ := allFmt1_runs hi
  rw [Raises, hrun]
  simp only [runFmt1, readSource_indirectPc, andThen_raise]
  rfl

theorem rmwOf_raises_indirectPc (hi : i ∈ rmwOf w (.ind .pc)) : Raises i s .indirectPC (startStep i s) := by
  obtain ⟨m, alu, hrun⟩ := rmwOf_runs hi
  rw [Raises, hrun]
  rfl

theorem stackOf_raises_indirectPc (hi : i ∈ stackOf w (.ind .pc)) : Raises i s .indirectPC (startStep i s) := by
  obtain ⟨pushed, rest, hrun⟩ := stackOf_runs hi s
  rw [Raises, hrun, readSource_indirectPc, andThen_raise]
  rfl

theorem allFmt1_stops_at_indexedR3 (hi : i ∈ allFmt1 w src (.idx .cg)) (hwf : src.wellFormed)
    (ha : srcValue (fmt1Ctx s w src (.idx .cg)) s src = some a) :
    RaisesQuietly i s .indexedR3Dest (regAfterSrc (fmt1Ctx s w src (.idx .cg)) s src) := by
  obtain ⟨m, use, alu, hrun, -⟩ := allFmt1_runs hi
  obtain ⟨s1, h1, q1, r1⟩ := readSource_start_ok i hwf ha
  refine stopsWith_of_raise ?_ r1 q1.mem
  rw [hrun]
  simp only [runFmt1]
  rw [h1, andThen_ok, destLoc_indexedR3, andThen_raise]

/-- An fmt1 instruction stops where the write of its result raises. -/
theorem fmt1_stops_at_writeLoc (hrun : exec i s = runFmt1 i m use alu w src dst s) (hu : use ≠ .read) (hwf : src.wellFormed)
    (ha : srcValue (fmt1Ctx s w src dst) s src = some a) (hl : dstLoc (fmt1Ctx s w src dst) s src dst = some l)
    (hb : destGiven (fmt1Ctx s w src dst) s src use l b)
    (hraise : ∀ u, writeLoc m w l (alu w a b (carryBit s.sr) s.draws).res u = .raise e u) :
    StopsWith i s e (regAfterSrc (fmt1Ctx s w src dst) s src) := by
  refine runFmt1_stops_at_write hrun hwf ha hl hb fun u _ => ?_
  cases use with
  | read => exact absurd rfl hu
  | write | readWrite => exact hraise u

/-- An instruction of `fmt1Results` stops where the write of its result to a register raises. -/
theorem fmt1Results_stops_at_writeLoc {res : Word} (hi : (m, i, res) ∈ fmt1Results s w src (.reg r) a b) (hwf : src.wellFormed)
    (ha : srcValue (fmt1Ctx s w src (.reg r)) s src = some a) (hb : dstValue (fmt1Ctx s w src (.reg r)) s src (.reg r) = some b)
    (hraise : ∀ u, writeLoc m w (.reg r) res u = .raise e u) : StopsWith i s e (regAfterSrc (fmt1Ctx s w src (.reg r)) s src) := by
  obtain ⟨use, alu, hrun, hu, hres⟩ := fmt1Results_runs (size_eq w ▸ srcValue_lt ha) (size_eq w ▸ dstValue_lt hb) hi
  obtain ⟨d, hd, hdb⟩ := destGiven_of_writer hu (.inr hb)
  exact fmt1_stops_at_writeLoc (hrun s) (by rw [hu]; split <;> decide) hwf ha rfl hd (by rw [hres d hdb]; exact hraise)

/-- A read-modify-write instruction of a register stops where the write of its result raises, with no register changed. -/
theorem rmw_reg_stops_at_writeLoc (hrun : exec i s = runRmw i m alu w (.reg r) s) (hr : (Src.reg r).wellFormed)
    (ha : srcValue (fmt2Ctx s w (.reg r) false) s (.reg r) = some a)
    (hraise : ∀ u, writeLoc m w (.reg r) (alu w a 0#16 (carryBit s.sr) s.draws).res u = .raise e u) : StopsWith i s e s.readReg := by
  have hregs : regAfterSrc (fmt2Ctx s w (.reg r) false) s (.reg r) = s.readReg := funext fun q => regAfterSrc_of_ne nofun
  rw [← hregs]
  exact runRmw_stops_at_write hrun hr rfl ha fun u _ => hraise u

/-- An instruction of `rmwResults` on a register stops where the write of its result raises. -/
theorem rmwResults_stops_at_writeLoc {res : Word} (hi : (m, i, res) ∈ rmwResults s w (.reg r) a) (hr : (Src.reg r).wellFormed)
    (ha : srcValue (fmt2Ctx s w (.reg r) false) s (.reg r) = some a) (hraise : ∀ u, writeLoc m w (.reg r) res u = .raise e u) :
    StopsWith i s e s.readReg := by
  obtain ⟨alu, hrun, hres⟩ := rmwResults_runs (size_eq w ▸ srcValue_lt ha) hi
  exact rmw_reg_stops_at_writeLoc (hrun s) hr ha (by rw [hres]; exact hraise)

/-- PUSH and CALL with an odd SP stop before SP moves. -/
theorem stackOf_stops_at_odd_sp (hi : i ∈ stackOf w src) (hwf : src.wellFormed) (ha : srcValue (fmt2Ctx s w src true) s src = some a)
    (ho : s.sp.toNat % 2 = 1) : RaisesQuietly i s .oddSP (regAfterSrc (fmt2Ctx s w src true) s src) := by
  obtain ⟨pushed, rest, hrun⟩ := stackOf_runs hi s
  obtain ⟨s1, h1, q1, r1⟩ := readSource_start_ok i hwf ha
  have hsp : s1.sp = s.sp := (r1 .sp).trans regAfterSrc_stack_sp
  have hodd : isOdd (s1.sp - 2#16) = true := by rw [isOdd_sub_two, hsp]; exact (isOdd_iff _).2 ho
  refine stopsWith_of_raise (t := s1.note (.regRead .sp s1.sp)) ?_ (fun r => (readReg_note ..).trans (r1 r)) q1.mem
  rw [hrun, h1, andThen_ok, pushValue, writeSp_odd hodd, andThen_raise, andThen_raise]

/-- RETI to an odd address stops after SR and SP are written. -/
theorem reti_stops_at_odd_pc {srv pcv : Word} (h0 : wordAt s s.sp = some srv) (h1 : wordAt s (s.sp + 2#16) = some pcv)
    (hv : srv &&& ~~~s.params.srMask = 0#16) (ho : pcv.toNat % 2 = 1) :
    RaisesQuietly .reti s .oddPC fun r => if r = .sp then s.sp + 4#16 else if r = .sr then srv else s.readReg r := by
  let s0 := (startStep .reti s).note (.regRead .sp s.sp)
  let s1 := s0.note (.memRead s.sp .word srv)
  let s2 := s1.note (.memRead (s.sp + 2#16) .word pcv)
  have heven : isOdd (s.sp + 4#16) = false := by
    rw [isOdd_add_four]
    cases h : isOdd s.sp with
    | false => rfl
    | true => rw [wordAt, if_pos h] at h0; cases h0
  refine stopsWith_of_raise (t := writeReg .sp (s.sp + 4#16) (writeReg .sr srv s2)) ?_ (fun r => ?_) (by simp [s2, s1, s0])
  · show execReti s = _
    simp only [execReti]
    rw [memRead_ok (s := s0) (w := .word) (v := srv) h0, andThen_ok, memRead_ok (s := s1) (w := .word) (v := pcv) h1, andThen_ok,
      popSr_ok (s := s2) hv, andThen_ok, writeSp_even heven, andThen_ok, checkPc_odd ho, andThen_raise]
  · rw [readReg_writeReg, readReg_writeReg]
    simp [s2, s1, s0]

/-- The address after a one-operand instruction (30_encoding.md R93). -/
theorem fmt2Ctx_pcNext (s : State) (w : Width) (src : Src) (stack : Bool) :
    (fmt2Ctx s w src stack).pcNext = s.pc + 2#16 + BitVec.ofNat 16 (2 * src.extWords) := by
  rw [BitVec.add_assoc, show (2#16 : Word) = BitVec.ofNat 16 2 from rfl, ← BitVec.ofNat_add]
  simp only [fmt2Ctx, fmt2Length]
  congr 2
  omega

/-- CALL to an odd target stops after its push. -/
theorem call_stops_at_odd_target (hwf : src.wellFormed) (ha : srcValue (fmt2Ctx s .word src true) s src = some a) (hsp : s.sp.toNat % 2 = 0)
    (hc : canStore s .word (s.sp - 2#16)) (ho : a.toNat % 2 = 1) :
    ∃ f, exec (.call src) s = .fault f ∧ f.report = .unknownBehavior .oddPC (some (Instr.call src).opcodeWord) s.pc ∧
      f.after.pc = s.pc ∧ f.after.sp = s.sp - 2#16 ∧
      ∀ k, byteRead f.after k = byteAfter s .word (some (s.sp - 2#16)) (s.pc + 2#16 + BitVec.ofNat 16 (2 * src.extWords)) k := by
  obtain ⟨s1, h1, q1, r1⟩ := readSource_start_ok (.call src) hwf ha
  have hsp1 : s1.sp = s.sp := (r1 .sp).trans regAfterSrc_stack_sp
  have hpc1 : s1.pc = s.pc := (r1 .pc).trans (regAfterSrc_special hwf _ s).1
  have heven : isOdd (s1.sp - 2#16) = false := by rw [isOdd_sub_two, hsp1]; exact (isOdd_false_iff _).2 hsp
  obtain ⟨s2, h2, hp⟩ := pushValue_ok (w := .word) (fmt2Ctx s .word src true).pcNext heven (by rw [hsp1, q1.canStore]; exact hc)
  have hrun : exec (.call src) s = finishStep (.call src) s.pc (.raise (.unknown .oddPC) s2) := by
    show execCall src s = _
    simp only [execCall]
    rw [h1, andThen_ok, h2, andThen_ok, checkPc_odd ho, andThen_raise]
  refine ⟨_, hrun, takeFault_report _ _, ?_, ?_, fun k => ?_⟩ <;> rw [takeFault_after]
  · exact (hp.regs .pc).trans hpc1
  · exact (hp.regs .sp).trans (congrArg (· - 2#16) hsp1)
  · have hb : ∀ k, byteRead s1 k = byteRead s k := q1.byteRead
    show byteRead s2 k = _
    rw [hp.bytes, hsp1, fmt2Ctx_pcNext]
    simp only [byteAfter, hb, q1.params, startStep_params]

end

end Sys2Proof.Machine

namespace Sys2Proof.Proofs

open Sys2Proof.Machine Sys2Proof.Claims

/-- Settles O37: the source routine is the first of every course, and raises on `@PC` before it reads. -/
theorem indirectPcRaises : Obligations.IndirectPcRaises := by
  unfold Obligations.IndirectPcRaises
  refine fun w dst s => ⟨fun i hi => allFmt1_raises_indirectPc hi, fun i hi => ?_⟩
  rcases List.mem_append.1 hi with hi | hi
  · exact rmwOf_raises_indirectPc hi
  · exact stackOf_raises_indirectPc hi

/-- Settles O38: the destination routine raises on `X(R3)`, after the source routine has completed. -/
theorem indexedR3Raises : Obligations.IndexedR3Raises := by
  unfold Obligations.IndexedR3Raises
  exact fun w src s a hwf ha i hi => allFmt1_stops_at_indexedR3 hi hwf ha

/-- Settles O40: every write of PC goes through `checkPc`. -/
theorem pcWritesAreChecked : Obligations.PcWritesAreChecked := by
  unfold Obligations.PcWritesAreChecked
  refine ⟨fun src s a hwf ha i hi => ?_, fun src s a b hwf ha hb m i res hi ho => ?_, fun s i hi => ?_, fun s m i res hi ho => ?_,
    fun s srv pcv => reti_stops_at_odd_pc, fun src s a => call_stops_at_odd_target⟩
  · obtain ⟨m, use, alu, hrun, hu⟩ := fmt1Writers_runs hi
    obtain ⟨b, hb⟩ : ∃ b, destGiven (fmt1Ctx s .byte src (.reg .pc)) s src use (.reg .pc) b := by
      rcases hu with rfl | ⟨rfl, -⟩
      · exact ⟨0#16, rfl⟩
      · exact ⟨_, dstValue_pc _ s src⟩
    exact fmt1_stops_at_writeLoc (hrun s) (by rcases hu with rfl | ⟨rfl, -⟩ <;> decide) hwf ha rfl hb fun u => checkPc_byte _ u
  · exact fmt1Results_stops_at_writeLoc hi hwf ha hb fun u => checkPc_odd ho u
  · obtain ⟨m, alu, hrun⟩ := rmwOf_runs hi
    exact rmw_reg_stops_at_writeLoc (hrun s) rfl rfl fun u => checkPc_byte _ u
  · exact rmwResults_stops_at_writeLoc hi rfl (congrArg some (trunc_word _)) fun u => checkPc_odd ho u

/-- Settles O41: every write of SP goes through `writeSp`: of a result, of an increment, of a push. -/
theorem spWritesAreChecked : Obligations.SpWritesAreChecked := by
  unfold Obligations.SpWritesAreChecked
  refine ⟨fun w src s a b hwf ha hb m i res hi ho => ?_, fun w s m i res hi ho => ?_, fun dst s b hb ho i hi => ?_,
    fun w src s a hwf ha ho i hi => stackOf_stops_at_odd_sp hi hwf ha ho⟩
  · exact fmt1Results_stops_at_writeLoc hi hwf ha hb (writeLoc_sp_odd ho m w)
  · exact rmwResults_stops_at_writeLoc hi rfl (congrArg some (trunc_eq_ofNat w s.sp)) (writeLoc_sp_odd ho m w)
  · have hv : valueAt s .byte s.sp = some (b.setWidth 16) := congrArg (Option.map _) hb
    rcases List.mem_append.1 hi with hi | hi
    · exact allFmt1_stops_of_source hi (sourceStops_of_odd_sp rfl hv ho)
    · exact rmwOf_stops_of_source hi rfl (sourceStops_of_odd_sp rfl hv ho)

end Sys2Proof.Proofs
end

section
/-! The fmt1 instructions that set no flags (41_fmt1.md R171, R179, R180), and the jumps after a compare (R176; 43_jump.md R210–R217). -/

namespace Sys2Proof.Machine

open Sys2Proof.Claims

/-! ### Results without flags -/

theorem aluBic_eq {w : Width} {b : Word} (hb : b.toNat < size w) (a : Word) (c : Bool) (n : Nat) :
    aluBic w a b c n = ⟨b &&& ~~~a, none, 0⟩ := by
  have hlt : (b &&& ~~~a).toNat < size w := by rw [BitVec.toNat_and]; exact Nat.lt_of_le_of_lt Nat.and_le_left hb
  rw [aluBic, BitVec.and_comm, trunc_of_lt_size hlt]

theorem aluBis_eq {w : Width} {a b : Word} (ha : a.toNat < size w) (hb : b.toNat < size w) (c : Bool) (n : Nat) :
    aluBis w a b c n = ⟨b ||| a, none, 0⟩ := by
  have hlt : (b ||| a).toNat < size w := by
    rw [BitVec.toNat_or, size_eq] at *
    exact Nat.or_lt_two_pow hb ha
  rw [aluBis, BitVec.or_comm, trunc_of_lt_size hlt]

/-! ### Jumps -/

theorem jumpTarget_eq_jumpGoal (pc : Word) (off : BitVec 10) : jumpTarget pc off = jumpGoal pc off := by
  rw [jumpTarget, jumpGoal, BitVec.ofInt_add, BitVec.ofInt_add, BitVec.ofInt_mul, BitVec.ofInt_natCast, BitVec.ofNat_toNat,
    BitVec.setWidth_eq, BitVec.signExtend]
  rfl

/-- A step that ends with a write of PC and does nothing else completes: it is the end of an operation on a constant that writes no location. -/
theorem completed_of_pcWrite (i : Instr) (s : State) (target : Word) :
    Completed s (retire false (writeBack target none .plain (startStep i s))) (fun r => if r = .pc then target else s.readReg r)
      .word none 0#16 false 0 := by
  have hregs : regsAfter ⟨target, .word, false⟩ s .cg0 .none 0#16 none = fun r => if r = .pc then target else s.readReg r := by
    funext r
    cases r <;> rfl
  exact hregs ▸ completed_of_wrote (ctx := ⟨target, .word, false⟩) (src := .cg0) (flags := none) (n := 0) rfl (Quiet.refl _)
    (fun r => by simp [regAfterSrc]) (wrote_nothing (startStep i s) .word .none 0#16 rfl nofun)

/-- A jump completes from any state, taken where its condition on SR holds (43_jump.md R210). -/
theorem runJump_jumps {i : Instr} {cond : Word → Bool} {off : BitVec 10} {s : State} (hrun : exec i s = runJump i cond off s) :
    Jumps i s off (cond s.sr) :=
  ⟨_, hrun, jumpTarget_eq_jumpGoal s.pc off ▸ completed_of_pcWrite i s _, writeBack_trace _ none .plain (startStep i s)⟩

/-! ### The flags of a compare -/

section
variable (sr : Word) (f : Flags)

@[simp] theorem carryBit_mergeFlags : carryBit (mergeFlags sr f) = f.c := getLsbD_mergeFlags sr f 0
@[simp] theorem zeroBit_mergeFlags : zeroBit (mergeFlags sr f) = f.z := getLsbD_mergeFlags sr f 1
@[simp] theorem negBit_mergeFlags : negBit (mergeFlags sr f) = f.n := getLsbD_mergeFlags sr f 2
@[simp] theorem overflowBit_mergeFlags : overflowBit (mergeFlags sr f) = f.v := getLsbD_mergeFlags sr f 8

end

theorem diffResult_toNat (w : Width) (dst src : Word) (borrow : Nat) :
    ((diffResult w dst src borrow).toNat : Int) = ((dst.toNat : Int) - src.toNat - borrow) % size w := by
  rw [diffResult, BitVec.toNat_ofInt]
  cases w <;> simp only [size] <;> omega

/-- C after a compare: no borrow, so the destination is not below the source. -/
theorem diffFlags_c (w : Width) (dst src : Word) : (diffFlags w dst src 0).c = decide (src.toNat ≤ dst.toNat) := rfl

section
variable {w : Width} {dst src : Word} (hd : dst.toNat < size w) (hs : src.toNat < size w)
include hd hs

/-- Z after a compare: the operands are equal. -/
theorem diffFlags_z : (diffFlags w dst src 0).z = decide (dst = src) := by
  have h := diffResult_toNat w dst src 0
  rw [diffFlags, Bool.eq_iff_iff, beq_iff_eq, decide_eq_true_eq, ← BitVec.toNat_inj, ← BitVec.toNat_inj]
  cases w <;> simp only [size, BitVec.toNat_ofNat] at * <;> omega

/-- N and V after a compare agree exactly where the destination is not below the source as a signed number. -/
theorem diffFlags_n_beq_v :
    ((diffFlags w dst src 0).n == (diffFlags w dst src 0).v) = decide (signed w src.toNat ≤ signed w dst.toNat) := by
  have h := diffResult_toNat w dst src 0
  rw [Bool.eq_iff_iff, beq_iff_eq, Bool.eq_iff_iff]
  simp only [diffFlags, negative, outOfRange, Bool.or_eq_true, decide_eq_true_eq]
  simp only [signed]
  cases w <;> simp only [size, half] at * <;> split_ifs <;> omega

end

end Sys2Proof.Machine

namespace Sys2Proof.Proofs

open Sys2Proof.Machine Sys2Proof.Claims

/-- Settles O14: MOV is the course that does not read its destination, and its operation answers the source value. -/
theorem movCompletes : Obligations.MovCompletes := by
  unfold Obligations.MovCompletes
  intro w src dst s a l hwf ha hl hw
  exact runFmt1_completes (use := .write) (alu := aluMov) (b := 0#16) (fmt1_source_wellFormed hwf) ha hl rfl hw

/-- Settles O21: BIC and BIS answer a result without flags, which fits its width as the operands do. -/
theorem bicBisComplete : Obligations.BicBisComplete := by
  unfold Obligations.BicBisComplete
  intro w src dst s a b l hwf ha hl hb
  have hsrc := fmt1_source_wellFormed (w := w) hwf
  obtain ⟨hlta, hltb⟩ := operands_lt_size ha hb
  exact ⟨fmt1_completes_of_alu rfl hsrc ha hl hb (aluBic_eq hltb a _ _),
    fmt1_completes_of_alu rfl hsrc ha hl hb (aluBis_eq hlta hltb _ _)⟩

/-- Settles O29. SR after the compare is the merge of the difference's flags, and each jump's condition is one of their comparisons. -/
theorem compareThenJump : Obligations.CompareThenJump := by
  unfold Obligations.CompareThenJump
  intro w src dst s t a b l off hwf ha hl hb hcmp
  obtain ⟨hlta, hltb⟩ := operands_lt_size ha hb
  have hsr : t.sr = mergeFlags s.sr (diffFlags w b a 0) := by
    obtain ⟨⟨u, hu, hc⟩, -⟩ := cmpBitComplete w src dst s a b l hwf ha hl hb
    cases hcmp.symm.trans hu
    exact hc.regs .sr
  have heq : condEq t.sr = decide (b = a) := by rw [hsr, condEq, zeroBit_mergeFlags, diffFlags_z hltb hlta]
  have hc : condC t.sr = decide (a.toNat ≤ b.toNat) := by rw [hsr, condC, carryBit_mergeFlags, diffFlags_c]
  have hge : condGe t.sr = decide (signed w a.toNat ≤ signed w b.toNat) := by
    rw [hsr, condGe, negBit_mergeFlags, overflowBit_mergeFlags, diffFlags_n_beq_v hltb hlta]
  have hne : condNe t.sr = decide (b ≠ a) := by rw [decide_not, ← heq]; rfl
  have hnc : condNc t.sr = decide (b.toNat < a.toNat) := by simp only [← Nat.not_le, decide_not, ← hc]; rfl
  have hlt : condL t.sr = decide (signed w b.toNat < signed w a.toNat) := by simp only [← Int.not_le, decide_not, ← hge]; rfl
  exact ⟨heq ▸ runJump_jumps rfl, hne ▸ runJump_jumps rfl, hc ▸ runJump_jumps rfl, hnc ▸ runJump_jumps rfl, hge ▸ runJump_jumps rfl,
    hlt ▸ runJump_jumps rfl⟩

end Sys2Proof.Proofs
end

section
/-! The fmt2 instructions that complete (42_fmt2.md R190–R197): what Execute answers for RRC, RRA, SWPB and SXT, as the numbers that the statements
are said in, and the courses of PUSH, CALL and RETI. -/

namespace Sys2Proof.Machine

open Sys2Proof.Claims

/-! ### Shifts and bytes with their flags -/

theorem shiftResult_toNat_lt {w : Width} {op : Word} (h : op.toNat < size w) (top : Bool) : (shiftResult w op top).toNat < size w := by
  have htop := Bool.toNat_le top
  rw [shiftResult, BitVec.toNat_ofNat]
  cases w <;> simp only [size] at h ⊢ <;> omega

theorem withShiftCarry_eq {w : Width} {res : Word} (h : res.toNat < size w) (op : Word) :
    withShiftCarry w op res = ⟨res, some (shiftFlags w op res), 0⟩ := by
  rw [withShiftCarry, isNeg_eq_negative h, BitVec.getLsbD, Nat.testBit_zero]
  rfl

theorem aluRrc_eq {w : Width} {a : Word} (h : a.toNat < size w) (b : Word) (c : Bool) (n : Nat) :
    aluRrc w a b c n = ⟨shiftResult w a c, some (shiftFlags w a (shiftResult w a c)), 0⟩ := by
  rw [aluRrc, msb_or_shiftRight h, withShiftCarry_eq (shiftResult_toNat_lt h c)]

theorem aluRra_eq {w : Width} {a : Word} (h : a.toNat < size w) (b : Word) (c : Bool) (n : Nat) :
    aluRra w a b c n = ⟨shiftResult w a (decide (half w ≤ a.toNat)), some (shiftFlags w a (shiftResult w a (decide (half w ≤ a.toNat)))), 0⟩ := by
  rw [aluRra, and_widthMsb h, msb_or_shiftRight h, withShiftCarry_eq (shiftResult_toNat_lt h _)]

theorem aluSwpb_eq (w : Width) (a b : Word) (c : Bool) (n : Nat) : aluSwpb w a b c n = ⟨swapped a, none, 0⟩ :=
  congrArg (AluOut.mk · none 0) (aluSwpb_res w a b c n)

theorem aluSxt_eq (a b : Word) (c : Bool) (n : Nat) :
    aluSxt .word a b c n = ⟨extended a, some (logicFlags .word (extended a) false), 0⟩ := by
  rw [← withAltCarry_eq (extended a).isLt false, ← aluSxt_res .word a b c n]
  rfl

/-! ### Read-modify-write -/

section
variable {i : Instr} {m : Mnemonic} {alu : Alu} {w : Width} {src : Src} {s : State} {a res : Word} {flags : Option Flags}

theorem hasNoLocation_eq_false (hc : isConstant src = false) (hi : src ≠ .imm) : hasNoLocation src = false := by
  simp [hasNoLocation, hc, hi]

/-- A read-modify-write instruction completes with what its operation answers. -/
theorem rmw_gives_of_alu (hrun : exec i s = runRmw i m alu w src s) (hwf : src.wellFormed) (hc : isConstant src = false) (hi : src ≠ .imm)
    (ha : srcValue (fmt2Ctx s w src false) s src = some a) (halu : alu w a 0#16 (carryBit s.sr) s.draws = ⟨res, flags, 0⟩)
    (hw : canWrite s m w res (srcLoc (fmt2Ctx s w src false) s src)) : RmwGives i w src s res flags := by
  have h := runRmw_completes (i := i) (m := m) (alu := alu) hwf (hasNoLocation_eq_false hc hi) ha (by rw [halu]; exact hw)
  rwa [halu, hc, ← hrun] at h

end

/-! ### The stack -/

section
variable {i : Instr} {w : Width} {src : Src} {s s1 s2 u : State} {a v : Word}

theorem checkPc_even (h : v.toNat % 2 = 0) (s : State) : checkPc .word v s = .ok (.pc v) s := by
  simp [checkPc, (isOdd_false_iff v).2 h]

/-- The registers after PUSH or CALL: PC, SP below by 2, and every other register as the source routine left it. -/
def regsAfterPush (s : State) (w : Width) (src : Src) (pc : Word) : Reg → Word
  | .pc => pc
  | .sp => s.sp - 2#16
  | .sr => s.sr
  | .cg => 0#16
  | .gp n => regAfterSrc (fmt2Ctx s w src true) s src (.gp n)

/-- Write-Back and retirement after a push: what the completed step leaves. -/
theorem completed_of_pushed (hwf : src.wellFormed) (q1 : Quiet (startStep i s) s1)
    (r1 : ∀ r, s1.readReg r = regAfterSrc (fmt2Ctx s w src true) s src r) (hp : Pushed s1 s2 w v) (cg : Bool) (pcNext : Word) (wr : Written) :
    Completed s (retire cg (writeBack pcNext none wr s2)) (regsAfterPush s w src (finalPc pcNext wr)) w (some (s.sp - 2#16)) v cg 0 := by
  have hb := writeBack_quiet pcNext none wr s2
  have hsp : s1.sp = s.sp := (r1 .sp).trans regAfterSrc_stack_sp
  have hwatch : (writeBack pcNext none wr s2).watch = s.watch := hb.watch.trans (hp.watch.trans q1.watch)
  have hbyte : ∀ k, byteRead s1 k = byteRead s k := q1.byteRead
  obtain ⟨-, hsr, -⟩ := regAfterSrc_special hwf (fmt2Ctx s w src true) s
  refine ⟨fun r => ?_, fun k => ?_, ?_, hb.params.trans (hp.params.trans q1.params), hwatch, hb.faulted.trans (hp.faulted.trans q1.faulted),
    hb.draws.trans (hp.draws.trans q1.draws)⟩
  · have kept : ∀ q, q ≠ .pc → q ≠ .sp → (writeBack pcNext none wr s2).readReg q = regAfterSrc (fmt2Ctx s w src true) s src q :=
      fun q hpc hne => by rw [readReg_writeBack_noFlags hpc, hp.regs, if_neg hne, r1]
    rw [readReg_retire]
    cases r with
    | pc => exact writeBack_regs pcNext none wr s2 .pc
    | sp => exact (writeBack_regs pcNext none wr s2 .sp).trans ((hp.regs .sp).trans (congrArg (· - 2#16) hsp))
    | sr => exact (kept .sr nofun nofun).trans hsr
    | cg => rfl
    | gp n => exact kept (.gp n) nofun nofun
  · rw [byteRead_retire, hb.byteRead, hp.bytes, hsp]
    simp only [byteAfter, hbyte, q1.params, startStep_params]
  · rw [retire_outcome, hwatch, hb.hits, hp.hits, q1.hits, quiet_outcome_start, hsp]
    rfl

/-- The source and the push of PUSH and CALL, where the operand can be read and SP is even with a mapped slot below it. -/
theorem source_push_ok (i : Instr) (pushed : Word) (hwf : src.wellFormed) (ha : srcValue (fmt2Ctx s w src true) s src = some a)
    (hsp : s.sp.toNat % 2 = 0) (hc : canStore s w (s.sp - 2#16)) :
    ∃ s1 s2, readSource (fmt2Ctx s w src true) src (s.pc + 2#16) (startStep i s) =
        .ok ⟨a, srcLoc (fmt2Ctx s w src true) s src, dstExtAddr s src⟩ s1 ∧ pushValue w pushed s1 = .ok () s2 ∧
      ∀ cg pcNext wr, Completed s (retire cg (writeBack pcNext none wr s2)) (regsAfterPush s w src (finalPc pcNext wr)) w
        (some (s.sp - 2#16)) pushed cg 0 := by
  obtain ⟨s1, h1, q1, r1⟩ := readSource_start_ok i hwf ha
  have hsp1 : s1.sp = s.sp := (r1 .sp).trans regAfterSrc_stack_sp
  have heven : isOdd (s1.sp - 2#16) = false := by rw [isOdd_sub_two, hsp1]; exact (isOdd_false_iff _).2 hsp
  obtain ⟨s2, h2, hp⟩ := pushValue_ok (w := w) pushed heven (by rw [hsp1, q1.canStore]; exact hc)
  exact ⟨s1, s2, h1, h2, completed_of_pushed hwf q1 r1 hp⟩

/-- PUSH completes with its operand stored. -/
theorem push_completes (hwf : src.wellFormed) (ha : srcValue (fmt2Ctx s w src true) s src = some a) (hsp : s.sp.toNat % 2 = 0)
    (hc : canStore s w (s.sp - 2#16)) :
    ∃ t, exec (.push w src) s = .next t ∧
      Completed s t (regsAfterPush s w src (fmt2Ctx s w src true).pcNext) w (some (s.sp - 2#16)) a (isConstant src) 0 := by
  obtain ⟨s1, s2, h1, h2, hcomp⟩ := source_push_ok (.push w src) a hwf ha hsp hc
  refine ⟨_, ?_, hcomp (isConstant src) (fmt2Ctx s w src true).pcNext .plain⟩
  show execPush w src s = _
  simp only [execPush]
  rw [h1, andThen_ok, h2, andThen_ok]
  rfl

/-- CALL to an even target completes with the return address stored. -/
theorem call_completes (hwf : src.wellFormed) (ha : srcValue (fmt2Ctx s .word src true) s src = some a) (hsp : s.sp.toNat % 2 = 0)
    (hc : canStore s .word (s.sp - 2#16)) (he : a.toNat % 2 = 0) :
    ∃ t, exec (.call src) s = .next t ∧
      Completed s t (regsAfterPush s .word src a) .word (some (s.sp - 2#16)) (fmt2Ctx s .word src true).pcNext (isConstant src) 0 := by
  obtain ⟨s1, s2, h1, h2, hcomp⟩ := source_push_ok (.call src) (fmt2Ctx s .word src true).pcNext hwf ha hsp hc
  refine ⟨_, ?_, hcomp (isConstant src) (fmt2Ctx s .word src true).pcNext (.pc a)⟩
  show execCall src s = _
  simp only [execCall]
  rw [h1, andThen_ok, h2, andThen_ok, checkPc_even he, andThen_ok]
  rfl

/-! ### RETI -/

/-- Retirement of a step that stored nothing: what the completed step leaves. -/
theorem completed_of_quiet {regs : Reg → Word} (hq : Quiet (startStep i s) u) (hregs : ∀ r, u.readReg r = regs r) (cg : Bool) :
    Completed s (retire cg u) regs .word none 0#16 cg 0 := by
  refine ⟨fun r => (readReg_retire ..).trans (hregs r), hq.byteRead, ?_, hq.params, hq.watch, hq.faulted, hq.draws⟩
  rw [retire_outcome, hq.hits, quiet_outcome_start]
  rfl

/-- The registers after RETI: SR and PC as popped, SP above both. -/
def regsAfterReti (s : State) (srv pcv : Word) : Reg → Word
  | .pc => pcv
  | .sp => s.sp + 4#16
  | .sr => srv
  | .cg => 0#16
  | .gp n => s.readReg (.gp n)

/-- What RETI needs of the two stack words: both can be read, the first is a legal SR, the second an even address (42_fmt2.md R197). -/
structure Returns (s : State) (srv pcv : Word) : Prop where
  srRead  : wordAt s s.sp = some srv
  pcRead  : wordAt s (s.sp + 2#16) = some pcv
  srBits  : srv &&& ~~~s.params.srMask = 0#16
  pcEven  : pcv.toNat % 2 = 0

/-- A word is read at an even address only (20_memory.md R58). -/
theorem isOdd_of_wordAt (h : wordAt s a = some v) : isOdd a = false := by
  cases ho : isOdd a with
  | false => rfl
  | true => rw [wordAt, if_pos ho] at h; cases h

/-- A RETI that returns pops SR and PC and writes registers alone. -/
theorem reti_ok {srv pcv : Word} (h : Returns s srv pcv) :
    ∃ u, exec .reti s = .next (retire false u) ∧ Quiet (startStep .reti s) u ∧ ∀ r, u.readReg r = regsAfterReti s srv pcv r := by
  obtain ⟨h0, h1, hv, he⟩ := h
  let s0 := (startStep .reti s).note (.regRead .sp s.sp)
  let s1 := s0.note (.memRead s.sp .word srv)
  let s2 := s1.note (.memRead (s.sp + 2#16) .word pcv)
  let s4 := writeReg .sp (s.sp + 4#16) (writeReg .sr srv s2)
  have heven : isOdd (s.sp + 4#16) = false := isOdd_add_four.trans (isOdd_of_wordAt h0)
  have q2 : Quiet (startStep .reti s) s2 := ((quiet_noteRead ..).trans (quiet_noteMem ..)).trans (quiet_noteMem ..)
  have q4 : Quiet (startStep .reti s) s4 := (q2.trans (quiet_writeReg _ .sr _)).trans (quiet_writeReg _ .sp _)
  refine ⟨writeBack (s.pc + 2#16) none (.pc pcv) s4, ?_, q4.trans (writeBack_quiet ..), fun r => ?_⟩
  · show execReti s = _
    simp only [execReti]
    rw [memRead_ok (s := s0) (w := .word) (v := srv) h0, andThen_ok, memRead_ok (s := s1) (w := .word) (v := pcv) h1, andThen_ok,
      popSr_ok (s := s2) hv, andThen_ok, writeSp_even heven, andThen_ok, checkPc_even he, andThen_ok]
    rfl
  · cases r <;> rfl

theorem reti_completes {srv pcv : Word} (h : Returns s srv pcv) :
    ∃ t, exec .reti s = .next t ∧ Completed s t (regsAfterReti s srv pcv) .word none 0#16 false 0 := by
  obtain ⟨u, hu, hq, hregs⟩ := reti_ok h
  exact ⟨_, hu, completed_of_quiet hq hregs false⟩

theorem not_next_of_stopsWith {t : State} {e : Raise} {regs : Reg → Word} (h : StopsWith i s e regs) : exec i s ≠ .next t := by
  obtain ⟨f, hf, -⟩ := h
  rw [hf]
  nofun

/-- RETI gives a next state only where it returns: every other case is one of its stops. -/
theorem returns_of_next {t : State} (h : exec .reti s = .next t) : ∃ srv pcv, Returns s srv pcv := by
  cases e0 : accessError s.params .word s.sp with
  | some e => exact absurd h (not_next_of_stopsWith (reti_stops_at_sr e0))
  | none =>
    cases e1 : accessError s.params .word (s.sp + 2#16) with
    | some e => exact absurd h (not_next_of_stopsWith (reti_stops_at_pc e0 e1))
    | none =>
      obtain ⟨srv, h0⟩ := valueAt_of_accessError_none e0
      obtain ⟨pcv, h1⟩ := valueAt_of_accessError_none e1
      by_cases hv : srv &&& ~~~s.params.srMask = 0#16
      · rcases Nat.mod_two_eq_zero_or_one pcv.toNat with he | ho
        · exact ⟨srv, pcv, h0, h1, hv, he⟩
        · exact absurd h (not_next_of_stopsWith (reti_stops_at_odd_pc h0 h1 hv ho))
      · exact absurd h (not_next_of_stopsWith (reti_stops_on_sr h0 h1 hv))

end

end Sys2Proof.Machine

namespace Sys2Proof.Proofs

open Sys2Proof.Machine Sys2Proof.Claims

/-- Settles O22, by the answers of RRC and RRA as numbers: the operand fits its width. -/
theorem rotatesComplete : Obligations.RotatesComplete := by
  unfold Obligations.RotatesComplete
  intro w src s a hwf hc hi ha
  have hlt : a.toNat < size w := size_eq w ▸ srcValue_lt ha
  exact ⟨rmw_gives_of_alu rfl hwf hc hi ha (aluRrc_eq hlt ..), rmw_gives_of_alu rfl hwf hc hi ha (aluRra_eq hlt ..)⟩

/-- Settles O23, by the answers of SWPB and SXT as numbers. -/
theorem byteOpsComplete : Obligations.ByteOpsComplete := by
  unfold Obligations.ByteOpsComplete
  intro src s a hwf hc hi ha
  exact ⟨rmw_gives_of_alu rfl hwf hc hi ha (aluSwpb_eq ..), rmw_gives_of_alu rfl hwf hc hi ha (aluSxt_eq ..)⟩

/-- Settles O24: the source routine and the push complete, and PC is the address after the instruction. -/
theorem pushCompletes : Obligations.PushCompletes := by
  unfold Obligations.PushCompletes
  intro w src s a hwf ha hsp hc
  rw [← fmt2Ctx_pcNext s w src true]
  exact push_completes hwf ha hsp hc

/-- Settles O25: the source routine, the push and the check of the target complete. -/
theorem callCompletes : Obligations.CallCompletes := by
  unfold Obligations.CallCompletes
  intro src s a hwf ha hsp hc he
  rw [← fmt2Ctx_pcNext s .word src true]
  exact call_completes hwf ha hsp hc he

/-- Settles O26: an SP whose word can be read is even, so that every check of RETI passes. -/
theorem retiCompletes : Obligations.RetiCompletes := by
  unfold Obligations.RetiCompletes
  exact fun s srv pcv h0 h1 hv he => reti_completes ⟨h0, h1, hv, he⟩

/-- Settles O36: RETI that gives a next state has returned, and a return writes registers alone. -/
theorem frameOfReti : Obligations.FrameOfReti := by
  unfold Obligations.FrameOfReti
  intro s t h
  obtain ⟨srv, pcv, hr⟩ := returns_of_next h
  obtain ⟨u, hu, hq, hregs⟩ := reti_ok hr
  cases h.symm.trans hu
  refine ⟨fun r hpc hsp hsr => ?_, ⟨hq.params, hq.watch, hq.faulted⟩, hq.draws, hq.mem⟩
  rw [readReg_retire, hregs]
  cases r with
  | pc => exact absurd rfl hpc
  | sp => exact absurd rfl hsp
  | sr => exact absurd rfl hsr
  | cg | gp n => rfl

end Sys2Proof.Proofs
end

section
/-! The stop of a constant or immediate operand (42_fmt2.md R198): RRC, SWPB, RRA and SXT raise it first, and no routine of PUSH and CALL does. -/

namespace Sys2Proof.Machine

open Sys2Proof.Claims

/-! ### RRC, SWPB, RRA and SXT -/

theorem hasNoLocation_eq_true {src : Src} (h : isConstant src ∨ src = .imm) : hasNoLocation src = true := by
  simpa [hasNoLocation] using h

theorem rmwOf_raises_constantOperand {w : Width} {src : Src} {s : State} {i : Instr} (hi : i ∈ rmwOf w src) (h : hasNoLocation src = true) :
    Raises i s .constantOperand (startStep i s) := by
  obtain ⟨m, alu, hrun⟩ := rmwOf_runs hi
  rw [Raises, hrun]
  simp only [runRmw, h, ↓reduceIte]
  rfl

/-! ### What no routine of PUSH and CALL raises -/

/-- A routine completes, or raises something else than `ConstantOperand`. -/
def NoConstantOperand {α : Type} (r : Res α) : Prop := ∀ t, r ≠ .raise (.unknown .constantOperand) t

section
variable {α β : Type} {ctx : Ctx} {w : Width} {src : Src} {s : State} {a v c : Word} {i : Instr} {e : Raise}

theorem noConstantOperand_ok (a : α) (s : State) : NoConstantOperand (.ok a s) := fun _ h => by cases h

theorem noConstantOperand_raise (h : e ≠ .unknown .constantOperand) (s : State) : NoConstantOperand (.raise e s : Res α) :=
  fun _ ht => h (Res.raise.inj ht).1

theorem noConstantOperand_andThen {r : Res α} {f : α → State → Res β} (h : NoConstantOperand r) (hf : ∀ a u, NoConstantOperand (f a u)) :
    NoConstantOperand (r.andThen f) := by
  cases r with
  | ok a u => exact hf a u
  | raise e u => exact noConstantOperand_raise (fun he => h u (congrArg (Res.raise · u) he)) u

/-- An access raises `MisalignedWord` or `MemFail` (20_memory.md R57, R58). -/
theorem accessError_ne_constantOperand {p : Params} : accessError p w a ≠ some (.unknown .constantOperand) := by
  unfold accessError
  split_ifs <;> nofun

theorem noConstantOperand_memRead : NoConstantOperand (memRead w a s) :=
  fun _ h => accessError_ne_constantOperand (accessError_of_memRead h)

theorem noConstantOperand_fetchWord : NoConstantOperand (fetchWord a s) :=
  fun _ h => accessError_ne_constantOperand (accessError_of_fetchWord h)

theorem noConstantOperand_memWrite : NoConstantOperand (memWrite w a v s) :=
  fun _ h => accessError_ne_constantOperand (accessError_of_memWrite h)

theorem noConstantOperand_writeSp : NoConstantOperand (writeSp v s) := by
  unfold writeSp
  split
  · exact noConstantOperand_raise (by decide) s
  · exact noConstantOperand_ok _ _

theorem noConstantOperand_checkPc : NoConstantOperand (checkPc w v s) := by
  unfold checkPc
  split_ifs
  · exact noConstantOperand_raise (by decide) s
  · exact noConstantOperand_raise (by decide) s
  · exact noConstantOperand_ok _ _

theorem noConstantOperand_readOperandReg {r : Reg} : NoConstantOperand (readOperandReg ctx r s) := by
  unfold readOperandReg
  split
  · exact noConstantOperand_raise (by decide) s
  · exact noConstantOperand_ok _ _

theorem noConstantOperand_sourceAt : NoConstantOperand (sourceAt ctx a c s) :=
  noConstantOperand_andThen noConstantOperand_memRead fun _ => noConstantOperand_ok _

theorem noConstantOperand_autoIncrement {r : Reg} : NoConstantOperand (autoIncrement ctx r s) := by
  simp only [autoIncrement]
  split_ifs
  · exact noConstantOperand_ok _ _
  · exact noConstantOperand_writeSp
  · exact noConstantOperand_ok _ _

theorem noConstantOperand_readSource : NoConstantOperand (readSource ctx src c s) := by
  cases src with
  | reg r => exact noConstantOperand_andThen noConstantOperand_readOperandReg fun _ => noConstantOperand_ok _
  | idx r | sym | abs => exact noConstantOperand_andThen noConstantOperand_fetchWord fun _ _ => noConstantOperand_sourceAt
  | ind r =>
    simp only [readSource]
    split
    · exact noConstantOperand_raise (by decide) s
    · exact noConstantOperand_sourceAt
  | inc r =>
    exact noConstantOperand_andThen noConstantOperand_sourceAt fun _ _ =>
      noConstantOperand_andThen noConstantOperand_autoIncrement fun _ => noConstantOperand_ok _
  | imm => exact noConstantOperand_andThen noConstantOperand_fetchWord fun _ => noConstantOperand_ok _
  | cg0 | cg1 | cg2 | cgm1 | cg4 | cg8 => exact noConstantOperand_ok _ _

theorem noConstantOperand_pushValue : NoConstantOperand (pushValue w v s) :=
  noConstantOperand_andThen noConstantOperand_writeSp fun _ _ => noConstantOperand_memWrite

/-- PUSH and CALL are a course that raises no `ConstantOperand`. -/
theorem stackOf_noConstantOperand (hi : i ∈ stackOf w src) (s : State) : ∃ r, exec i s = finishStep i s.pc r ∧ NoConstantOperand r := by
  have hcases : i = .push w src ∨ i = .call src := by
    cases w with
    | byte => exact .inl (by simpa [stackOf] using hi)
    | word => simpa [stackOf] using hi
  rcases hcases with rfl | rfl
  · exact ⟨_, rfl, noConstantOperand_andThen noConstantOperand_readSource fun _ _ =>
      noConstantOperand_andThen noConstantOperand_pushValue fun _ _ => noConstantOperand_ok _ _⟩
  · exact ⟨_, rfl, noConstantOperand_andThen noConstantOperand_readSource fun _ _ =>
      noConstantOperand_andThen noConstantOperand_pushValue fun _ _ =>
        noConstantOperand_andThen noConstantOperand_checkPc fun _ _ => noConstantOperand_ok _ _⟩

/-- The report of a fault names the reason that the course raised. -/
theorem report_ne_constantOperand {r : Res Bool} {pc : Word} {f : Fault} (hr : NoConstantOperand r) (h : finishStep i pc r = .fault f)
    (word : Option Word) (pcStart : Word) : f.report ≠ .unknownBehavior .constantOperand word pcStart := by
  cases r with
  | ok cg t => cases h
  | raise e t =>
    cases h
    rw [takeFault_report]
    cases e with
    | memFail k => nofun
    | unknown reason =>
      intro hrep
      cases hrep
      exact hr t rfl

end

end Sys2Proof.Machine

namespace Sys2Proof.Proofs

open Sys2Proof.Machine Sys2Proof.Claims

/-- Settles O39: the check for a location comes first in every read-modify-write course, and no routine of PUSH and CALL raises its reason. -/
theorem constantOperandRaises : Obligations.ConstantOperandRaises := by
  unfold Obligations.ConstantOperandRaises
  refine ⟨fun w src s h i hi => rmwOf_raises_constantOperand hi (hasNoLocation_eq_true h), fun w src s i f word pcStart hi h => ?_⟩
  obtain ⟨r, hrun, hr⟩ := stackOf_noConstantOperand hi s
  exact report_ne_constantOperand hr (hrun.symm.trans h) word pcStart

end Sys2Proof.Proofs
end

section
/-! The jumps themselves (43_jump.md R210–R218): the words that encode them, and a target that keeps the parity of PC. That a jump completes is
`runJump_jumps`. -/

namespace Sys2Proof.Machine

open Sys2Proof.Claims

/-- Twice the offset is even, so a target has the parity of PC (43_jump.md R210). -/
theorem jumpGoal_toNat_mod_two (pc : Word) (off : BitVec 10) : (jumpGoal pc off).toNat % 2 = pc.toNat % 2 := by
  rw [jumpGoal, BitVec.toNat_ofInt]
  omega

theorem offset_toInt_bounds (off : BitVec 10) : -512 ≤ off.toInt ∧ off.toInt ≤ 511 :=
  ⟨off.le_toInt, Int.le_sub_one_of_lt off.toInt_lt⟩

/-- The fields of a jump's word do not overlap: no sum is cut off (43_jump.md R211–R218). -/
theorem jumpWord_toNat {c : Nat} (h : c < 8) (off : BitVec 10) : (jumpWord c off).toNat = 0x2000 + c * 1024 + off.toNat := by
  have := off.isLt
  rw [jumpWord, BitVec.toNat_ofNat, Nat.mod_eq_of_lt (by omega)]

theorem allJumps_eq_map_jumpOf (off : BitVec 10) : allJumps off = (List.range 8).map (jumpOf · off) := rfl

theorem jumpOf_length (c : Nat) (off : BitVec 10) : (jumpOf c off).length = some 2 := by
  unfold jumpOf
  split <;> rfl

theorem allJumps_opcodeWords (off : BitVec 10) :
    (allJumps off).map (fun i => i.opcodeWord.toNat) = (List.range 8).map (fun c => 0x2000 + c * 1024 + off.toNat) := by
  rw [allJumps_eq_map_jumpOf, List.map_map]
  refine List.map_congr_left fun c hc => ?_
  have h := List.mem_range.1 hc
  rw [Function.comp_apply, opcodeWord_jumpOf h, jumpWord_toNat h]

theorem length_of_mem_allJumps {i : Instr} {off : BitVec 10} (hi : i ∈ allJumps off) : i.length = some 2 := by
  rw [allJumps_eq_map_jumpOf] at hi
  obtain ⟨c, -, rfl⟩ := List.mem_map.1 hi
  exact jumpOf_length c off

end Sys2Proof.Machine

namespace Sys2Proof.Proofs

open Sys2Proof.Machine Sys2Proof.Claims

/-- Settles O28: every jump is one run of `runJump`, with its own condition on SR. -/
theorem jumpsComplete : Obligations.JumpsComplete := by
  unfold Obligations.JumpsComplete
  intro off s c z n v
  exact ⟨⟨runJump_jumps (cond := condNe) rfl, runJump_jumps (cond := condEq) rfl, runJump_jumps (cond := condNc) rfl,
    runJump_jumps (cond := condC) rfl, runJump_jumps (cond := condN) rfl, runJump_jumps (cond := condGe) rfl,
    runJump_jumps (cond := condL) rfl, runJump_jumps (cond := condAlways) rfl⟩,
    fun hpc => (jumpGoal_toNat_mod_two s.pc off).trans hpc, offset_toInt_bounds off, allJumps_opcodeWords off,
    fun _ => length_of_mem_allJumps⟩

end Sys2Proof.Proofs
end

section
/-! The stubs (44_unsupported.md R230–R234): each is one run of `runStub`, which raises right after the opcode fetch. -/

namespace Sys2Proof.Machine

open Sys2Proof.Claims

theorem exec_of_isStub {i : Instr} (hi : isStub i) (s : State) : exec i s = runStub i s := by
  cases i with
  | ext x | pushmA x | pushmW x | popmA x | popmW x => rfl
  | rrcm n aw r | rram n aw r | rlam n aw r | rrum n aw r => rfl
  | _ => cases hi

/-- A stub has no length (30_encoding.md R109). -/
theorem length_of_isStub {i : Instr} (hi : isStub i) : i.length = none := by
  cases i with
  | ext x | pushmA x | pushmW x | popmA x | popmW x => rfl
  | rrcm n aw r | rram n aw r | rlam n aw r | rrum n aw r => rfl
  | _ => cases hi

theorem runStub_eq_fault (i : Instr) (s : State) :
    runStub i s = .fault (takeFault (.unknownBehavior .unsupported (some i.opcodeWord) s.pc) (startStep i s)) :=
  finishStep_raise i s.pc (.unknown .unsupported) (startStep i s)

theorem raises_unsupported_of_isStub {i : Instr} (hi : isStub i) (s : State) : Raises i s .unsupported (startStep i s) :=
  (exec_of_isStub hi s).trans (runStub_eq_fault i s)

end Sys2Proof.Machine

namespace Sys2Proof.Proofs

open Sys2Proof.Machine Sys2Proof.Claims

/-- Settles O30: a stub's step is `runStub`, which raises in the state that the opcode fetch leaves. -/
theorem stubsRaiseUnsupported : Obligations.StubsRaiseUnsupported := by
  unfold Obligations.StubsRaiseUnsupported
  exact fun i s hi => ⟨raises_unsupported_of_isStub hi s, length_of_isStub hi⟩

end Sys2Proof.Proofs
end

section
/-! Every fault of an instruction (60_exceptions.md R249), said once: it is `takeFault` of a raise, in a state that keeps PC, the configuration and the
watched ranges. -/

namespace Sys2Proof.Machine

/-- What an instruction that faults did: it raised, in a state that `Keeps` describes, and a `MemFail` is of an unmapped address. -/
theorem exec_fault_cases {i : Instr} {s : State} {f : Fault} (hwf : i.wellFormed) (h : exec i s = .fault f) :
    ∃ (e : Raise) (t : State), f = takeFault (e.report (some i.opcodeWord) s.pc) t ∧ Keeps s t ∧ ∀ a, e = .memFail a → isMapped s.params a = false := by
  obtain ⟨r, hr, hends⟩ := exec_endsWell i s hwf
  rw [hr] at h
  cases r with
  | ok cg u => cases h
  | raise e t =>
    obtain ⟨hkeeps, hmem⟩ := hends
    exact ⟨e, t, (Host.Outcome.fault.inj h).symm, hkeeps, hmem⟩

end Sys2Proof.Machine

namespace Sys2Proof.Proofs

open Sys2Proof.Machine

/-- Settles O49: what is raised leaves PC as it was, `takeFault` sets the mark and the outcome, and the record is that of the raise. -/
theorem faultStatesArePrecise : Obligations.FaultStatesArePrecise := by
  unfold Obligations.FaultStatesArePrecise
  intro i s f hwf h
  obtain ⟨e, t, rfl, hkeeps, hmem⟩ := exec_fault_cases hwf h
  have hafter := hkeeps.takeFault (e.report (some i.opcodeWord) s.pc)
  refine ⟨hafter.pc, ?_, ?_, hafter.params, hafter.watch, ?_⟩
  · rw [takeFault_after, takeFault_report, markFaulted_faulted]
  · rw [takeFault_after, takeFault_report, markFaulted_outcome]
  · rw [takeFault_report]
    cases e with
    | unknown reason => exact .inl ⟨reason, rfl⟩
    | memFail a => exact .inr ⟨a, rfl, hmem a rfl⟩

end Sys2Proof.Proofs
end

section
/-! What a reset leaves (70_reset_and_hazards.md R270): one equation for each thing that the two bytes of the vector can be. -/

namespace Sys2Proof.Machine

variable {s : State}

@[simp] theorem byteRead_resetRegisters (s : State) (a : Word) : byteRead (resetRegisters s) a = byteRead s a := byteRead_congr rfl rfl a

theorem performReset_mapped {lo hi : Byte} (hlo : byteRead s s.params.resetVector = some lo)
    (hhi : byteRead s (s.params.resetVector + 1#16) = some hi) :
    performReset s = .done () { resetRegisters s with pc := wordOfBytes lo hi } := by
  simp [performReset, hlo, hhi]

theorem performReset_unmapped_low (hlo : byteRead s s.params.resetVector = none) :
    performReset s = .memFail s.params.resetVector (failReset s.params.resetVector (resetRegisters s)) := by
  simp [performReset, hlo]

theorem performReset_unmapped_high {lo : Byte} (hlo : byteRead s s.params.resetVector = some lo)
    (hhi : byteRead s (s.params.resetVector + 1#16) = none) :
    performReset s = .memFail (s.params.resetVector + 1#16) (failReset (s.params.resetVector + 1#16) (resetRegisters s)) := by
  simp [performReset, hlo, hhi]

end Sys2Proof.Machine

namespace Sys2Proof.Proofs

open Sys2Proof.Machine

/-- Settles O56: a reset is `performReset`, and a failed one differs from `resetRegisters` in PC, the count of draws and the mark alone. -/
theorem resetPutsStateInPlace : Obligations.ResetPutsStateInPlace := by
  unfold Obligations.ResetPutsStateInPlace
  intro s hc
  have hreset : hostReset s = performReset s := whenConfigured_ok hc _
  refine ⟨fun lo hi hlo hhi => ?_, fun hlo => ⟨_, hreset.trans (performReset_unmapped_low hlo), rfl⟩,
    fun lo hlo hhi => ⟨_, hreset.trans (performReset_unmapped_high hlo hhi), rfl⟩⟩
  rw [hreset, performReset_mapped hlo hhi, wordOfBytes_eq_ofNat]
  rfl

end Sys2Proof.Proofs
end

section
/-! A run (70_reset_and_hazards.md R276): for each reply, the steps that a run giving it makes. -/

namespace Sys2Proof.Machine

open Sys2Proof.Claims

variable {s t u : State} {b k n : Nat} {p : State → Prop}

/-- The terminal outcomes are the ones that end a run (60_exceptions.md R240). -/
theorem isTerminal_iff_endsRun (t : State) : isTerminal t.outcome = true ↔ endsRun t := by
  cases h : t.outcome with
  | none => simp [isTerminal, endsRun, h]
  | some o => cases o <;> simp [isTerminal, endsRun, h]

/-! ### One step of a run -/

theorem runFrom_of_ends (h : step s = .next t) (he : endsRun t) : runFrom (b + 1) n s = .finished true (n + 1) t := by
  simp [runFrom_succ, h, (isTerminal_iff_endsRun t).2 he]

theorem runFrom_of_goesOn (h : step s = .next t) (he : ¬endsRun t) : runFrom (b + 1) n s = runFrom b (n + 1) t := by
  simp [runFrom_succ, h, mt (isTerminal_iff_endsRun t).1 he]

theorem runFrom_of_fault {f : Fault} (h : step s = .fault f) : runFrom (b + 1) n s = .fault f (n + 1) := by
  simp [runFrom_succ, h]

theorem runFrom_of_refused {r : Refusal} (h : step s = .refused r) : runFrom (b + 1) n s = .refused r (n + 1) := by
  simp [runFrom_succ, h]

/-- Steps that end nothing are counted, and the run goes on with the rest of the budget. -/
theorem runFrom_of_runsOn {m : Nat} (h : runsOn m s u) (b n : Nat) : runFrom (m + b) n s = runFrom b (n + m) u := by
  induction m generalizing s n with
  | zero => rw [h, Nat.zero_add, Nat.add_zero]
  | succ m ih =>
    obtain ⟨v, hstep, hgoes, hrest⟩ := h
    rw [Nat.add_right_comm, runFrom_of_goesOn hstep hgoes, ih hrest, Nat.add_right_comm, Nat.add_assoc]

/-! ### A whole run -/

/-- Within a budget of `b` steps from `s`, with `n` steps made before, the `k`-th step is made in a state of which `p` holds, and no step before it
ended the run. -/
def stopsAt (p : State → Prop) (b n : Nat) (s : State) (k : Nat) : Prop :=
  k ≤ n + b ∧ ∃ m u, k = n + m + 1 ∧ runsOn m s u ∧ p u

/-- What the steps from `s` are when a run with a budget of `b`, after `n` steps, gives a reply (R276). -/
def runGives (b n : Nat) (s : State) : RunReply → Prop
  | .finished false k t => k = n + b ∧ runsOn b s t
  | .finished true k t => stopsAt (fun u => step u = .next t ∧ endsRun t) b n s k
  | .fault f k => stopsAt (step · = .fault f) b n s k
  | .refused r k => stopsAt (step · = .refused r) b n s k

theorem stopsAt_first (h : p s) : stopsAt p (b + 1) n s (n + 1) := ⟨by omega, 0, s, rfl, rfl, h⟩

theorem stopsAt_later (hstep : step s = .next t) (hgoes : ¬endsRun t) (h : stopsAt p b (n + 1) t k) : stopsAt p (b + 1) n s k := by
  obtain ⟨hk, m, u, hm, hrun, hp⟩ := h
  exact ⟨by omega, m + 1, u, by omega, ⟨t, hstep, hgoes, hrun⟩, hp⟩

theorem runGives_later {r : RunReply} (hstep : step s = .next t) (hgoes : ¬endsRun t) (h : runGives b (n + 1) t r) : runGives (b + 1) n s r := by
  match r, h with
  | .finished false k v, ⟨hk, hrun⟩ => exact ⟨by omega, t, hstep, hgoes, hrun⟩
  | .finished true k v, h => exact stopsAt_later hstep hgoes h
  | .fault f k, h => exact stopsAt_later hstep hgoes h
  | .refused r k, h => exact stopsAt_later hstep hgoes h

theorem runGives_runFrom (b n : Nat) (s : State) : runGives b n s (runFrom b n s) := by
  induction b generalizing n s with
  | zero => exact ⟨rfl, rfl⟩
  | succ b ih =>
    cases h : step s with
    | next t =>
      by_cases he : endsRun t
      · rw [runFrom_of_ends h he]
        exact stopsAt_first ⟨h, he⟩
      · rw [runFrom_of_goesOn h he]
        exact runGives_later h he (ih (n + 1) t)
    | fault f =>
      rw [runFrom_of_fault h]
      exact stopsAt_first h
    | refused r =>
      rw [runFrom_of_refused h]
      exact stopsAt_first h

/-- The run up to the step it stops at: that step is the first of what is left of the run. -/
theorem runFrom_of_stopsAt (h : stopsAt p b n s k) : ∃ u c j, k = j + 1 ∧ p u ∧ runFrom b n s = runFrom (c + 1) j u := by
  obtain ⟨hk, m, u, hm, hrun, hp⟩ := h
  obtain ⟨c, rfl⟩ : ∃ c, b = m + (c + 1) := ⟨b - m - 1, by omega⟩
  exact ⟨u, c, n + m, hm, hp, runFrom_of_runsOn hrun ..⟩

theorem runFrom_of_runGives {r : RunReply} (h : runGives b n s r) : runFrom b n s = r := by
  match r, h with
  | .finished false k t, ⟨hk, hrun⟩ => exact hk ▸ runFrom_of_runsOn hrun 0 n
  | .finished true k t, h =>
    obtain ⟨u, c, j, rfl, ⟨hstep, hends⟩, hrun⟩ := runFrom_of_stopsAt h
    exact hrun.trans (runFrom_of_ends hstep hends)
  | .fault f k, h =>
    obtain ⟨u, c, j, rfl, hstep, hrun⟩ := runFrom_of_stopsAt h
    exact hrun.trans (runFrom_of_fault hstep)
  | .refused r k, h =>
    obtain ⟨u, c, j, rfl, hstep, hrun⟩ := runFrom_of_stopsAt h
    exact hrun.trans (runFrom_of_refused hstep)

theorem runFrom_eq_iff {r : RunReply} : runFrom b n s = r ↔ runGives b n s r :=
  ⟨fun h => h ▸ runGives_runFrom b n s, runFrom_of_runGives⟩

theorem hostRun_eq_iff (hc : wellFormedParams s.params) {r : RunReply} : hostRun b s = r ↔ runGives b 0 s r := by
  rw [hostRun, if_pos hc, runFrom_eq_iff]

end Sys2Proof.Machine

namespace Sys2Proof.Proofs

open Sys2Proof.Machine Sys2Proof.Claims

/-- Settles O58: a run that starts with no step made gives a reply exactly where the steps are the ones `runGives` names for it. -/
theorem runCountsSteps : Obligations.RunCountsSteps := by
  unfold Obligations.RunCountsSteps
  intro budget s t n hc
  simp only [hostRun_eq_iff hc, runGives, stopsAt, Nat.zero_add, implies_true, and_true]
  exact and_congr_right fun hn => by rw [hn]

end Sys2Proof.Proofs
end
